-- ==== Sys2Proof/Word.lean ====
section
/-! DEFINITION. The widths of the block's data and the named byte values of rule R57. -/

namespace Sys2Proof

/-- The input unit and the width of a character code (R33, R56). -/
abbrev Byte := BitVec 8

/-- A colour value, RGB222 in the layout `00RRGGBB` (R34). -/
abbrev Colour := BitVec 6

/-- A plane word, a palette ROM word or an output word (R33, R42, R124). -/
abbrev Word := BitVec 32

/-- A colour nibble or a font nibble (R36, R122). -/
abbrev Nibble := BitVec 4

/-- A 2-bit intensity level of one channel (R123). -/
abbrev Level := BitVec 2

/-- A 10-bit output symbol (R124). -/
abbrev Symbol := BitVec 10

/-- A CSI parameter register: PARAM_W = 16 bits (R20, D8). -/
abbrev Param := BitVec 16

/-- CR (R57). -/
abbrev Ascii.cr : Byte := 0x0D

/-- LF (R57). -/
abbrev Ascii.lf : Byte := 0x0A

/-- ESC (R57). -/
abbrev Ascii.esc : Byte := 0x1B

/-- `[` (R57). -/
abbrev Ascii.bracket : Byte := 0x5B

/-- `;` (R57). -/
abbrev Ascii.semicolon : Byte := 0x3B

/-- The ten final selectors of R61, in the table's order. -/
def Ascii.selectors : List Byte := [0x41, 0x42, 0x43, 0x44, 0x48, 0x4A, 0x4B, 0x6D, 0x73, 0x75]

/-- A decimal digit byte, 0x30..0x39 (R57). -/
def isDigit (b : Byte) : Bool := decide (0x30 ≤ b.toNat ∧ b.toNat ≤ 0x39)

end Sys2Proof
end

