-- ==== Sys2Proof/Config.lean ====
section
/-! DEFINITION. The configuration of the block (rule R6): every parameter as plain data, fixed at construction (R31). -/

namespace Sys2Proof

/-- The four modal overlays of file 43. -/
inductive MenuKind where
  | fgPick
  | bgPick
  | style
  | theme
deriving DecidableEq, Repr, Inhabited

/-- The six cursor styles, in the source's order (R21). -/
inductive CursorStyle where
  | block
  | underline
  | bar
  | custom
  | shaded
  | arrow
deriving DecidableEq, Repr, Inhabited

/-- A swap policy (R108). -/
inductive SwapPolicy where
  | deferred
  | forced
deriving DecidableEq, Repr, Inhabited

/-- One cell: a character and its two colours, as MENU_IMAGE and SNAP hold it (R33, R43, R94). -/
structure GridCell where
  ch : Byte
  fg : Colour
  bg : Colour
deriving DecidableEq, Repr, Inhabited

/-- MENU_RECT and MENU_IMAGE of one overlay: the rectangle's left column, top row, width and height, and its cells in
row-major order (R94, D31). -/
structure Menu where
  x0 : Nat
  y0 : Nat
  w : Nat
  h : Nat
  image : List GridCell
deriving DecidableEq, Repr, Inhabited

/-- The four overlays' geometry and artwork. -/
structure Menus where
  fgPick : Menu
  bgPick : Menu
  style : Menu
  theme : Menu
deriving DecidableEq, Repr, Inhabited

/-- CURSOR_GLYPH[0..5] (R116). -/
structure StyleGlyphs where
  block : Byte
  underline : Byte
  bar : Byte
  custom : Byte
  shaded : Byte
  arrow : Byte
deriving DecidableEq, Repr, Inhabited

/-- ATTR at one cell: underline and blink (R126). -/
structure AttrCell where
  row : Nat
  col : Nat
  ul : Bool
  bk : Bool
deriving DecidableEq, Repr, Inhabited

/-- One byte of the font ROM at its linear address `ch*GLYPH_H + gr` (R41, R45). -/
structure FontByte where
  addr : Nat
  pattern : Byte
deriving DecidableEq, Repr, Inhabited

/-- The parameters of rule R6, with SKW of R134. Parameters the table fixes (GLYPH_W, NPARAM, PARAM_W, NUM_STYLES) are in
the types; a colour is 6 bits and a symbol 10 bits by type (R7). NUM_THEMES is the length of `themes`. -/
structure Config where
  cols : Nat
  rows : Nat
  glyphH : Nat
  frameLines : Nat
  /-- FONT, listed by linear address; an address not listed reads 0 (log 17). -/
  font : List FontByte
  defaultFg : Colour
  defaultBg : Colour
  ansiPal : Vector Colour 8
  blankChar : Byte
  bsCodes : List Byte
  mbFg : Byte
  mbBg : Byte
  mbStyle : Byte
  mbTheme : Byte
  menus : Menus
  themes : List (Colour × Colour)
  cursorGlyph : StyleGlyphs
  defaultStyle : CursorStyle
  blinkTicks : Nat
  /-- TMDS_SYM(l, 0) for l in 0..3. -/
  tmdsEven : Vector Symbol 4
  /-- TMDS_SYM(l, 1) for l in 0..3. -/
  tmdsOdd : Vector Symbol 4
  /-- ATTR, listed by cell; a cell not listed has (0, 0), R6's default. -/
  attr : List AttrCell
  swapOnByte : SwapPolicy
  swapOnBlink : SwapPolicy
  wrapSkipCr : Bool
  ringN : Nat
  skw : Nat
deriving DecidableEq, Repr, Inhabited

/-- WPR = COLS / 8, the plane words of one row (R33). -/
def Config.wpr (cfg : Config) : Nat := cfg.cols / 8

/-- MENU_RECT[k] and MENU_IMAGE[k]. -/
def Config.menu (cfg : Config) : MenuKind → Menu
  | .fgPick => cfg.menus.fgPick
  | .bgPick => cfg.menus.bgPick
  | .style => cfg.menus.style
  | .theme => cfg.menus.theme

/-- A one-row menu image of four characters in black on white, as 95_test_vectors.md draws them. -/
def Config.menuOf (a b c d : Byte) : Menu :=
  { x0 := 4, y0 := 0, w := 4, h := 1, image := [⟨a, 0, 0x3F⟩, ⟨b, 0, 0x3F⟩, ⟨c, 0, 0x3F⟩, ⟨d, 0, 0x3F⟩] }

/-- The configuration of `State.reset`: R6's defaults where it gives one, and for the OPEN parameters the stand-ins of
95_test_vectors.md's configuration TC (the font: all blank). DESIGN CHOICE, unsafe (log 2): only `State.reset` and
`decodeTableWord` rest on it; every statement about a state is about all configurations. -/
def Config.default : Config where
  cols := 80
  rows := 30
  glyphH := 16
  frameLines := 480
  font := []
  defaultFg := 0x3F
  defaultBg := 0x00
  ansiPal := #v[0x00, 0x30, 0x0C, 0x3C, 0x03, 0x33, 0x0F, 0x3F]
  blankChar := 0x20
  bsCodes := [0x08, 0x7F]
  mbFg := 0x01
  mbBg := 0x02
  mbStyle := 0x03
  mbTheme := 0x04
  menus := {
    fgPick := Config.menuOf 0x46 0x47 0x3F 0x20
    bgPick := Config.menuOf 0x42 0x47 0x3F 0x20
    style := Config.menuOf 0x43 0x55 0x52 0x3F
    theme := Config.menuOf 0x54 0x48 0x4D 0x3F }
  themes := [(0x3F, 0x00), (0x3C, 0x03)]
  cursorGlyph := ⟨0x80, 0x81, 0x82, 0x83, 0x84, 0x85⟩
  defaultStyle := .block
  blinkTicks := 2
  tmdsEven := #v[0, 1, 2, 3]
  tmdsOdd := #v[4, 5, 6, 7]
  attr := []
  swapOnByte := .deferred
  swapOnBlink := .deferred
  wrapSkipCr := false
  ringN := 4
  skw := 4

end Sys2Proof
end

