-- ==== Sys2Proof/Syntax.lean ====
section
/-! DEFINITION. The instructions: one constructor per row of spec/opcode_table.json, and the modes that decode a byte. -/

namespace Sys2Proof

/-- How the next byte is decoded: the parser modes of R17 and, before them, the routing of an open overlay (R60). -/
inductive Mode where
  | normal
  | esc
  | csi
  | menu (k : MenuKind)
deriving DecidableEq, Repr

/-- The rows of spec/opcode_table.json, in the table's order. A digit operand is its 4-bit value `b - 0x30`. A class that
several bytes name keeps its byte (log 21): the table's `x` of ESC_ABORT and `b` of PRINT, and the byte of CSI_UNKNOWN, BS,
PICK_BS and MODAL_IGNORE, which their rules do not read. -/
inductive Instr where
  | cr
  | lf
  | escEntry
  | escCsi
  | escAbort (x : Byte)
  | csiDigit (d : BitVec 4)
  | csiSep
  | csiCuu
  | csiCud
  | csiCuf
  | csiCub
  | csiCup
  | csiEd
  | csiEl
  | csiSgr
  | csiScp
  | csiRcp
  | csiUnknown (b : Byte)
  | openFg
  | openBg
  | openStyle
  | openTheme
  | bs (b : Byte)
  | print (b : Byte)
  | modalCancel
  | pickDigit (d : BitVec 4)
  | pickBs (b : Byte)
  | styleSelect (d : BitVec 4)
  | themeSelect (d : BitVec 4)
  | modalIgnore (b : Byte)
  | tick
  | line
  | deferredCopy
  | forcedCopy
  | ringPush (b : Byte)
  | ringPop
deriving DecidableEq, Repr

end Sys2Proof
end

