-- ==== Sys2Proof/WellFormed.lean ====
section
/-! DEFINITION. Which instructions a byte can stand for, and in which mode: the opcode table's "mode", "constraint" and
"excludes" columns, written without the decoder. -/

namespace Sys2Proof

/-- A decimal digit value (constraint `b <= 0x39` of the table's digit rows). -/
def digitOk (d : BitVec 4) : Bool := decide (d.toNat ≤ 9)

/-- CR, LF or ESC: the bytes that steps 1 and 2 of R60 take. -/
def isEarly (b : Byte) : Bool := b == Ascii.cr || b == Ascii.lf || b == Ascii.esc

/-- A modal entry byte (R58). -/
def Config.isEntry (cfg : Config) (b : Byte) : Bool :=
  b == cfg.mbFg || b == cfg.mbBg || b == cfg.mbStyle || b == cfg.mbTheme

/-- A backspace byte (R58). -/
def Config.isBs (cfg : Config) (b : Byte) : Bool := cfg.bsCodes.contains b

/-- `PRINT` excludes CR, LF, ESC, MB_* and BS_CODES. -/
def printable (cfg : Config) (b : Byte) : Bool := !(isEarly b || cfg.isEntry b || cfg.isBs b)

/-- `ESC_ABORT` excludes 0x5B, 0x0D, 0x0A, 0x1B. -/
def aborts (x : Byte) : Bool := !(x == Ascii.bracket || isEarly x)

/-- `CSI_UNKNOWN` excludes the digits, 0x3B, 0x0D, 0x0A, 0x1B and the ten selectors. -/
def unknownFinal (b : Byte) : Bool :=
  !(isDigit b || b == Ascii.semicolon || isEarly b || Ascii.selectors.contains b)

/-- `MODAL_IGNORE` excludes the earlier F-MODAL rows valid for the active kind: ESC, the digits and, in a colour picker,
the backspace bytes. -/
def ignoredBy (cfg : Config) (k : MenuKind) (b : Byte) : Bool :=
  !(b == Ascii.esc || isDigit b || ((k == .fgPick || k == .bgPick) && cfg.isBs b))

/-- The instruction is a byte class of mode `m` with operands its row admits. The six events of R66 are of no mode. -/
def Instr.wfIn (cfg : Config) (m : Mode) : Instr → Bool
  | .cr | .lf | .escEntry => m == .normal || m == .esc || m == .csi
  | .escCsi => m == .esc
  | .escAbort x => m == .esc && aborts x
  | .csiDigit d => m == .csi && digitOk d
  | .csiSep | .csiCuu | .csiCud | .csiCuf | .csiCub | .csiCup | .csiEd | .csiEl | .csiSgr | .csiScp | .csiRcp => m == .csi
  | .csiUnknown b => m == .csi && unknownFinal b
  | .openFg | .openBg | .openStyle | .openTheme => m == .normal
  | .bs b => m == .normal && cfg.isBs b
  | .print b => m == .normal && printable cfg b
  | .modalCancel => match m with | .menu _ => true | _ => false
  | .pickDigit d => (m == .menu .fgPick || m == .menu .bgPick) && digitOk d
  | .pickBs b => (m == .menu .fgPick || m == .menu .bgPick) && cfg.isBs b && !(isDigit b)
  | .styleSelect d => m == .menu .style && digitOk d
  | .themeSelect d => m == .menu .theme && digitOk d
  | .modalIgnore b => match m with | .menu k => ignoredBy cfg k b | _ => false
  | .tick | .line | .deferredCopy | .forcedCopy | .ringPush _ | .ringPop => false

/-- The instruction's operands are ones its row admits, in some mode; an event has no operand to check but RING_PUSH's
byte, which is any byte (R136). -/
def Instr.wf (cfg : Config) : Instr → Bool
  | .tick | .line | .deferredCopy | .forcedCopy | .ringPush _ | .ringPop => true
  | i => [Mode.normal, .esc, .csi, .menu .fgPick, .menu .bgPick, .menu .style, .menu .theme].any fun m => i.wfIn cfg m

end Sys2Proof
end

