-- ==== Sys2Proof/Decode.lean ====
section
/-! DEFINITION. The decode function of rule R60 with the selector table of R61, and the encoder. -/

namespace Sys2Proof

/-- The operand value of a digit byte, `b - 0x30`: its low four bits (R62). -/
def digitOf (b : Byte) : BitVec 4 := b.setWidth 4

/-- The byte of a digit value: match 0x30 under mask 0xF0 of the table's digit rows. -/
def digitByte (d : BitVec 4) : Byte := 0x3#4 ++ d

/-- The final selector table (R61). -/
def decodeFinal (b : Byte) : Instr :=
  if b = 0x41 then .csiCuu
  else if b = 0x42 then .csiCud
  else if b = 0x43 then .csiCuf
  else if b = 0x44 then .csiCub
  else if b = 0x48 then .csiCup
  else if b = 0x4A then .csiEd
  else if b = 0x4B then .csiEl
  else if b = 0x6D then .csiSgr
  else if b = 0x73 then .csiScp
  else if b = 0x75 then .csiRcp
  else .csiUnknown b

/-- The routing of a byte while an overlay is active (R60, first block). -/
def decodeMenu (cfg : Config) (k : MenuKind) (b : Byte) : Instr :=
  if b = Ascii.esc then .modalCancel
  else match k with
    | .fgPick | .bgPick =>
      if isDigit b then .pickDigit (digitOf b)
      else if cfg.isBs b then .pickBs b
      else .modalIgnore b
    | .style => if isDigit b then .styleSelect (digitOf b) else .modalIgnore b
    | .theme => if isDigit b then .themeSelect (digitOf b) else .modalIgnore b

/-- Steps 5 to 7 of R60: modal entry, editing bytes, the printable default. -/
def decodeNormal (cfg : Config) (b : Byte) : Instr :=
  if b = cfg.mbFg then .openFg
  else if b = cfg.mbBg then .openBg
  else if b = cfg.mbStyle then .openStyle
  else if b = cfg.mbTheme then .openTheme
  else if cfg.isBs b then .bs b
  else .print b

/-- Step 3 of R60: the byte after ESC. -/
def decodeEsc (b : Byte) : Instr := if b = Ascii.bracket then .escCsi else .escAbort b

/-- Step 4 of R60: a byte in CSI mode. -/
def decodeCsi (b : Byte) : Instr :=
  if isDigit b then .csiDigit (digitOf b)
  else if b = Ascii.semicolon then .csiSep
  else decodeFinal b

/-- The decode function (R60): total, every mode and byte has exactly one class. -/
def decode (cfg : Config) (m : Mode) (b : Byte) : Instr :=
  match m with
  | .menu k => decodeMenu cfg k b
  | .normal => if b = Ascii.cr then .cr else if b = Ascii.lf then .lf else if b = Ascii.esc then .escEntry else decodeNormal cfg b
  | .esc => if b = Ascii.cr then .cr else if b = Ascii.lf then .lf else if b = Ascii.esc then .escEntry else decodeEsc b
  | .csi => if b = Ascii.cr then .cr else if b = Ascii.lf then .lf else if b = Ascii.esc then .escEntry else decodeCsi b

/-- Why no instruction is read: R60 itself rejects nothing, so these are the inputs it is not defined on. -/
inductive DecodeReject where
  /-- The mode pair esc_mode = csi_mode = 1, which a model refuses (R17, D44). Raised by `Mode.ofFlags`. Safe. -/
  | bothModesSet
  /-- There is no byte to decode. Raised by `decodeBytes`. Safe. -/
  | noByte
deriving DecidableEq, Repr

/-- The mode that the flags and the modal state select (R17, R60): modal routing first. -/
def Mode.ofFlags (modal : Option MenuKind) (escMode csiMode : Bool) : Except DecodeReject Mode :=
  match modal, escMode, csiMode with
  | _, true, true => .error .bothModesSet
  | some k, _, _ => .ok (.menu k)
  | none, true, false => .ok .esc
  | none, false, true => .ok .csi
  | none, false, false => .ok .normal

/-- Reading one instruction from the front of a byte list: no lookahead, one byte (R56). -/
def decodeBytes (cfg : Config) (m : Mode) : List Byte → Except DecodeReject (Instr × List Byte)
  | [] => .error .noByte
  | b :: rest => .ok (decode cfg m b, rest)

/-- The bytes of an instruction, from the table's match columns; no byte encodes an event (R66). -/
def encode (cfg : Config) : Instr → List Byte
  | .cr => [0x0D]
  | .lf => [0x0A]
  | .escEntry => [0x1B]
  | .escCsi => [0x5B]
  | .escAbort x => [x]
  | .csiDigit d => [digitByte d]
  | .csiSep => [0x3B]
  | .csiCuu => [0x41]
  | .csiCud => [0x42]
  | .csiCuf => [0x43]
  | .csiCub => [0x44]
  | .csiCup => [0x48]
  | .csiEd => [0x4A]
  | .csiEl => [0x4B]
  | .csiSgr => [0x6D]
  | .csiScp => [0x73]
  | .csiRcp => [0x75]
  | .csiUnknown b => [b]
  | .openFg => [cfg.mbFg]
  | .openBg => [cfg.mbBg]
  | .openStyle => [cfg.mbStyle]
  | .openTheme => [cfg.mbTheme]
  | .bs b => [b]
  | .print b => [b]
  | .modalCancel => [0x1B]
  | .pickDigit d => [digitByte d]
  | .pickBs b => [b]
  | .styleSelect d => [digitByte d]
  | .themeSelect d => [digitByte d]
  | .modalIgnore b => [b]
  | .tick | .line | .deferredCopy | .forcedCopy | .ringPush _ | .ringPop => []

/-- The mode in which a table word is read when nothing else says which (log 5): the CSI bytes of the table's fixed rows in
CSI mode, `[` in ESC mode, every other byte in NORMAL mode. -/
def tableMode (b : Byte) : Mode :=
  if b = Ascii.bracket then .esc
  else if isDigit b || b == Ascii.semicolon || Ascii.selectors.contains b then .csi
  else .normal

/-- The instruction a table word of `nbits` bits stands for: one byte, decoded in `tableMode`, under the configuration of
`State.reset`. A row of the table is one byte; a longer word is refused. -/
def decodeTableWord (nbits w : Nat) : Option Instr :=
  if nbits ≤ 8 then some (decode Config.default (tableMode (BitVec.ofNat 8 w)) (BitVec.ofNat 8 w)) else none

end Sys2Proof
end

