-- ==== Sys2Proof/Machine/State.lean ====
section
/-! DEFINITION. The state of the block (10_state.md, 20_memory.md, 44_frame_store_swap.md R114, 47_interfaces.md), its reset
value (R157), and the reasons a step can stop. -/

namespace Sys2Proof.Machine

/-- The stores of R45, each its own address space. -/
inductive Space where
  | backChr
  | backPl
  | frontChr
  | frontPl
  | snap
  | font
  | lut
deriving DecidableEq, Repr

/-- No exec and no step raises a fault (R145: the block has no exceptions). These name what the linear-address notation
MemRead and MemWrite of R10 and R45 answers where it has no meaning. -/
inductive Fault where
  /-- `memRead` and `memWrite` at an address, or of a width, that R45's map does not have. Safe: no rule makes such an access. -/
  | noSuchAddress (sp : Space) (addr : Nat)
  /-- `memWrite` to the font or palette ROM, which no step writes (R41, R42). Safe. -/
  | readOnlyStore (sp : Space)
deriving DecidableEq, Repr

/-- Why a step is refused. -/
inductive Refusal where
  /-- An instruction without a meaning; raised by exec's refused arms, of which there are none. Safe. -/
  | notModelled (mnemonic : String)
  /-- A configuration that breaks R7, which a model refuses rather than running it (R7, D46). Raised by every exec and step. Safe. -/
  | illFormedConfig
  /-- A state outside the legal values of 10_state.md or breaking R32, which a model refuses (R17, R24, 93 section 1). Raised by
  every exec (legal values) and step (legal values and R32). Safe. -/
  | illegalState
  /-- The sink offers a handle wider than the port sk_id (R134). Raised by the event `sinkFree`. Safe. -/
  | handleTooWide
deriving DecidableEq, Repr

/-- A store as its listed bytes (address, byte): addresses strictly rising, no byte equal to what an unlisted address
reads as (log 16). -/
abbrev Memory := List Host.Cell

/-- A frame store: character bytes and plane bytes, four to a plane word (R33, R45, R46). -/
structure Store where
  chr : Memory
  pl : Memory
deriving DecidableEq, Repr, Inhabited

/-- The four parameter registers of R20. -/
structure Params where
  p0 : Param
  p1 : Param
  p2 : Param
  p3 : Param
deriving DecidableEq, Repr, Inhabited

/-- The ANSI parse buffer (R20). -/
structure ParseBuf where
  params : Params
  pcount : Nat
  acc : Param
  dpend : Bool
deriving DecidableEq, Repr, Inhabited

/-- Every field of the parse buffer 0: its reset value and the effect of PBReset (R68). -/
def ParseBuf.empty : ParseBuf := { params := ⟨0, 0, 0, 0⟩, pcount := 0, acc := 0, dpend := false }

/-- A two-flop synchroniser (R114): `ff1` samples the crossing signal, `ff2` is what the receiving domain sees. -/
structure Sync2 where
  ff1 : Bool
  ff2 : Bool
deriving DecidableEq, Repr, Inhabited

/-- The handshake registers and their synchronisers (R28, R114). -/
structure Handshake where
  dcReq : Bool
  dcGnt : Bool
  dcSwap : Bool
  dcVis : Bool
  fcReq : Bool
  fcGnt : Bool
  /-- dc_req as the logic domain sees it. -/
  dcReqS : Sync2
  /-- dc_gnt as the render domain sees it. -/
  dcGntS : Sync2
  /-- fc_req as the render domain sees it. -/
  fcReqS : Sync2
  /-- fc_gnt as the logic domain sees it. -/
  fcGntS : Sync2
deriving DecidableEq, Repr, Inhabited

/-- All handshake registers 0: their value between steps and at reset (R28). -/
def Handshake.idle : Handshake :=
  { dcReq := false, dcGnt := false, dcSwap := false, dcVis := false, fcReq := false, fcGnt := false,
    dcReqS := ⟨false, false⟩, dcGntS := ⟨false, false⟩, fcReqS := ⟨false, false⟩, fcGntS := ⟨false, false⟩ }

/-- The input ring (R135). -/
structure Ring where
  buf : List Byte
  head : Nat
  tail : Nat
  count : Nat
  overflow : Bool
deriving DecidableEq, Repr, Inhabited

/-- The reset input and the synchronisers of R158. A flop is 1 when the domain it speaks of is out of reset. `heldL` and
`heldR` count the clock cycles for which rst has been held, up to 2, and `short` says that the last release came before two
cycles of each clock; these three are the model's own (log 12). -/
structure ResetUnit where
  rst : Bool
  relL : Sync2
  relR : Sync2
  peerL : Sync2
  peerR : Sync2
  heldL : Nat
  heldR : Nat
  short : Bool
deriving DecidableEq, Repr, Inhabited

/-- Both domains out of reset and each has seen the other so. -/
def ResetUnit.released : ResetUnit :=
  { rst := false, relL := ⟨true, true⟩, relR := ⟨true, true⟩, peerL := ⟨true, true⟩, peerR := ⟨true, true⟩, heldL := 0, heldR := 0
    short := false }

/-- Both domains in reset from now on: what rst does at once (R158). -/
def ResetUnit.asserted : ResetUnit :=
  { rst := true, relL := ⟨false, false⟩, relR := ⟨false, false⟩, peerL := ⟨false, false⟩, peerR := ⟨false, false⟩, heldL := 0, heldR := 0
    short := false }

/-- A sink buffer with its words in offset order (R132). -/
structure LineBuf where
  id : Nat
  words : List Word
deriving DecidableEq, Repr

/-- What can happen next: the host's actions on the ports of R134 and the agents' turns. The model takes the sequence as an
argument (93 section 1; log 3). -/
inductive Event where
  /-- A clk_l cycle with rx_valid = 1 and this rx_byte (R136). -/
  | push (b : Byte)
  /-- A clk_l cycle with tick = 1 (R141). -/
  | tickPulse
  /-- The logic agent's turn (R140). -/
  | logic
  /-- The logic agent's turn with a push in the same clk_l cycle as its pop (R139). -/
  | logicPush (b : Byte)
  /-- The render agent's turn (R133). -/
  | render
  /-- The sink offers a free buffer (R142). -/
  | sinkFree (id : Nat)
  /-- The reset input takes this value (R157). -/
  | rst (v : Bool)
  /-- A clk_l edge, as reset sequencing sees it (R158). -/
  | clkL
  /-- A clk_r edge, as reset sequencing sees it (R158). -/
  | clkR
deriving DecidableEq, Repr

/-- The whole state of the block. -/
structure State where
  /-- The configuration: an argument of the model, written by no step (R6, R31; log 1). -/
  cfg : Config
  curCol : Nat
  curRow : Nat
  curFg : Colour
  curBg : Colour
  escMode : Bool
  csiMode : Bool
  skipLf : Bool
  skipCr : Bool
  savedCol : Nat
  savedRow : Nat
  savedValid : Bool
  pb : ParseBuf
  style : CursorStyle
  curVisible : Bool
  blinkCnt : Nat
  drawn : Bool
  ovChar : Byte
  ovFg : Colour
  ovCol : Nat
  ovRow : Nat
  /-- `none` is NONE (R24). -/
  modal : Option MenuKind
  mdigN : Bool
  mdigV : BitVec 4
  swapReq : Bool
  /-- r.line (R26). -/
  line : Nat
  /-- r.blink_phase (R27). -/
  blinkPhase : Bool
  hs : Handshake
  back : Store
  front : Store
  snap : Memory
  ring : Ring
  /-- The pending-tick flag (R141). -/
  pendTick : Bool
  /-- Handles of the buffers the sink offers, oldest first: sk_free = 1 when there is one, sk_id is the first (R142). -/
  skFree : List Nat
  /-- The buffer taken and not yet submitted; inside a LINE step only (R142). -/
  owned : Option LineBuf
  /-- The buffers submitted since reset, newest first (R142). -/
  submitted : List LineBuf
  rsu : ResetUnit
  /-- The step-local flag of R29; 0 between steps (log 8). -/
  wrote : Bool
  /-- The byte the step's RING_POP answered; none between steps (log 8). -/
  popped : Option Byte
  /-- The events still to come (log 3). -/
  inputs : List Event
  /-- How many times free values have been drawn: the model's own counter, not a register of the block (log 26). -/
  freeDraws : Nat
deriving DecidableEq, Repr, Inhabited

/-- An empty ring of n slots (R135); the slots' contents are unspecified, here 0 (log 7). -/
def Ring.empty (n : Nat) : Ring := { buf := List.replicate n 0, head := 0, tail := 0, count := 0, overflow := false }

/-- The state right after reset under a configuration (R157, 10_state.md section 9). B and F list nothing: an unlisted
address reads as the blank screen of R44. SNAP is unspecified, here 0 (log 6). -/
def State.resetOf (cfg : Config) : State :=
  { cfg := cfg
    curCol := 0, curRow := 0, curFg := cfg.defaultFg, curBg := cfg.defaultBg
    escMode := false, csiMode := false, skipLf := false, skipCr := false
    savedCol := 0, savedRow := 0, savedValid := false
    pb := ParseBuf.empty
    style := cfg.defaultStyle, curVisible := false, blinkCnt := 0
    drawn := false, ovChar := 0, ovFg := 0, ovCol := 0, ovRow := 0
    modal := none, mdigN := false, mdigV := 0
    swapReq := false, line := 0, blinkPhase := false, hs := Handshake.idle
    back := ⟨[], []⟩, front := ⟨[], []⟩, snap := []
    ring := Ring.empty cfg.ringN, pendTick := false
    skFree := [], owned := none, submitted := []
    rsu := ResetUnit.released
    wrote := false, popped := none, inputs := [], freeDraws := 0 }

/-- The machine right after reset, under the configuration of log 2. -/
def State.reset : State := State.resetOf Config.default

end Sys2Proof.Machine
end

