-- ==== Sys2Proof/Machine/Memory.lean ====
section
/-! DEFINITION. The stores as canonical sparse byte lists: reading, writing, what an unlisted address reads as, and the bit
fields of a plane word (20_memory.md). -/

namespace Sys2Proof.Machine

/-- `n` iterations in ascending index order (R13). -/
def loop {α : Type} (n : Nat) (f : Nat → α → α) (x : α) : α :=
  match n with
  | 0 => x
  | k + 1 => f k (loop k f x)

/-- The byte at an address; `d` says what an unlisted address reads as. -/
def Memory.get (d : Nat → Byte) (m : Memory) (a : Nat) : Byte :=
  match m with
  | [] => d a
  | (k, v) :: m => if a = k then v else Memory.get d m a

/-- Writing one byte, keeping the canonical form: a byte equal to what the unlisted address reads as is not listed. -/
def Memory.set (d : Nat → Byte) (m : Memory) (a : Nat) (v : Byte) : Memory :=
  match m with
  | [] => if v = d a then [] else [(a, v)]
  | (k, w) :: m =>
    if a < k then (if v = d a then (k, w) :: m else (a, v) :: (k, w) :: m)
    else if a = k then (if v = d a then m else (a, v) :: m)
    else (k, w) :: Memory.set d m a v

/-- The canonical form from address `lo` on: addresses strictly rising, below `size`, no default byte listed. -/
def Memory.wfFrom (d : Nat → Byte) (size lo : Nat) : Memory → Bool
  | [] => true
  | (k, v) :: m => decide (lo ≤ k) && decide (k < size) && decide (v ≠ d k) && Memory.wfFrom d size (k + 1) m

/-- The canonical form of a store of `size` bytes. -/
def Memory.wf (d : Nat → Byte) (size : Nat) (m : Memory) : Bool := Memory.wfFrom d size 0 m

/-- The 32-bit word at `a`: byte j is bits 8j+7..8j (R46). -/
def Memory.getWord (d : Nat → Byte) (m : Memory) (a : Nat) : Word :=
  Memory.get d m (a + 3) ++ Memory.get d m (a + 2) ++ Memory.get d m (a + 1) ++ Memory.get d m a

/-- Writing the 32-bit word at `a` (R46). -/
def Memory.setWord (d : Nat → Byte) (m : Memory) (a : Nat) (v : Word) : Memory :=
  loop 4 (fun j m => Memory.set d m (a + j) (v.extractLsb' (8 * j) 8)) m

/-- The bits [lo+len-1 : lo] of a word replaced by v, the others unchanged (R38, R39). -/
def setField (w : Word) (lo len : Nat) (v : BitVec len) : Word :=
  (w &&& ~~~((BitVec.allOnes len).setWidth 32 <<< lo)) ||| (v.setWidth 32 <<< lo)

/-- The 2 bits of channel p of a colour (R35). -/
def chan (v : Colour) (p : Nat) : Level := v.extractLsb' (2 * p) 2

/-- The colour nibble of a cell in plane p: background bits above foreground bits (R36). -/
def colourNib (fg bg : Colour) (p : Nat) : Nibble := chan bg p ++ chan fg p

/-- CHR[r][c] is at r*COLS + c (R45). -/
def chrAddr (cfg : Config) (r c : Nat) : Nat := r * cfg.cols + c

/-- PL[p][r][w] is at 4*((p*ROWS + r)*WPR + w) (R45). -/
def plAddr (cfg : Config) (p r w : Nat) : Nat := 4 * ((p * cfg.rows + r) * cfg.wpr + w)

/-- The largest area of a menu rectangle: SNAP's capacity in cells (R43). -/
def snapCells (cfg : Config) : Nat :=
  max (max (cfg.menus.fgPick.w * cfg.menus.fgPick.h) (cfg.menus.bgPick.w * cfg.menus.bgPick.h))
    (max (cfg.menus.style.w * cfg.menus.style.h) (cfg.menus.theme.w * cfg.menus.theme.h))

/-- The size of each store in bytes (R45). -/
def Space.size (cfg : Config) : Space → Nat
  | .backChr | .frontChr => cfg.rows * cfg.cols
  | .backPl | .frontPl => 12 * cfg.rows * cfg.wpr
  | .snap => 3 * snapCells cfg
  | .font => 256 * cfg.glyphH
  | .lut => 2048

/-- What an unlisted address reads as. Frame stores: the reset contents of R44, BLANK_CHAR and the nibble of the default
colours in every slot of the plane's words. SNAP: 0 (log 6). The font and the palette ROM are configuration, not memory. -/
def unlisted (cfg : Config) : Space → Nat → Byte
  | .backChr, _ | .frontChr, _ => cfg.blankChar
  | .backPl, a | .frontPl, a =>
    colourNib cfg.defaultFg cfg.defaultBg (a / (4 * cfg.rows * cfg.wpr)) ++ colourNib cfg.defaultFg cfg.defaultBg (a / (4 * cfg.rows * cfg.wpr))
  | .snap, _ => 0
  | .font, _ => 0
  | .lut, _ => 0

/-- S.CHR[r][c] of a frame store. -/
def Store.chrAt (cfg : Config) (st : Store) (r c : Nat) : Byte := Memory.get (unlisted cfg .backChr) st.chr (chrAddr cfg r c)

/-- S.PL[p][r][w] of a frame store. -/
def Store.plAt (cfg : Config) (st : Store) (p r w : Nat) : Word := Memory.getWord (unlisted cfg .backPl) st.pl (plAddr cfg p r w)

/-- `S.CHR[r][c] <- ch`. -/
def Store.setChr (cfg : Config) (st : Store) (r c : Nat) (ch : Byte) : Store :=
  { st with chr := Memory.set (unlisted cfg .backChr) st.chr (chrAddr cfg r c) ch }

/-- `S.PL[p][r][w] <- v`. -/
def Store.setPl (cfg : Config) (st : Store) (p r w : Nat) (v : Word) : Store :=
  { st with pl := Memory.setWord (unlisted cfg .backPl) st.pl (plAddr cfg p r w) v }

/-- nib(S, p, r, c): the colour nibble of a cell in plane p (R36). -/
def Store.nib (cfg : Config) (st : Store) (p r c : Nat) : Nibble := (Store.plAt cfg st p r (c / 8)).extractLsb' (4 * (c % 8)) 4

/-- fg_of(S, r, c) (R37). -/
def Store.fgOf (cfg : Config) (st : Store) (r c : Nat) : Colour :=
  (Store.nib cfg st 2 r c).extractLsb' 0 2 ++ (Store.nib cfg st 1 r c).extractLsb' 0 2 ++ (Store.nib cfg st 0 r c).extractLsb' 0 2

/-- bg_of(S, r, c) (R37). -/
def Store.bgOf (cfg : Config) (st : Store) (r c : Nat) : Colour :=
  (Store.nib cfg st 2 r c).extractLsb' 2 2 ++ (Store.nib cfg st 1 r c).extractLsb' 2 2 ++ (Store.nib cfg st 0 r c).extractLsb' 2 2

/-- A cell of a frame store: its character and its two colours. -/
def Store.cell (cfg : Config) (st : Store) (r c : Nat) : GridCell :=
  { ch := Store.chrAt cfg st r c, fg := Store.fgOf cfg st r c, bg := Store.bgOf cfg st r c }

/-- Both of a store's memories in canonical form. -/
def Store.wf (cfg : Config) (st : Store) : Bool :=
  Memory.wf (unlisted cfg .backChr) (Space.size cfg .backChr) st.chr && Memory.wf (unlisted cfg .backPl) (Space.size cfg .backPl) st.pl

/-- set_cell on a frame store (R38): each plane word read, its one nibble replaced, written back. -/
def Store.setCell (cfg : Config) (st : Store) (r c : Nat) (ch : Byte) (fg bg : Colour) : Store :=
  loop 3 (fun p st => Store.setPl cfg st p r (c / 8) (setField (Store.plAt cfg st p r (c / 8)) (4 * (c % 8)) 4 (colourNib fg bg p)))
    (Store.setChr cfg st r c ch)

/-- set_fg on a frame store (R39): the character and the foreground bits only. -/
def Store.setFg (cfg : Config) (st : Store) (r c : Nat) (ch : Byte) (fg : Colour) : Store :=
  loop 3 (fun p st => Store.setPl cfg st p r (c / 8) (setField (Store.plAt cfg st p r (c / 8)) (4 * (c % 8)) 2 (chan fg p)))
    (Store.setChr cfg st r c ch)

/-- SNAP[j], three bytes at j*3: character, foreground, background (R43, R45). -/
def snapAt (cfg : Config) (m : Memory) (j : Nat) : GridCell :=
  { ch := Memory.get (unlisted cfg .snap) m (3 * j)
    fg := (Memory.get (unlisted cfg .snap) m (3 * j + 1)).setWidth 6
    bg := (Memory.get (unlisted cfg .snap) m (3 * j + 2)).setWidth 6 }

/-- `SNAP[j] <- (ch, fg, bg)` (R94). -/
def setSnap (cfg : Config) (m : Memory) (j : Nat) (x : GridCell) : Memory :=
  Memory.set (unlisted cfg .snap)
    (Memory.set (unlisted cfg .snap) (Memory.set (unlisted cfg .snap) m (3 * j) x.ch) (3 * j + 1) (x.fg.setWidth 8))
    (3 * j + 2) (x.bg.setWidth 8)

end Sys2Proof.Machine
end

