-- ==== Sys2Proof/Machine/Operands.lean ====
section
/-! DEFINITION. Operands: clamping and saturation (R9), the parse buffer as CSI operands (R20, R62, R75, R76), digit values. -/

namespace Sys2Proof.Machine

/-- clamp(v, lo, hi) on unbounded integers, as a register index (R9). -/
def clamp (v lo hi : Int) : Nat := (min (max v lo) hi).toNat

/-- sat16(v) = min(v, 65535) (R9). -/
def sat16 (v : Nat) : Param := BitVec.ofNat 16 (min v 65535)

/-- params[i] for i in 0..3; no rule reads past 3. -/
def Params.get (ps : Params) (i : Nat) : Param :=
  match i with
  | 0 => ps.p0
  | 1 => ps.p1
  | 2 => ps.p2
  | _ => ps.p3

/-- `params[i] <- v` for i in 0..3; no rule writes past 3. -/
def Params.set (ps : Params) (i : Nat) (v : Param) : Params :=
  match i with
  | 0 => { ps with p0 := v }
  | 1 => { ps with p1 := v }
  | 2 => { ps with p2 := v }
  | _ => { ps with p3 := v }

/-- A digit typed in CSI mode: `acc <- sat16(acc*10 + d)`, dpend set (R62, R75). -/
def ParseBuf.digit (pb : ParseBuf) (d : BitVec 4) : ParseBuf :=
  { pb with acc := sat16 (pb.acc.toNat * 10 + d.toNat), dpend := true }

/-- Finalize (R76): the parameter is kept if fewer than four are, dropped otherwise. -/
def ParseBuf.finalize (pb : ParseBuf) : ParseBuf :=
  if pb.pcount < 4 then { params := pb.params.set pb.pcount pb.acc, pcount := pb.pcount + 1, acc := 0, dpend := false }
  else { pb with acc := 0, dpend := false }

/-- The parse buffer a final byte dispatches on: the last parameter finalised if digits are pending (R78). -/
def ParseBuf.final (pb : ParseBuf) : ParseBuf := if pb.dpend then pb.finalize else pb

/-- arg(i, d): parameter i if present, else the default (file 41). -/
def ParseBuf.arg (pb : ParseBuf) (i d : Nat) : Nat := if pb.pcount > i then (pb.params.get i).toNat else d

/-- The style a digit selects: d < NUM_STYLES = 6, in R21's numbering (R103). -/
def CursorStyle.ofDigit (d : BitVec 4) : Option CursorStyle :=
  match d.toNat with
  | 0 => some .block
  | 1 => some .underline
  | 2 => some .bar
  | 3 => some .custom
  | 4 => some .shaded
  | 5 => some .arrow
  | _ => none

/-- The theme a digit selects: d < NUM_THEMES (R104). -/
def themeOf (cfg : Config) (d : BitVec 4) : Option (Colour × Colour) := cfg.themes[d.toNat]?

/-- ANSI_PAL[i], i in 0..7 (R86). -/
def ansiColour (cfg : Config) (i : Nat) : Colour := cfg.ansiPal.get (BitVec.ofNat 3 i).toFin

/-- glyph(style) = CURSOR_GLYPH[style] (R116). -/
def glyphOf (cfg : Config) : CursorStyle → Byte
  | .block => cfg.cursorGlyph.block
  | .underline => cfg.cursorGlyph.underline
  | .bar => cfg.cursorGlyph.bar
  | .custom => cfg.cursorGlyph.custom
  | .shaded => cfg.cursorGlyph.shaded
  | .arrow => cfg.cursorGlyph.arrow

end Sys2Proof.Machine
end

