-- ==== Sys2Proof/Machine/Flags.lean ====
section
/-! DEFINITION. The 1-bit flags: the decoding mode they select (R17, R24, R60), the skip flags (R18, R69 to R71), the parser
modes' entry and exit (R72 to R74, R78). -/

namespace Sys2Proof.Machine

/-- The mode that decodes the next byte (R60, R64). The pair (1,1), which R60 reads as ESC, is refused before any decoding. -/
def State.mode (s : State) : Mode :=
  match s.modal with
  | some k => .menu k
  | none => if s.escMode then .esc else if s.csiMode then .csi else .normal

/-- Both skip flags cleared (R69). -/
def clearSkips (s : State) : State := { s with skipCr := false, skipLf := false }

/-- A byte whose class is neither CR nor LF clears both skip flags (R69). -/
def skipRule (i : Instr) (s : State) : State :=
  match i with
  | .cr | .lf => s
  | _ => clearSkips s

/-- After a CR that broke the line, a following LF is the second half of its pair (R70). -/
def expectLf (s : State) : State := { s with skipLf := true, skipCr := false }

/-- After an LF that broke the line, a following CR is the second half of its pair (R71). -/
def expectCr (s : State) : State := { s with skipCr := true, skipLf := false }

/-- PBReset (R68). -/
def pbReset (s : State) : State := { s with pb := ParseBuf.empty }

/-- NORMAL, ESC or CSI mode by its two flags (R17). -/
def setModes (esc csi : Bool) (s : State) : State := { s with escMode := esc, csiMode := csi }

end Sys2Proof.Machine
end

