-- ==== Sys2Proof/Machine/Legal.lean ====
section
/-! DEFINITION. What a model refuses before running: an ill-formed configuration (R7) and a state outside the legal values or
breaking an invariant of R32 (93 section 1). -/

namespace Sys2Proof.Machine

/-- A menu's rectangle lies inside the grid and its image has a cell for each of its own. -/
def menuWf (cfg : Config) (m : Menu) : Bool :=
  decide (m.x0 + m.w ≤ cfg.cols) && decide (m.y0 + m.h ≤ cfg.rows) && decide (m.image.length = m.w * m.h)

/-- R7: a well-formed configuration. Colours and symbols are in range by type. A font byte outside `256*GLYPH_H` or an
attribute outside the grid lists a cell the block does not have. -/
def configWf (cfg : Config) : Bool :=
  decide (8 ≤ cfg.cols) && (decide (cfg.cols % 8 = 0) && decide (1 ≤ cfg.rows) && decide (1 ≤ cfg.glyphH) && decide (1 ≤ cfg.frameLines)
  && decide (List.Pairwise (· ≠ ·) [Ascii.cr, Ascii.lf, Ascii.esc, cfg.mbFg, cfg.mbBg, cfg.mbStyle, cfg.mbTheme])
  && !cfg.isBs Ascii.cr && !cfg.isBs Ascii.lf && !cfg.isBs Ascii.esc
  && !cfg.isBs cfg.mbFg && !cfg.isBs cfg.mbBg && !cfg.isBs cfg.mbStyle && !cfg.isBs cfg.mbTheme
  && menuWf cfg cfg.menus.fgPick && menuWf cfg cfg.menus.bgPick && menuWf cfg cfg.menus.style && menuWf cfg cfg.menus.theme
  && decide (1 ≤ cfg.blinkTicks) && decide (1 ≤ cfg.ringN) && decide (cfg.themes.length ≤ 10)
  && cfg.font.all (fun x => decide (x.addr < 256 * cfg.glyphH)) && cfg.attr.all (fun x => decide (x.row < cfg.rows) && decide (x.col < cfg.cols)))

/-- The legal values of the ring's registers (R135). -/
def Ring.inRange (n : Nat) (q : Ring) : Bool :=
  decide (q.buf.length = n) && decide (q.head < n) && decide (q.tail < n) && decide (q.count ≤ n)

/-- Every register at a legal value of 10_state.md, the handshake registers 0 (R28) and no sink buffer held (93 section 1). -/
def State.inRange (s : State) : Bool :=
  decide (s.curCol < s.cfg.cols) && decide (s.curRow < s.cfg.rows) && !(s.escMode && s.csiMode)
  && decide (s.savedCol < s.cfg.cols) && decide (s.savedRow < s.cfg.rows)
  && decide (s.pb.pcount ≤ 4) && decide (s.blinkCnt < s.cfg.blinkTicks)
  && decide (s.ovCol < s.cfg.cols) && decide (s.ovRow < s.cfg.rows) && decide (s.mdigV.toNat ≤ 9)
  && decide (s.line < s.cfg.frameLines) && decide (s.hs = Handshake.idle) && s.ring.inRange s.cfg.ringN && s.owned.isNone

/-- R32 (2) to (8) and (10); (1) and (9) are legal values. The first conjunct is (2). -/
def State.invariants (s : State) : Bool :=
  !(s.escMode && s.csiMode)
  && (s.csiMode || (decide (s.pb.pcount = 0) && decide (s.pb.acc = 0) && !s.pb.dpend))
  && (s.pb.dpend || decide (s.pb.acc = 0))
  && !(s.skipCr && s.skipLf)
  && (s.modal.isNone || (!s.escMode && !s.csiMode && !s.drawn))
  && (s.drawn == (s.curVisible && s.modal.isNone))
  && (!s.drawn || (decide (s.ovCol = s.curCol) && decide (s.ovRow = s.curRow)
      && decide (Store.chrAt s.cfg s.back s.curRow s.curCol = glyphOf s.cfg s.style)
      && decide (Store.fgOf s.cfg s.back s.curRow s.curCol = s.curFg)))
  && (decide (s.modal = some .fgPick) || decide (s.modal = some .bgPick) || !s.mdigN)

/-- What an instruction needs of the state it runs in: a well-formed configuration and registers at legal values. -/
def State.runnable (s : State) : Bool := configWf s.cfg && s.inRange

/-- What a step needs of the state it starts from: `runnable` and R32, which holds between any two steps. -/
def State.legal (s : State) : Bool := s.runnable && s.invariants

/-- The meaning `f` of an instruction, run in a runnable state and refused in any other (93 section 1). -/
def run (f : State → State) (s : State) : Host.Outcome State Fault Refusal :=
  if configWf s.cfg then (if s.inRange then .next (f s) else .refused .illegalState) else .refused .illFormedConfig

/-- One outcome after another: a fault or a refusal ends the step. -/
def andThen (o : Host.Outcome State Fault Refusal) (k : State → Host.Outcome State Fault Refusal) : Host.Outcome State Fault Refusal :=
  match o with
  | .next s => k s
  | .fault r => .fault r
  | .refused r => .refused r

end Sys2Proof.Machine
end

