-- ==== Sys2Proof/Machine/Ops.lean ====
section
/-! DEFINITION. The named operations over the back store and the cursor: cell writes (R38 to R40), line break and scroll
(R92, R93). The block has no exception to take or to return from (R145, R149). -/

namespace Sys2Proof.Machine

/-- A write to the back store, which sets the step-local flag (R29). -/
def State.putBack (s : State) (st : Store) : State := { s with back := st, wrote := true }

/-- The cursor moved. -/
def State.setCursor (s : State) (col row : Nat) : State := { s with curCol := col, curRow := row }

/-- set_cell(r, c, ch, fg, bg) on B (R38). -/
def setCell (r c : Nat) (ch : Byte) (fg bg : Colour) (s : State) : State := s.putBack (Store.setCell s.cfg s.back r c ch fg bg)

/-- set_fg(r, c, ch, fg) on B (R39). -/
def setFg (r c : Nat) (ch : Byte) (fg : Colour) (s : State) : State := s.putBack (Store.setFg s.cfg s.back r c ch fg)

/-- blank_cell(r, c, cur_fg, cur_bg) (R40): every blanking of a rule is in the current colours. -/
def blankCell (r c : Nat) (s : State) : State := setCell r c s.cfg.blankChar s.curFg s.curBg s

/-- The cells c0 .. c0+n-1 of a row blanked in ascending order. -/
def blankSpan (r c0 n : Nat) (s : State) : State := loop n (fun k s => blankCell r (c0 + k) s) s

/-- Every row but the last takes the old row below it whole, characters and plane words (R93). -/
def Store.shiftUp (cfg : Config) (st : Store) : Store :=
  loop (cfg.rows - 1)
    (fun r t => loop 3 (fun p t => loop cfg.wpr (fun w t => Store.setPl cfg t p r w (Store.plAt cfg st p (r + 1) w)) t)
      (loop cfg.cols (fun c t => Store.setChr cfg t r c (Store.chrAt cfg st (r + 1) c)) t)) st

/-- Scroll (R93). -/
def scroll (s : State) : State :=
  { blankSpan (s.cfg.rows - 1) 0 s.cfg.cols { s with back := Store.shiftUp s.cfg s.back } with wrote := true }

/-- LineBreak (R92). -/
def lineBreak (s : State) : State :=
  if s.curRow = s.cfg.rows - 1 then scroll { s with curCol := 0 } else { s with curCol := 0, curRow := s.curRow + 1 }

end Sys2Proof.Machine
end

