-- ==== Sys2Proof/Machine/Swap.lean ====
section
/-! DEFINITION. The swap copy, its two policies, and the handshakes that realise the lock (44_frame_store_swap.md). -/

namespace Sys2Proof.Machine

/-- Copy() (R106): every character and every plane word of B to F. -/
def copyStore (s : State) : State := { s with front := s.back }

/-- ForcedSwap's effect (R110). -/
def forcedSwap (s : State) : State := { copyStore s with swapReq := false }

/-- FORCED_COPY (R110). -/
def execForcedCopy (s : State) : Host.Outcome State Fault Refusal := run forcedSwap s

/-- DeferredSwap's effect (R111). -/
def deferredSwap (s : State) : State := if s.swapReq then { copyStore s with swapReq := false } else s

/-- DEFERRED_COPY (R111). -/
def execDeferredCopy (s : State) : Host.Outcome State Fault Refusal := run deferredSwap s

/-- One edge of the receiving clock: the first flop samples the signal, the second the first (R114). -/
def Sync2.clock (d : Bool) (x : Sync2) : Sync2 := ⟨d, x.ff1⟩

/-- The two edges after which the receiving domain sees a stable signal. -/
def Sync2.settle (d : Bool) (x : Sync2) : Sync2 := (x.clock d).clock d

/-- The handshake registers changed. -/
def State.withHs (s : State) (h : Handshake) : State := { s with hs := h }

/-- render: `dc_req <- 1` (R114). -/
def dcRequest (s : State) : State := s.withHs { s.hs with dcReq := true }

/-- dc_req crosses into clk_l. -/
def dcReqCross (s : State) : State := s.withHs { s.hs with dcReqS := s.hs.dcReqS.settle s.hs.dcReq }

/-- logic, between steps, seeing dc_req: latch what the render agent needs, clear the request, grant (R114). -/
def dcGrant (s : State) : State :=
  if s.hs.dcReqS.ff2 then
    { s with swapReq := false, hs := { s.hs with dcSwap := s.swapReq, dcVis := s.curVisible, dcGnt := true } }
  else s

/-- dc_gnt crosses into clk_r. -/
def dcGntCross (s : State) : State := s.withHs { s.hs with dcGntS := s.hs.dcGntS.settle s.hs.dcGnt }

/-- render, seeing dc_gnt: copy if dc_swap, take the blink phase, drop the request (R114). -/
def dcServe (s : State) : State :=
  if s.hs.dcGntS.ff2 then
    let t := if s.hs.dcSwap then copyStore s else s
    { t with blinkPhase := s.hs.dcVis, hs := { s.hs with dcReq := false } }
  else s

/-- logic, seeing dc_req = 0: drop the grant; its data registers return to 0 (R28). -/
def dcRelease (s : State) : State :=
  if s.hs.dcReqS.ff2 then s else s.withHs { s.hs with dcGnt := false, dcSwap := false, dcVis := false }

/-- The deferred-copy handshake from request to release (R114), run inside the LINE step of line 0 (log 11): DeferredSwap and
the sampling of the blink phase under one lock (R113 (b)). -/
def deferredHandshake (s : State) : State :=
  dcGntCross (dcRelease (dcReqCross (dcServe (dcGntCross (dcGrant (dcReqCross (dcRequest s)))))))

/-- logic: `fc_req <- 1` (R114). -/
def fcRequest (s : State) : State := s.withHs { s.hs with fcReq := true }

/-- fc_req crosses into clk_r. -/
def fcReqCross (s : State) : State := s.withHs { s.hs with fcReqS := s.hs.fcReqS.settle s.hs.fcReq }

/-- render, between LINE steps, seeing fc_req: grant (R114). -/
def fcGrant (s : State) : State := if s.hs.fcReqS.ff2 then s.withHs { s.hs with fcGnt := true } else s

/-- fc_gnt crosses into clk_l. -/
def fcGntCross (s : State) : State := s.withHs { s.hs with fcGntS := s.hs.fcGntS.settle s.hs.fcGnt }

/-- logic, seeing fc_gnt: copy, clear the request flag, drop the request (R114). -/
def fcServe (s : State) : State :=
  if s.hs.fcGntS.ff2 then { forcedSwap s with hs := { s.hs with fcReq := false } } else s

/-- render, seeing fc_req = 0: drop the grant (R114). -/
def fcRelease (s : State) : State := if s.hs.fcReqS.ff2 then s else s.withHs { s.hs with fcGnt := false }

/-- The forced-copy handshake from request to release (R114), run at the end of a logic step (log 11). -/
def forcedHandshake (s : State) : State :=
  fcGntCross (fcRelease (fcReqCross (fcServe (fcGntCross (fcGrant (fcReqCross (fcRequest s)))))))

/-- SwapAfterEdit (R109), with its guard `if wrote`. -/
def swapAfterEdit (policy : SwapPolicy) (s : State) : State :=
  if s.wrote then
    match policy with
    | .deferred => { s with swapReq := true }
    | .forced => forcedHandshake s
  else s

end Sys2Proof.Machine
end

