-- ==== Sys2Proof/Machine/Encoder.lean ====
section
/-! DEFINITION. The scanline encoder, the palette ROM and the LINE step (46_scanline_encoder.md, R122 to R133; the sink of
R142). -/

namespace Sys2Proof.Machine

/-- lvl(cn, x): the level of a pixel bit (R123). -/
def lvl (cn : Nibble) (x : Bool) : Level := if x then cn.extractLsb' 0 2 else cn.extractLsb' 2 2

/-- TMDS_SYM(l, q), q the pixel parity (R124). -/
def tmdsSym (cfg : Config) (l : Level) (q : Bool) : Symbol := if q then cfg.tmdsOdd.get l.toFin else cfg.tmdsEven.get l.toFin

/-- word(l0, l1): the left pixel in bits 9..0, the right in 19..10 (R124). -/
def outWord (cfg : Config) (l0 l1 : Level) : Word := 0#12 ++ tmdsSym cfg l1 true ++ tmdsSym cfg l0 false

/-- LUT[cn][fn][k], k in {0,1}: the palette ROM's contents (R125). -/
def lutWord (cfg : Config) (cn fn : Nibble) (k : Nat) : Word :=
  outWord cfg (lvl cn (fn.getLsbD (2 * k))) (lvl cn (fn.getLsbD (2 * k + 1)))

/-- FONT(ch, gr) (R41), by linear address (R45). -/
def fontAt (cfg : Config) (ch : Byte) (gr : Nat) : Byte :=
  match cfg.font.find? (fun x => x.addr == ch.toNat * cfg.glyphH + gr) with
  | some x => x.pattern
  | none => 0

/-- ATTR(row, col) = (ul, bk) (R126). -/
def attrAt (cfg : Config) (row col : Nat) : Bool × Bool :=
  match cfg.attr.find? (fun x => x.row == row && x.col == col) with
  | some x => (x.ul, x.bk)
  | none => (false, false)

/-- pattern(ch, gr, ul, bk, phase): underline first, blink second (R127). -/
def glyphPattern (cfg : Config) (ch : Byte) (gr : Nat) (ul bk phase : Bool) : Byte :=
  let fb := fontAt cfg ch gr
  let fb := if ul && decide (gr = cfg.glyphH - 1) then 0xFF else fb
  if bk && !phase then 0x00 else fb

/-- The four output words of a colour nibble and a glyph row: the low font nibble's two, then the high one's (R128). -/
def cellWords (cfg : Config) (cn : Nibble) (fb : Byte) : List Word :=
  [lutWord cfg cn (fb.extractLsb' 0 4) 0, lutWord cfg cn (fb.extractLsb' 0 4) 1,
   lutWord cfg cn (fb.extractLsb' 4 4) 0, lutWord cfg cn (fb.extractLsb' 4 4) 1]

/-- EncodeCell (R128). -/
def encodeCell (cfg : Config) (f : Store) (p row gr c : Nat) (phase : Bool) : List Word :=
  cellWords cfg (Store.nib cfg f p row c)
    (glyphPattern cfg (Store.chrAt cfg f row c) gr (attrAt cfg row c).1 (attrAt cfg row c).2 phase)

/-- EncodeGroup: cells 8g .. 8g+7, left to right (R129). -/
def encodeGroup (cfg : Config) (f : Store) (p row gr g : Nat) (phase : Bool) : List Word :=
  (List.range 8).flatMap fun i => encodeCell cfg f p row gr (8 * g + i) phase

/-- EncodePlane: every group of the row (R130). -/
def encodePlane (cfg : Config) (f : Store) (p row gr : Nat) (phase : Bool) : List Word :=
  (List.range cfg.wpr).flatMap fun g => encodeGroup cfg f p row gr g phase

/-- The three lanes of a sink buffer in offset order (R132). -/
def encodeLine (cfg : Config) (f : Store) (row gr : Nat) (phase : Bool) : List Word :=
  encodePlane cfg f 0 row gr phase ++ encodePlane cfg f 1 row gr phase ++ encodePlane cfg f 2 row gr phase

/-- The character row a scanline shows, clamped to the last row (R133). -/
def lineRow (cfg : Config) (line : Nat) : Nat := min (line / cfg.glyphH) (cfg.rows - 1)

/-- The glyph row of a scanline (R133). -/
def lineGlyphRow (cfg : Config) (line : Nat) : Nat := line % cfg.glyphH

/-- SinkTake (R142): the block owns the offered buffer from then on. -/
def sinkTake (id : Nat) (rest : List Nat) (s : State) : State := { s with skFree := rest, owned := some ⟨id, []⟩ }

/-- `buf.lane[p] <- words` for the three lanes (R132, R142). -/
def sinkFill (ws : List Word) (s : State) : State := { s with owned := s.owned.map fun b => { b with words := ws } }

/-- SinkSubmit (R142): ownership returns to the sink. -/
def sinkSubmit (s : State) : State :=
  match s.owned with
  | some b => { s with owned := none, submitted := b :: s.submitted }
  | none => s

/-- LineStep once its buffer is taken (R133): at line 0 the deferred swap and the phase sample, then the scanline encoded
from F, submitted, and the line counter advanced. -/
def lineBody (s : State) : State :=
  let t := if s.line = 0 then deferredHandshake s else s
  let u := sinkSubmit (sinkFill (encodeLine t.cfg t.front (lineRow t.cfg t.line) (lineGlyphRow t.cfg t.line) t.blinkPhase) t)
  { u with line := (t.line + 1) % t.cfg.frameLines }

/-- LineStep (R133). With no free buffer the step does not start: it waits, holding no lock (R113, R142). -/
def lineRule (s : State) : State :=
  match s.skFree with
  | [] => s
  | id :: rest => lineBody (sinkTake id rest s)

/-- LINE (R133). -/
def execLine (s : State) : Host.Outcome State Fault Refusal := run lineRule s

end Sys2Proof.Machine
end

