-- ==== Sys2Proof/Machine/Access.lean ====
section
/-! DEFINITION. The linear-address accesses MemRead and MemWrite over every store (R10, R45 to R48). -/

namespace Sys2Proof.Machine

/-- The width in bytes of a store's elements: one whole element per access (R45, R46). -/
def Space.width : Space → Nat
  | .backPl | .frontPl | .lut => 4
  | .backChr | .frontChr | .snap | .font => 1

/-- R45's map has an element of `n` bytes at `a`: the store's element width, aligned to it, inside the store. -/
def Space.has (cfg : Config) (sp : Space) (a n : Nat) : Bool :=
  decide (n = sp.width) && decide (a % sp.width = 0) && decide (a < sp.size cfg)

/-- The element at an address of R45's map, zero-extended to 32 bits. -/
def peek (s : State) (sp : Space) (a : Nat) : Word :=
  match sp with
  | .backChr => (Memory.get (unlisted s.cfg .backChr) s.back.chr a).setWidth 32
  | .backPl => Memory.getWord (unlisted s.cfg .backPl) s.back.pl a
  | .frontChr => (Memory.get (unlisted s.cfg .frontChr) s.front.chr a).setWidth 32
  | .frontPl => Memory.getWord (unlisted s.cfg .frontPl) s.front.pl a
  | .snap => (Memory.get (unlisted s.cfg .snap) s.snap a).setWidth 32
  | .font => (fontAt s.cfg (BitVec.ofNat 8 (a / s.cfg.glyphH)) (a % s.cfg.glyphH)).setWidth 32
  | .lut => lutWord s.cfg (BitVec.ofNat 4 (a / 8 / 16)) (BitVec.ofNat 4 (a / 8 % 16)) (a / 4 % 2)

/-- MemRead(S, a, n) (R10, R45). -/
def memRead (s : State) (sp : Space) (a n : Nat) : Except Fault Word :=
  if sp.has s.cfg a n then .ok (peek s sp a) else .error (.noSuchAddress sp a)

/-- MemWrite(S, a, n, v) (R10, R45). A write to B sets the step-local flag (R29). -/
def memWrite (s : State) (sp : Space) (a n : Nat) (v : Word) : Except Fault State :=
  if sp.has s.cfg a n then
    match sp with
    | .backChr => .ok (s.putBack { s.back with chr := Memory.set (unlisted s.cfg .backChr) s.back.chr a (v.setWidth 8) })
    | .backPl => .ok (s.putBack { s.back with pl := Memory.setWord (unlisted s.cfg .backPl) s.back.pl a v })
    | .frontChr => .ok { s with front := { s.front with chr := Memory.set (unlisted s.cfg .frontChr) s.front.chr a (v.setWidth 8) } }
    | .frontPl => .ok { s with front := { s.front with pl := Memory.setWord (unlisted s.cfg .frontPl) s.front.pl a v } }
    | .snap => .ok { s with snap := Memory.set (unlisted s.cfg .snap) s.snap a (v.setWidth 8) }
    | .font => .error (.readOnlyStore .font)
    | .lut => .error (.readOnlyStore .lut)
  else .error (.noSuchAddress sp a)

end Sys2Proof.Machine
end

