-- ==== Sys2Proof/Machine/Parser.lean ====
section
/-! DEFINITION. CR, LF, the escape bytes and CSI accumulation (40_parser_dispatch.md, R70 to R77). -/

namespace Sys2Proof.Machine

/-- R70. -/
def crRule (s : State) : State := if s.skipCr then clearSkips s else expectLf (lineBreak s)

/-- CR (R70). -/
def execCr (s : State) : Host.Outcome State Fault Refusal := run crRule s

/-- R71. -/
def lfRule (s : State) : State := if s.skipLf then clearSkips s else expectCr (lineBreak s)

/-- LF (R71). -/
def execLf (s : State) : Host.Outcome State Fault Refusal := run lfRule s

/-- R72. -/
def escEntryRule (s : State) : State := pbReset (setModes true false s)

/-- ESC_ENTRY (R72). -/
def execEscEntry (s : State) : Host.Outcome State Fault Refusal := run escEntryRule s

/-- R73. -/
def escCsiRule (s : State) : State := pbReset (setModes false true s)

/-- ESC_CSI (R73). -/
def execEscCsi (s : State) : Host.Outcome State Fault Refusal := run escCsiRule s

/-- R74: the byte is discarded and nothing else changes. -/
def escAbortRule (s : State) : State := { s with escMode := false }

/-- ESC_ABORT (R74). -/
def execEscAbort (_x : Byte) (s : State) : Host.Outcome State Fault Refusal := run escAbortRule s

/-- R75. -/
def csiDigitRule (d : BitVec 4) (s : State) : State := { s with pb := s.pb.digit d }

/-- CSI_DIGIT (R75). -/
def execCsiDigit (d : BitVec 4) (s : State) : Host.Outcome State Fault Refusal := run (csiDigitRule d) s

/-- R77. -/
def csiSepRule (s : State) : State := { s with pb := s.pb.finalize }

/-- CSI_SEP (R77). -/
def execCsiSep (s : State) : Host.Outcome State Fault Refusal := run csiSepRule s

end Sys2Proof.Machine
end

