-- ==== Sys2Proof/Machine/Csi.lean ====
section
/-! DEFINITION. The CSI final bytes (41_csi_commands.md, R79 to R89), each inside the common frame of R78. -/

namespace Sys2Proof.Machine

/-- CSI_FINAL (R78): the last parameter finalised if digits are pending, the selector's rule, the parse buffer reset, CSI
mode left. -/
def csiFinal (f : State → State) (s : State) : State :=
  { pbReset (f { s with pb := s.pb.final }) with csiMode := false }

/-- R79. -/
def cuuRule (s : State) : State := { s with curRow := (max ((s.curRow : Int) - s.pb.arg 0 1) 0).toNat }

/-- CSI_CUU (R79). -/
def execCsiCuu (s : State) : Host.Outcome State Fault Refusal := run (csiFinal cuuRule) s

/-- R80. -/
def cudRule (s : State) : State := { s with curRow := min (s.curRow + s.pb.arg 0 1) (s.cfg.rows - 1) }

/-- CSI_CUD (R80). -/
def execCsiCud (s : State) : Host.Outcome State Fault Refusal := run (csiFinal cudRule) s

/-- R81. -/
def cufRule (s : State) : State := { s with curCol := min (s.curCol + s.pb.arg 0 1) (s.cfg.cols - 1) }

/-- CSI_CUF (R81). -/
def execCsiCuf (s : State) : Host.Outcome State Fault Refusal := run (csiFinal cufRule) s

/-- R82. -/
def cubRule (s : State) : State := { s with curCol := (max ((s.curCol : Int) - s.pb.arg 0 1) 0).toNat }

/-- CSI_CUB (R82). -/
def execCsiCub (s : State) : Host.Outcome State Fault Refusal := run (csiFinal cubRule) s

/-- R83: parameters are 1-based, row then column. -/
def cupRule (s : State) : State :=
  { s with
    curRow := clamp ((s.pb.arg 0 1 : Int) - 1) 0 ((s.cfg.rows : Int) - 1)
    curCol := clamp ((s.pb.arg 1 1 : Int) - 1) 0 ((s.cfg.cols : Int) - 1) }

/-- CSI_CUP (R83). -/
def execCsiCup (s : State) : Host.Outcome State Fault Refusal := run (csiFinal cupRule) s

/-- Every cell of the grid blanked in the current colours, row by row (R84). -/
def blankGrid (s : State) : State := loop s.cfg.rows (fun r t => blankSpan r 0 s.cfg.cols t) s

/-- R84. -/
def edRule (s : State) : State :=
  if s.pb.pcount = 1 ∧ s.pb.params.get 0 = 2 then (blankGrid s).setCursor 0 0 else s

/-- CSI_ED (R84). -/
def execCsiEd (s : State) : Host.Outcome State Fault Refusal := run (csiFinal edRule) s

/-- R85. -/
def elRule (s : State) : State := blankSpan s.curRow s.curCol (s.cfg.cols - s.curCol) s

/-- CSI_EL (R85). -/
def execCsiEl (s : State) : Host.Outcome State Fault Refusal := run (csiFinal elRule) s

/-- One SGR parameter (R86). -/
def sgrParam (v : Nat) (s : State) : State :=
  if v = 0 then { s with curFg := s.cfg.defaultFg, curBg := s.cfg.defaultBg }
  else if 30 ≤ v ∧ v ≤ 37 then { s with curFg := ansiColour s.cfg (v - 30) }
  else if 40 ≤ v ∧ v ≤ 47 then { s with curBg := ansiColour s.cfg (v - 40) }
  else s

/-- R86: the parameters present, left to right. -/
def sgrRule (s : State) : State := loop s.pb.pcount (fun i t => sgrParam (s.pb.params.get i).toNat t) s

/-- CSI_SGR (R86). -/
def execCsiSgr (s : State) : Host.Outcome State Fault Refusal := run (csiFinal sgrRule) s

/-- R87. -/
def scpRule (s : State) : State := { s with savedCol := s.curCol, savedRow := s.curRow, savedValid := true }

/-- CSI_SCP (R87). -/
def execCsiScp (s : State) : Host.Outcome State Fault Refusal := run (csiFinal scpRule) s

/-- R88. -/
def rcpRule (s : State) : State := if s.savedValid then s.setCursor s.savedCol s.savedRow else s

/-- CSI_RCP (R88). -/
def execCsiRcp (s : State) : Host.Outcome State Fault Refusal := run (csiFinal rcpRule) s

/-- R89: nothing, the command is discarded; R78 still resets the parse buffer and leaves CSI mode. -/
def unknownRule (s : State) : State := s

/-- CSI_UNKNOWN (R89). -/
def execCsiUnknown (_b : Byte) (s : State) : Host.Outcome State Fault Refusal := run (csiFinal unknownRule) s

end Sys2Proof.Machine
end

