-- ==== Sys2Proof/Machine/Menu.lean ====
section
/-! DEFINITION. Modal overlays: entry, exit and the bytes inside one (43_modal_overlays.md, R94 to R105). -/

namespace Sys2Proof.Machine

/-- The action of every cell (i, k) of a w by h rectangle in row-major order, with its index j = i*w + k (R94, R95). -/
def overRect {α : Type} (w h : Nat) (f : Nat → Nat → Nat → α → α) (x : α) : α :=
  loop h (fun i x => loop w (fun k x => f i k (i * w + k) x) x) x

/-- The cell of MENU_IMAGE at row-major index j. -/
def imageCell (cfg : Config) (m : Menu) (j : Nat) : GridCell := m.image.getD j ⟨cfg.blankChar, cfg.defaultFg, cfg.defaultBg⟩

/-- The rectangle's cells saved into SNAP (R94, first loop). -/
def takeSnap (m : Menu) (s : State) : State :=
  { s with snap := overRect m.w m.h (fun i k j x => setSnap s.cfg x j (Store.cell s.cfg s.back (m.y0 + i) (m.x0 + k))) s.snap }

/-- The menu's image drawn over its rectangle (R94, second loop). -/
def drawImage (m : Menu) (s : State) : State :=
  overRect m.w m.h (fun i k j t =>
    setCell (m.y0 + i) (m.x0 + k) (imageCell s.cfg m j).ch (imageCell s.cfg m j).fg (imageCell s.cfg m j).bg t) s

/-- OpenModal(k) (R94). -/
def openModal (k : MenuKind) (s : State) : State :=
  drawImage (s.cfg.menu k) (takeSnap (s.cfg.menu k) { s with modal := some k, mdigN := false, mdigV := 0 })

/-- The rectangle restored from SNAP (R95). -/
def restoreSnap (m : Menu) (s : State) : State :=
  overRect m.w m.h (fun i k j t =>
    setCell (m.y0 + i) (m.x0 + k) (snapAt s.cfg s.snap j).ch (snapAt s.cfg s.snap j).fg (snapAt s.cfg s.snap j).bg t) s

/-- ExitModal (R95). With no overlay open, where no byte decodes to a rule that calls it, there is no rectangle (log 10). -/
def exitModal (s : State) : State :=
  let t := match s.modal with
    | some k => restoreSnap (s.cfg.menu k) s
    | none => s
  { t with modal := none, mdigN := false, mdigV := 0 }

/-- OPEN_FG (R96). -/
def execOpenFg (s : State) : Host.Outcome State Fault Refusal := run (openModal .fgPick) s

/-- OPEN_BG (R97). -/
def execOpenBg (s : State) : Host.Outcome State Fault Refusal := run (openModal .bgPick) s

/-- OPEN_STYLE (R98). -/
def execOpenStyle (s : State) : Host.Outcome State Fault Refusal := run (openModal .style) s

/-- OPEN_THEME (R99). -/
def execOpenTheme (s : State) : Host.Outcome State Fault Refusal := run (openModal .theme) s

/-- MODAL_CANCEL (R100). -/
def execModalCancel (s : State) : Host.Outcome State Fault Refusal := run exitModal s

/-- The colour a completed code sets: the foreground in FG_PICK, else the background (R101). -/
def pickColour (v : Colour) (s : State) : State :=
  if s.modal = some .fgPick then { s with curFg := v } else { s with curBg := v }

/-- R101. -/
def pickDigitRule (d : BitVec 4) (s : State) : State :=
  if s.mdigN then
    if 10 * s.mdigV.toNat + d.toNat ≤ 63 then exitModal (pickColour (BitVec.ofNat 6 (10 * s.mdigV.toNat + d.toNat)) s) else s
  else { s with mdigV := d, mdigN := true }

/-- PICK_DIGIT (R101). -/
def execPickDigit (d : BitVec 4) (s : State) : Host.Outcome State Fault Refusal := run (pickDigitRule d) s

/-- R102. -/
def pickBsRule (s : State) : State := if s.mdigN then { s with mdigN := false, mdigV := 0 } else s

/-- PICK_BS (R102). -/
def execPickBs (_b : Byte) (s : State) : Host.Outcome State Fault Refusal := run pickBsRule s

/-- R103. -/
def styleRule (d : BitVec 4) (s : State) : State :=
  match CursorStyle.ofDigit d with
  | some st => exitModal { s with style := st }
  | none => s

/-- STYLE_SELECT (R103). -/
def execStyleSelect (d : BitVec 4) (s : State) : Host.Outcome State Fault Refusal := run (styleRule d) s

/-- R104. -/
def themeRule (d : BitVec 4) (s : State) : State :=
  match themeOf s.cfg d with
  | some th => exitModal { s with curFg := th.1, curBg := th.2 }
  | none => s

/-- THEME_SELECT (R104). -/
def execThemeSelect (d : BitVec 4) (s : State) : Host.Outcome State Fault Refusal := run (themeRule d) s

/-- R105: the byte is consumed. -/
def ignoreRule (s : State) : State := s

/-- MODAL_IGNORE (R105). -/
def execModalIgnore (_b : Byte) (s : State) : Host.Outcome State Fault Refusal := run ignoreRule s

end Sys2Proof.Machine
end

