-- ==== Sys2Proof/Machine/Overlay.lean ====
section
/-! DEFINITION. The cursor overlay and the TICK step (45_cursor_overlay.md, R116 to R121). -/

namespace Sys2Proof.Machine

/-- OverlayDraw (R117). -/
def overlayDraw (s : State) : State :=
  { setFg s.curRow s.curCol (glyphOf s.cfg s.style) s.curFg s with
    ovChar := Store.chrAt s.cfg s.back s.curRow s.curCol
    ovFg := Store.fgOf s.cfg s.back s.curRow s.curCol
    ovRow := s.curRow
    ovCol := s.curCol
    drawn := true }

/-- OverlayRemove (R118). -/
def overlayRemove (s : State) : State := { setFg s.ovRow s.ovCol s.ovChar s.ovFg s with drawn := false }

/-- The cursor shown or hidden after its visibility toggled (R120). -/
def toggleOverlay (s : State) : State :=
  if s.curVisible then (if s.drawn then s else overlayDraw s) else (if s.drawn then overlayRemove s else s)

/-- The blink counter's iteration (R120). -/
def blinkStep (s : State) : State :=
  if s.blinkCnt + 1 ≥ s.cfg.blinkTicks then toggleOverlay { s with blinkCnt := 0, curVisible := !s.curVisible }
  else { s with blinkCnt := s.blinkCnt + 1 }

/-- The step-local state cleared, before and after a logic step (R29; log 8). -/
def clearLocal (s : State) : State := { s with wrote := false, popped := none }

/-- TickStep (R120). Taking the step clears the pending flag (R141); while an overlay is open nothing else changes (R121). -/
def tickRule (s : State) : State :=
  let t := clearLocal { s with pendTick := false }
  if s.modal.isSome then t else clearLocal (swapAfterEdit s.cfg.swapOnBlink (blinkStep t))

/-- TICK (R120). -/
def execTick (s : State) : Host.Outcome State Fault Refusal := run tickRule s

end Sys2Proof.Machine
end

