-- ==== Sys2Proof/Machine/Ring.lean ====
section
/-! DEFINITION. The input ring buffer (47_interfaces.md, R135 to R139). -/

namespace Sys2Proof.Machine

/-- Push(q, b) (R136): a full ring drops the byte and sets the overflow flag. -/
def Ring.push (n : Nat) (b : Byte) (q : Ring) : Ring :=
  if q.count = n then { q with overflow := true }
  else { q with buf := q.buf.set q.head b, head := (q.head + 1) % n, count := q.count + 1 }

/-- The tail advanced past one byte (R137). -/
def Ring.advance (n : Nat) (q : Ring) : Ring := { q with tail := (q.tail + 1) % n, count := q.count - 1 }

/-- The overflow flag cleared once the free space exceeds a quarter of the capacity (R137, C2). -/
def Ring.relax (n : Nat) (q : Ring) : Ring :=
  if q.overflow && decide (4 * (n - q.count) > n) then { q with overflow := false } else q

/-- Pop(q) (R137): the byte or empty, and the ring after it. -/
def Ring.pop (n : Nat) (q : Ring) : Option Byte × Ring :=
  if q.count = 0 then (none, q) else (some (q.buf.getD q.tail 0), (q.advance n).relax n)

/-- R136 on the block's ring. -/
def pushRule (b : Byte) (s : State) : State := { s with ring := s.ring.push s.cfg.ringN b }

/-- RING_PUSH (R136). -/
def execRingPush (b : Byte) (s : State) : Host.Outcome State Fault Refusal := run (pushRule b) s

/-- R137 on the block's ring: the answer is in `popped`. -/
def popRule (s : State) : State := { s with popped := (s.ring.pop s.cfg.ringN).1, ring := (s.ring.pop s.cfg.ringN).2 }

/-- RING_POP (R137). -/
def execRingPop (s : State) : Host.Outcome State Fault Refusal := run popRule s

/-- The output rx_overflow (R138). -/
def State.rxOverflow (s : State) : Bool := s.ring.overflow

end Sys2Proof.Machine
end

