-- ==== Sys2Proof/Machine/Text.lean ====
section
/-! DEFINITION. Printable bytes and backspace (42_text_editing.md, R90, R91). -/

namespace Sys2Proof.Machine

/-- R90: the cell written, then the cursor advanced or, past the last column, the line broken at once. -/
def printRule (b : Byte) (s : State) : State :=
  let t := setCell s.curRow s.curCol b s.curFg s.curBg s
  if s.curCol + 1 > s.cfg.cols - 1 then
    { lineBreak t with skipCr := if s.cfg.wrapSkipCr then true else s.skipCr }
  else { t with curCol := s.curCol + 1 }

/-- PRINT (R90). -/
def execPrint (b : Byte) (s : State) : Host.Outcome State Fault Refusal := run (printRule b) s

/-- R91: one column left, stopping at column 0, and that cell blanked. -/
def bsRule (s : State) : State :=
  blankCell s.curRow (s.curCol - 1) { s with curCol := s.curCol - 1 }

/-- BS (R91). -/
def execBs (_b : Byte) (s : State) : Host.Outcome State Fault Refusal := run bsRule s

end Sys2Proof.Machine
end

