-- ==== Sys2Proof/Machine/Dispatch.lean ====
section
/-! DEFINITION. One arm per instruction, each one direct call of its meaning. -/

namespace Sys2Proof.Machine

def exec (i : Instr) (s : State) : Host.Outcome State Fault Refusal :=
  match i with
  | .cr => Sys2Proof.Machine.execCr s
  | .lf => Sys2Proof.Machine.execLf s
  | .escEntry => Sys2Proof.Machine.execEscEntry s
  | .escCsi => Sys2Proof.Machine.execEscCsi s
  | .escAbort x => Sys2Proof.Machine.execEscAbort x s
  | .csiDigit d => Sys2Proof.Machine.execCsiDigit d s
  | .csiSep => Sys2Proof.Machine.execCsiSep s
  | .csiCuu => Sys2Proof.Machine.execCsiCuu s
  | .csiCud => Sys2Proof.Machine.execCsiCud s
  | .csiCuf => Sys2Proof.Machine.execCsiCuf s
  | .csiCub => Sys2Proof.Machine.execCsiCub s
  | .csiCup => Sys2Proof.Machine.execCsiCup s
  | .csiEd => Sys2Proof.Machine.execCsiEd s
  | .csiEl => Sys2Proof.Machine.execCsiEl s
  | .csiSgr => Sys2Proof.Machine.execCsiSgr s
  | .csiScp => Sys2Proof.Machine.execCsiScp s
  | .csiRcp => Sys2Proof.Machine.execCsiRcp s
  | .csiUnknown b => Sys2Proof.Machine.execCsiUnknown b s
  | .openFg => Sys2Proof.Machine.execOpenFg s
  | .openBg => Sys2Proof.Machine.execOpenBg s
  | .openStyle => Sys2Proof.Machine.execOpenStyle s
  | .openTheme => Sys2Proof.Machine.execOpenTheme s
  | .bs b => Sys2Proof.Machine.execBs b s
  | .print b => Sys2Proof.Machine.execPrint b s
  | .modalCancel => Sys2Proof.Machine.execModalCancel s
  | .pickDigit d => Sys2Proof.Machine.execPickDigit d s
  | .pickBs b => Sys2Proof.Machine.execPickBs b s
  | .styleSelect d => Sys2Proof.Machine.execStyleSelect d s
  | .themeSelect d => Sys2Proof.Machine.execThemeSelect d s
  | .modalIgnore b => Sys2Proof.Machine.execModalIgnore b s
  | .tick => Sys2Proof.Machine.execTick s
  | .line => Sys2Proof.Machine.execLine s
  | .deferredCopy => Sys2Proof.Machine.execDeferredCopy s
  | .forcedCopy => Sys2Proof.Machine.execForcedCopy s
  | .ringPush b => Sys2Proof.Machine.execRingPush b s
  | .ringPop => Sys2Proof.Machine.execRingPop s

end Sys2Proof.Machine
end

