-- ==== Sys2Proof/Machine/Reset.lean ====
section
/-! DEFINITION. The reset input and its synchronisers (R157, R158), and the free values of the registers after a reset held
too short (93 section 1, log 26). -/

namespace Sys2Proof

/-- FREE VALUES (log 26): what the registers of the block may hold after the reset number `draw` that was held too short. 93
section 1 says "any value" of it, so it has no body and nothing can be proved of it. -/
opaque Config.freeState (draw : Nat) : Machine.State

end Sys2Proof

namespace Sys2Proof.Machine

/-- The canonical list of what `m` reads as below `size`. -/
def Memory.canon (d : Nat → Byte) (size : Nat) (m : Memory) : Memory :=
  (List.range size).filterMap fun a => if Memory.get d m a = d a then none else some (a, Memory.get d m a)

/-- Both memories of a frame store made canonical. -/
def Store.canon (cfg : Config) (st : Store) : Store :=
  { chr := Memory.canon (unlisted cfg .backChr) (Space.size cfg .backChr) st.chr
    pl := Memory.canon (unlisted cfg .backPl) (Space.size cfg .backPl) st.pl }

/-- A ring of `n` slots with its registers at legal values (R135) and the head `count` slots past the tail. -/
def Ring.ranged (n : Nat) (q : Ring) : Ring :=
  { buf := (List.range n).map fun i => q.buf.getD i 0
    head := (q.tail % n + q.count % (n + 1)) % n
    tail := q.tail % n
    count := q.count % (n + 1)
    overflow := q.overflow }

/-- Every register brought to a legal value of 10_state.md, the stores canonical; a legal one is not changed. -/
def State.ranged (x : State) : State :=
  { x with
    curCol := x.curCol % x.cfg.cols, curRow := x.curRow % x.cfg.rows
    savedCol := x.savedCol % x.cfg.cols, savedRow := x.savedRow % x.cfg.rows
    pb := { x.pb with pcount := x.pb.pcount % 5 }
    blinkCnt := x.blinkCnt % x.cfg.blinkTicks
    ovCol := x.ovCol % x.cfg.cols, ovRow := x.ovRow % x.cfg.rows
    mdigV := if x.mdigV.toNat ≤ 9 then x.mdigV else 0
    line := x.line % x.cfg.frameLines
    hs := Handshake.idle, owned := none
    back := Store.canon x.cfg x.back, front := Store.canon x.cfg x.front
    snap := Memory.canon (unlisted x.cfg .snap) (Space.size x.cfg .snap) x.snap
    ring := x.ring.ranged x.cfg.ringN }

/-- The cursor's cell holds what R32 (8) asks of it while the cursor is drawn. -/
def State.cursorShown (x : State) : Bool :=
  decide (Store.chrAt x.cfg x.back x.curRow x.curCol = glyphOf x.cfg x.style)
  && decide (Store.fgOf x.cfg x.back x.curRow x.curCol = x.curFg)

/-- The modes, the parse buffer, the skip flags and the digit held, brought to agree as R32 (2) to (6) and (10) say. -/
def State.settledModes (x : State) : State :=
  let csi := x.csiMode && !x.escMode
  let modal := if x.escMode || csi then none else x.modal
  { x with
    csiMode := csi
    pb := { x.pb with
      pcount := if csi then x.pb.pcount else 0
      acc := if csi && x.pb.dpend then x.pb.acc else 0
      dpend := csi && x.pb.dpend }
    skipLf := x.skipLf && !x.skipCr
    modal := modal
    mdigN := x.mdigN && (decide (modal = some .fgPick) || decide (modal = some .bgPick)) }

/-- The overlay record brought to agree with the cursor as R32 (7) and (8) say. -/
def State.settledOverlay (x : State) : State :=
  let visible := x.curVisible && (x.modal.isSome || x.cursorShown)
  let drawn := visible && x.modal.isNone
  { x with
    curVisible := visible, drawn := drawn
    ovCol := if drawn then x.curCol else x.ovCol
    ovRow := if drawn then x.curRow else x.ovRow }

/-- The reset unit after a short reset: rst is 0, and the flops hold any value in which a domain that has seen the other out
of reset saw it so (R158). -/
def ResetUnit.settled (u : ResetUnit) : ResetUnit :=
  { rst := false
    relL := ⟨u.relL.ff1, u.relL.ff1 && u.relL.ff2⟩
    relR := ⟨u.relR.ff1, u.relR.ff1 && u.relR.ff2⟩
    peerL := ⟨u.peerL.ff1 && (u.relR.ff1 && u.relR.ff2), u.peerL.ff2 && (u.relR.ff1 && u.relR.ff2)⟩
    peerR := ⟨u.peerR.ff1 && (u.relL.ff1 && u.relL.ff2), u.peerR.ff2 && (u.relL.ff1 && u.relL.ff2)⟩
    heldL := 0, heldR := 0, short := true }

/-- The state `s` after a reset held too short, its registers taken from `x` as far as legal values and R32 let them; the
configuration, the sink's buffers and the events to come are not the block's (93 section 1, log 26). -/
def shortReset (x s : State) : State :=
  { State.settledOverlay (State.settledModes (State.ranged { x with cfg := s.cfg })) with
    skFree := s.skFree, submitted := [], rsu := x.rsu.settled
    wrote := false, popped := none, inputs := s.inputs, freeDraws := s.freeDraws + 1 }

/-- rst asserted (R157, R158): every register at its reset value, both domains in reset. The configuration, the sink's free
buffers and the events still to come are the host's. -/
def assertReset (s : State) : State :=
  { State.resetOf s.cfg with
    skFree := s.skFree, inputs := s.inputs, freeDraws := s.freeDraws, rsu := ResetUnit.asserted }

/-- The reset input (R157, R158): asserted at once; released after two cycles of each clock, or too soon, which leaves the
registers at free values (93 section 1). -/
def resetPin (v : Bool) (s : State) : State :=
  if v then (if s.rsu.rst then s else assertReset s)
  else if s.rsu.rst then
    if s.rsu.heldL ≥ 2 ∧ s.rsu.heldR ≥ 2 then { s with rsu := { s.rsu with rst := false, heldL := 0, heldR := 0 } }
    else shortReset (Config.freeState s.freeDraws) s
  else s

/-- A clk_l edge in the reset unit: counted while rst is 1, else the domain's release and its view of the other shift on. -/
def clockL (u : ResetUnit) : ResetUnit :=
  if u.rst then { u with heldL := min 2 (u.heldL + 1) }
  else { u with relL := u.relL.clock true, peerL := u.peerL.clock u.relR.ff2 }

/-- A clk_r edge in the reset unit. -/
def clockR (u : ResetUnit) : ResetUnit :=
  if u.rst then { u with heldR := min 2 (u.heldR + 1) }
  else { u with relR := u.relR.clock true, peerR := u.peerR.clock u.relL.ff2 }

end Sys2Proof.Machine
end

