-- ==== Sys2Proof/Machine/Agents.lean ====
section
/-! DEFINITION. The agents' turns and the host's actions: the BYTE step (R67), the logic agent's loop (R140), the render
agent's (R133), the tick input (R141) and the sink (R142). -/

namespace Sys2Proof.Machine

/-- The overlay taken off before a byte of NORMAL routing runs (R67). -/
def liftOverlay (s : State) : State := if s.modal.isNone && s.drawn then overlayRemove s else s

/-- The BYTE step up to the class's own rule (R67): skip flags, then the overlay. -/
def beforeByte (i : Instr) (s : State) : State := liftOverlay (skipRule i s)

/-- The overlay put back at the possibly moved cursor (R67). -/
def redrawOverlay (s : State) : State := if s.modal.isNone && s.curVisible && !s.drawn then overlayDraw s else s

/-- The BYTE step after the class's own rule (R67): redraw, then the swap action if B was written. -/
def afterByte (s : State) : State :=
  let t := redrawOverlay s
  clearLocal (swapAfterEdit t.cfg.swapOnByte t)

/-- ByteStep(b) (R67): the class of the byte is decoded first, then its rule runs between the two overlay actions. -/
def runByte (b : Byte) (s : State) : Host.Outcome State Fault Refusal :=
  andThen (exec (decode s.cfg s.mode b) (beforeByte (decode s.cfg s.mode b) s)) fun t => .next (afterByte t)

/-- The BYTE step with its pop (R67, R137, R140). -/
def byteStep (s : State) : Host.Outcome State Fault Refusal :=
  andThen (exec .ringPop (clearLocal s)) fun t =>
    match t.popped with
    | some b => runByte b t
    | none => .next (clearLocal t)

/-- The logic agent may step: its domain is out of reset and it has seen the other so (R158). -/
def logicRuns (s : State) : Bool := !s.rsu.rst && s.rsu.relL.ff2 && s.rsu.peerL.ff2

/-- The render agent may step (R158). -/
def renderRuns (s : State) : Bool := !s.rsu.rst && s.rsu.relR.ff2 && s.rsu.peerR.ff2

/-- The clk_l domain's registers are out of reset, so its ports act (R157, R158). -/
def portsRun (s : State) : Bool := !s.rsu.rst && s.rsu.relL.ff2

/-- The logic agent's turn: a pending tick first, else a byte, else idle (R140, R148). -/
def logicTurn (s : State) : Host.Outcome State Fault Refusal :=
  if logicRuns s then
    if s.pendTick then exec .tick s
    else if s.ring.count > 0 then byteStep s
    else .next s
  else .next s

/-- The producer's push port (R136, R147). -/
def pushPort (b : Byte) (s : State) : Host.Outcome State Fault Refusal := if portsRun s then exec (.ringPush b) s else .next s

/-- The tick port: a pending tick absorbs another (R141). -/
def tickPort (s : State) : State := if portsRun s then { s with pendTick := true } else s

/-- The render agent's turn (R133, R158). -/
def renderTurn (s : State) : Host.Outcome State Fault Refusal := if renderRuns s then exec .line s else .next s

/-- The sink offers a buffer (R142); its handle has SKW bits (R134). -/
def sinkOffer (id : Nat) (s : State) : Host.Outcome State Fault Refusal :=
  if id < 2 ^ s.cfg.skw then .next { s with skFree := s.skFree ++ [id] } else .refused .handleTooWide

/-- What one event does. -/
def react (e : Event) (s : State) : Host.Outcome State Fault Refusal :=
  match e with
  | .push b => pushPort b s
  | .tickPulse => .next (tickPort s)
  | .logic => logicTurn s
  | .logicPush b => andThen (logicTurn s) (pushPort b)
  | .render => renderTurn s
  | .sinkFree id => sinkOffer id s
  | .rst v => .next (resetPin v s)
  | .clkL => .next { s with rsu := clockL s.rsu }
  | .clkR => .next { s with rsu := clockR s.rsu }

/-- One step of the block: the next event of the schedule; with none to come the block idles (R155, R169). -/
def takeEvent (s : State) : Host.Outcome State Fault Refusal :=
  match s.inputs with
  | [] => .next s
  | e :: rest => react e { s with inputs := rest }

/-- A state that is not legal is refused before anything runs (R7, R17, R24, 93 section 1). -/
def guardedStep (s : State) : Host.Outcome State Fault Refusal :=
  if configWf s.cfg then (if s.legal then takeEvent s else .refused .illegalState) else .refused .illFormedConfig

/-- The parser put into a mode in which the next byte is read: the mode flags, no open menu, an empty parse buffer outside
CSI mode. A menu closed this way hides the cursor until its next blink, so that R32 (7) holds. -/
def inMode (m : Mode) (s : State) : State :=
  { s with
    escMode := decide (m = .esc), csiMode := decide (m = .csi)
    modal := none, mdigN := false
    curVisible := s.curVisible && s.modal.isNone
    pb := if s.csiMode && decide (m = .csi) then s.pb else ParseBuf.empty }

/-- The byte placed where the logic agent's next pop reads it. -/
def placeByte (b : Byte) (s : State) : State :=
  { s with ring :=
    { s.ring with
      buf := s.ring.buf.set s.ring.tail b
      head := if s.ring.count = 0 then (s.ring.tail + 1) % s.cfg.ringN else s.ring.head
      count := max 1 s.ring.count } }

/-- The byte of a table word placed so that the very next step is the logic agent's BYTE step on it (log 5). -/
def fetchNext (b : Byte) (s : State) : State :=
  { placeByte b (inMode (tableMode b) s) with pendTick := false, rsu := { ResetUnit.released with short := s.rsu.short }, inputs := .logic :: s.inputs }

end Sys2Proof.Machine
end

