-- ==== Sys2Proof/Machine/Step.lean ====
section
/-! DEFINITION. The step of the block. -/

namespace Sys2Proof.Machine

/-- One step: a legal state takes the next event of its schedule, any other is refused. -/
def step (s : State) : Host.Outcome State Fault Refusal := guardedStep s

/-- The state whose next step runs the instruction that a table word of one byte stands for (log 5). -/
def State.withFetchWord (s : State) (_nbits w : Nat) : State := fetchNext (BitVec.ofNat 8 w) s

end Sys2Proof.Machine
end

