-- ==== Sys2Proof/Safety.lean ====
section
/-! DEFINITION. The terms claims use: an edit of a frame store and what it leaves alone, the invariant of the block, the CSI
operands as the spec reads them, and the ring as a queue. -/

namespace Sys2Proof.Machine

/-- A cell of the grid. -/
abbrev inGrid (cfg : Config) (r c : Nat) : Prop := r < cfg.rows ∧ c < cfg.cols

/-- The blank cell of the current colours (R40). -/
def State.blank (s : State) : GridCell := { ch := s.cfg.blankChar, fg := s.curFg, bg := s.curBg }

/-- From `st` to `st'` the cells of `P` take the values `val`; every other cell of the grid keeps its character and both
colours, every character byte of no cell of `P` and every plane byte of no word of a cell of `P` reads as before, and the
stores stay canonical. -/
structure StoreEdit (cfg : Config) (P : Nat → Nat → Prop) (val : Nat → Nat → GridCell) (st st' : Store) : Prop where
  canonical : Store.wf cfg st' = true
  written : ∀ r c, P r c → Store.cell cfg st' r c = val r c
  kept : ∀ r c, inGrid cfg r c → ¬P r c → Store.cell cfg st' r c = Store.cell cfg st r c
  chrKept : ∀ a, (∀ r c, P r c → a ≠ chrAddr cfg r c) →
    Memory.get (unlisted cfg .backChr) st'.chr a = Memory.get (unlisted cfg .backChr) st.chr a
  plKept : ∀ a, (∀ r c p, P r c → p < 3 → a < plAddr cfg p r (c / 8) ∨ plAddr cfg p r (c / 8) + 4 ≤ a) →
    Memory.get (unlisted cfg .backPl) st'.pl a = Memory.get (unlisted cfg .backPl) st.pl a

/-- The cell of row r, column c after a scroll: the one below it, or a blank in the last row (R93). -/
def State.scrolled (s : State) (r c : Nat) : GridCell :=
  if r + 1 < s.cfg.rows then Store.cell s.cfg s.back (r + 1) c else s.blank

/-- The rectangle of a menu (R94). -/
def inMenu (m : Menu) (r c : Nat) : Prop := m.y0 ≤ r ∧ r < m.y0 + m.h ∧ m.x0 ≤ c ∧ c < m.x0 + m.w

/-- The row-major index of a cell in a menu's rectangle (R94). -/
def menuIndex (m : Menu) (r c : Nat) : Nat := (r - m.y0) * m.w + (c - m.x0)

/-- How many operands a CSI command has when its final byte comes: pending digits finish one more, up to four (R76, R78). -/
def State.operandCount (s : State) : Nat := if s.pb.dpend ∧ s.pb.pcount < 4 then s.pb.pcount + 1 else s.pb.pcount

/-- Operand i of a CSI command when its final byte comes: the digits pending are the last one kept (R62, R76, R78). -/
def State.operand (s : State) (i : Nat) : Nat :=
  if s.pb.dpend ∧ s.pb.pcount < 4 ∧ i = s.pb.pcount then s.pb.acc.toNat else (s.pb.params.get i).toNat

/-- Operand i if present, else its default (file 41). -/
def State.operandOr (s : State) (i d : Nat) : Nat := if i < s.operandCount then s.operand i else d

/-- The parser after a final byte: buffer empty, CSI mode left (R78). -/
def State.csiDone (s : State) : State := { s with pb := ParseBuf.empty, csiMode := false }

/-- The ring's bytes in the order they will be popped (R139). -/
def Ring.contents (n : Nat) (q : Ring) : List Byte := (List.range q.count).map fun i => q.buf.getD ((q.tail + i) % n) 0

/-- The head is `count` slots past the tail. -/
def Ring.linked (n : Nat) (q : Ring) : Bool := decide (q.head = (q.tail + q.count) % n)

/-- Every store in canonical form. -/
def State.canonical (s : State) : Bool :=
  Store.wf s.cfg s.back && Store.wf s.cfg s.front && Memory.wf (unlisted s.cfg .snap) (Space.size s.cfg .snap) s.snap

/-- A domain that has seen the other out of reset saw it so: the other is out of reset, and a released domain's first flop
is released too (R158). -/
def ResetUnit.ordered (u : ResetUnit) : Bool :=
  (!u.relL.ff2 || u.relL.ff1) && (!u.relR.ff2 || u.relR.ff1)
  && (!(u.peerL.ff1 || u.peerL.ff2) || u.relR.ff2) && (!(u.peerR.ff1 || u.peerR.ff2) || u.relL.ff2)

/-- While rst is 1 both domains are in reset and every register of the block holds its reset value (R157); the
configuration, the sink's free buffers, the cycle counts, the events to come and the draws of free values are not the block's registers. -/
def State.heldInReset (s : State) : Bool :=
  !s.rsu.rst || (decide (s.rsu = { ResetUnit.asserted with heldL := s.rsu.heldL, heldR := s.rsu.heldR })
    && decide (s = { State.resetOf s.cfg with skFree := s.skFree, inputs := s.inputs, rsu := s.rsu, freeDraws := s.freeDraws }))

/-- The invariant of the block between steps: legal values and R32, the stores canonical, the ring linked, one submitted
buffer per scanline counted since a reset held long enough (R142), no step-local value left over (R29), and the reset unit in
order (R157, R158). -/
def State.inv (s : State) : Bool :=
  s.legal && s.canonical && s.ring.linked s.cfg.ringN && (s.rsu.short || decide (s.submitted.length % s.cfg.frameLines = s.line))
  && !s.wrote && s.popped.isNone && s.rsu.ordered && s.heldInReset

/-- What the swap action of a logic step that wrote B leaves (R109, R110): a request, or B published at once. -/
def State.published (p : SwapPolicy) (s : State) : State :=
  match p with
  | .deferred => { s with swapReq := true }
  | .forced => { s with front := s.back, swapReq := false }

/-- Every value that R157 lists, in a state of configuration `cfg`. -/
structure ResetValues (cfg : Config) (t : State) : Prop where
  config : t.cfg = cfg
  cursor : t.curCol = 0 ∧ t.curRow = 0
  colours : t.curFg = cfg.defaultFg ∧ t.curBg = cfg.defaultBg
  modes : t.escMode = false ∧ t.csiMode = false
  skips : t.skipCr = false ∧ t.skipLf = false
  saved : t.savedValid = false ∧ t.savedCol = 0 ∧ t.savedRow = 0
  params : (∀ i, t.pb.params.get i = 0) ∧ t.pb.pcount = 0 ∧ t.pb.acc = 0 ∧ t.pb.dpend = false
  blink : t.style = cfg.defaultStyle ∧ t.curVisible = false ∧ t.blinkCnt = 0
  overlay : t.drawn = false ∧ t.ovChar = 0 ∧ t.ovFg = 0 ∧ t.ovCol = 0 ∧ t.ovRow = 0
  menu : t.modal = none ∧ t.mdigN = false ∧ t.mdigV = 0
  swap : t.swapReq = false ∧ t.hs = Handshake.idle
  render : t.line = 0 ∧ t.blinkPhase = false ∧ t.owned = none
  ring : t.ring.head = 0 ∧ t.ring.tail = 0 ∧ t.ring.count = 0 ∧ t.ring.overflow = false ∧ t.pendTick = false
  screen : ∀ r c, inGrid cfg r c → Store.cell cfg t.back r c = { ch := cfg.blankChar, fg := cfg.defaultFg, bg := cfg.defaultBg }
  front : t.front = t.back

/-- Instructions run one after another, stopping at the first that does not complete. -/
def execAll (is : List Instr) (s : State) : Host.Outcome State Fault Refusal :=
  match is with
  | [] => .next s
  | i :: rest => andThen (exec i s) (execAll rest)

/-- The value of a field of decimal digits, most significant first, without a bound (R62). -/
def decimalValue (ds : List (BitVec 4)) : Nat := ds.foldl (fun v d => 10 * v + d.toNat) 0

/-- CSI parameter fields typed with a separator between each two (R65). -/
def typedFields (fields : List (List (BitVec 4))) : List Instr :=
  match fields with
  | [] => []
  | [f] => f.map .csiDigit
  | f :: rest => f.map .csiDigit ++ .csiSep :: typedFields rest

/-- The two current colours after one SGR parameter (R86). -/
def sgrColours (cfg : Config) (v : Nat) (x : Colour × Colour) : Colour × Colour :=
  if v = 0 then (cfg.defaultFg, cfg.defaultBg)
  else if h : 30 ≤ v ∧ v ≤ 37 then (cfg.ansiPal[v - 30]'(by omega), x.2)
  else if h : 40 ≤ v ∧ v ≤ 47 then (x.1, cfg.ansiPal[v - 40]'(by omega))
  else x

/-- A run is safe if no step of it faults (R145). -/
def safeOutcome (o : Host.Outcome State Fault Refusal) : Bool :=
  match o with
  | .fault _ => false
  | _ => true

end Sys2Proof.Machine
end

