-- ==== Sys2Proof/Certificates/Slice0/Obligations.lean ====
section
/-! DEFINITION. The statements for the provers, file by file of spec/. A statement about every state names the legal values
(`runnable`), the canonical form of a store (`Store.wf`) or the invariant (`inv`) it needs; `inv` is itself stated of reset
and of every step. -/

open Sys2Proof Sys2Proof.Machine

/-- The ten final selectors of R61, and CSI_UNKNOWN for every other final byte; matching is exact. -/
def Obligations.FinalSelectorTable : Prop :=
  ∀ cfg : Config,
    decode cfg .csi 0x41 = .csiCuu ∧ decode cfg .csi 0x42 = .csiCud ∧ decode cfg .csi 0x43 = .csiCuf ∧
    decode cfg .csi 0x44 = .csiCub ∧ decode cfg .csi 0x48 = .csiCup ∧ decode cfg .csi 0x4A = .csiEd ∧
    decode cfg .csi 0x4B = .csiEl ∧ decode cfg .csi 0x6D = .csiSgr ∧ decode cfg .csi 0x73 = .csiScp ∧
    decode cfg .csi 0x75 = .csiRcp ∧
    ∀ b : Byte, ¬(0x30 ≤ b.toNat ∧ b.toNat ≤ 0x39) → b ≠ 0x3B → b ≠ 0x0D → b ≠ 0x0A → b ≠ 0x1B →
      b ∉ ([0x41, 0x42, 0x43, 0x44, 0x48, 0x4A, 0x4B, 0x6D, 0x73, 0x75] : List Byte) → decode cfg .csi b = .csiUnknown b

/-- Words of the opcode table read as their rows, one or more of every family (R57, R58, R60). The bytes 0x01 (OPEN_FG), 0x7F
and 0x08 (BS, PICK_BS, and the 0x08 that the style menu ignores) are those of the stand-in configuration, which R58 leaves open
(the model's choice, log 2); the last clause reads a table word in the mode that the model chooses for it (log 5). -/
def Obligations.SpecWordsDecode : Prop :=
  decode Config.default .normal 0b00001101 = .cr ∧ decode Config.default .csi 0b00001010 = .lf ∧
  decode Config.default .esc 0b00011011 = .escEntry ∧ decode Config.default .esc 0b01011011 = .escCsi ∧
  decode Config.default .esc 0b00110111 = .escAbort 0x37 ∧ decode Config.default .csi 0b00110101 = .csiDigit 5 ∧
  decode Config.default .csi 0b00111011 = .csiSep ∧ decode Config.default .csi 0b01101101 = .csiSgr ∧
  decode Config.default .csi 0b01101101 ≠ decode Config.default .csi 0b01001101 ∧
  decode Config.default .normal 0b00000001 = .openFg ∧ decode Config.default .normal 0b01111111 = .bs 0x7F ∧
  decode Config.default .normal 0b01000001 = .print 0x41 ∧ decode Config.default (.menu .theme) 0b00011011 = .modalCancel ∧
  decode Config.default (.menu .bgPick) 0b00110110 = .pickDigit 6 ∧ decode Config.default (.menu .fgPick) 0b00001000 = .pickBs 0x08 ∧
  decode Config.default (.menu .style) 0b00110010 = .styleSelect 2 ∧ decode Config.default (.menu .theme) 0b00110001 = .themeSelect 1 ∧
  decode Config.default (.menu .style) 0b00001000 = .modalIgnore 0x08 ∧ decodeTableWord 8 0b01000001 = some .csiCuu

/-- Every instruction that a mode can read is read back from its byte, whatever bytes follow, with every operand. -/
def Obligations.DecodeOfEncode : Prop :=
  ∀ (cfg : Config) (m : Mode) (i : Instr) (rest : List Byte), configWf cfg = true → i.wfIn cfg m = true →
    ∃ b, encode cfg i = [b] ∧ decode cfg m b = i ∧ decodeBytes cfg m (encode cfg i ++ rest) = .ok (i, rest)

/-- The decode is total: a byte has in every mode exactly one class, which is of that mode and encodes back to the byte. -/
def Obligations.EveryByteHasOneClass : Prop :=
  ∀ (cfg : Config) (m : Mode) (b : Byte), configWf cfg = true →
    (decode cfg m b).wfIn cfg m = true ∧ encode cfg (decode cfg m b) = [b] ∧
    ∀ i : Instr, i.wfIn cfg m = true → encode cfg i = [b] → i = decode cfg m b

/-- CR, LF and ESC keep their classes in NORMAL, ESC and CSI mode; an open menu takes every byte first, cancels on ESC, and
ignores what is no digit and no backspace, CR and LF among it. -/
def Obligations.MenuRoutingFirst : Prop :=
  ∀ s : State, configWf s.cfg = true →
    (s.modal = none → decode s.cfg s.mode 0x0D = .cr ∧ decode s.cfg s.mode 0x0A = .lf ∧ decode s.cfg s.mode 0x1B = .escEntry) ∧
    ∀ k, s.modal = some k →
      decode s.cfg s.mode 0x1B = .modalCancel ∧ decode s.cfg s.mode 0x0D = .modalIgnore 0x0D ∧
      decode s.cfg s.mode 0x0A = .modalIgnore 0x0A ∧
      ∀ b : Byte, ¬(0x30 ≤ b.toNat ∧ b.toNat ≤ 0x39) → b ≠ 0x1B → b ∉ s.cfg.bsCodes → decode s.cfg s.mode b = .modalIgnore b

/-- When the logic agent's turn comes, no tick pends and the ring holds a byte, the step is exec of the byte's class, with the
BYTE step's two actions around it. -/
def Obligations.StepRunsDecodedByte : Prop :=
  ∀ (s : State) (rest : List Event), s.legal = true → s.inputs = .logic :: rest → logicRuns s = true → s.pendTick = false →
    0 < s.ring.count →
    let b := s.ring.buf.getD s.ring.tail 0
    let i := decode s.cfg s.mode b
    let u := { s with inputs := rest, wrote := false, popped := some b, ring := (s.ring.pop s.cfg.ringN).2 }
    i.wfIn s.cfg s.mode = true ∧ ∃ t, exec i (beforeByte i u) = .next t ∧ step s = .next (afterByte t)

/-- The order of a BYTE step (R67): skip flags, overlay off, the class's rule, overlay back, the swap action of R109. -/
def Obligations.ByteStepOrder : Prop :=
  ∀ (s : State) (rest : List Event), s.legal = true → s.inputs = .logic :: rest → logicRuns s = true → s.pendTick = false →
    0 < s.ring.count →
    let b := s.ring.buf.getD s.ring.tail 0
    let i := decode s.cfg s.mode b
    let u := { s with inputs := rest, wrote := false, popped := some b, ring := (s.ring.pop s.cfg.ringN).2 }
    let v := if i = .cr ∨ i = .lf then u else { u with skipCr := false, skipLf := false }
    let w := if v.modal = none ∧ v.drawn = true then overlayRemove v else v
    ∃ t, exec i w = .next t ∧
      let x := if t.modal = none ∧ t.curVisible = true ∧ t.drawn = false then overlayDraw t else t
      let y := if x.wrote = true then x.published s.cfg.swapOnByte else x
      step s = .next { y with wrote := false, popped := none }

/-- The logic agent's loop (R140): a pending TICK first, else a BYTE step on the byte popped, else idle. -/
def Obligations.LogicAgentTurn : Prop :=
  ∀ (s : State) (rest : List Event), s.legal = true → s.inputs = .logic :: rest → logicRuns s = true →
    (s.pendTick = true → ∃ t, exec .tick { s with inputs := rest } = .next t ∧ step s = .next t) ∧
    (s.pendTick = false → 0 < s.ring.count →
      ∃ t u, exec .ringPop { s with inputs := rest, wrote := false, popped := none } = .next t ∧
        t.popped = some (s.ring.buf.getD s.ring.tail 0) ∧
        runByte (s.ring.buf.getD s.ring.tail 0) t = .next u ∧ step s = .next u) ∧
    (s.pendTick = false → s.ring.count = 0 → step s = .next { s with inputs := rest })

/-- Every class completes, keeping the configuration; every event completes in a legal state, but for a buffer handle wider
than its port (the model's choice, log 13); and nothing ever faults. -/
def Obligations.EverythingCompletes : Prop :=
  (∀ (i : Instr) (s : State), s.runnable = true → ∃ t, exec i s = .next t ∧ t.cfg = s.cfg) ∧
  (∀ s : State, s.legal = true → (∀ id rest, s.inputs = .sinkFree id :: rest → id < 2 ^ s.cfg.skw) → ∃ t, step s = .next t) ∧
  (∀ (i : Instr) (s : State) (f : Fault), exec i s ≠ .fault f) ∧ ∀ (s : State) (f : Fault), step s ≠ .fault f

/-- A configuration that breaks a condition of R7 is refused by every instruction and by step. That a colour is in 0..63 and a
symbol below 2^10 is in their types. -/
def Obligations.IllFormedConfigRefused : Prop :=
  ∀ (i : Instr) (s : State),
    ¬(8 ≤ s.cfg.cols ∧ s.cfg.cols % 8 = 0 ∧ 1 ≤ s.cfg.rows ∧ 1 ≤ s.cfg.glyphH ∧ 1 ≤ s.cfg.frameLines ∧
      ([[0x0D], [0x0A], [0x1B], s.cfg.bsCodes, [s.cfg.mbFg], [s.cfg.mbBg], [s.cfg.mbStyle], [s.cfg.mbTheme]] : List (List Byte)).Pairwise
        List.Disjoint ∧
      (∀ k, (s.cfg.menu k).x0 + (s.cfg.menu k).w ≤ s.cfg.cols ∧ (s.cfg.menu k).y0 + (s.cfg.menu k).h ≤ s.cfg.rows) ∧
      1 ≤ s.cfg.blinkTicks ∧ 1 ≤ s.cfg.ringN ∧ s.cfg.themes.length ≤ 10) →
    exec i s = .refused .illFormedConfig ∧ step s = .refused .illFormedConfig

/-- A state in ESC and CSI mode at once is refused (R17); so is any other state outside the legal values, by both, and one
that breaks R32, by step (the model's choice, log 9). -/
def Obligations.IllegalStateRefused : Prop :=
  ∀ (i : Instr) (s : State), configWf s.cfg = true →
    (s.escMode = true → s.csiMode = true → exec i s = .refused .illegalState ∧ step s = .refused .illegalState) ∧
    (s.inRange = false → exec i s = .refused .illegalState ∧ step s = .refused .illegalState) ∧
    (s.invariants = false → step s = .refused .illegalState)

/-- The invariant holds right after reset, of every well-formed configuration and of State.reset. -/
def Obligations.ResetInvariant : Prop :=
  State.reset.inv = true ∧ ∀ cfg : Config, configWf cfg = true → (State.resetOf cfg).inv = true

/-- Every step keeps the invariant, whatever its event; a reset held too short keeps it by the model's choice (log 26). -/
def Obligations.StepKeepsInvariant : Prop := ∀ s t : State, s.inv = true → step s = .next t → t.inv = true

/-- R32 (1) to (10) after any number of steps from reset, whatever the schedule and the host's actions; after a reset held too
short, by the model's choice of free values that keep R32 (log 26). -/
def Obligations.RunsKeepBlockInvariants : Prop :=
  ∀ (cfg : Config) (es : List Event) (n : Nat) (t : State), configWf cfg = true →
    Host.Core.run Sys2Proof.core n ({ State.resetOf cfg with inputs := es } : State) = .next t →
    (t.curCol < cfg.cols ∧ t.curRow < cfg.rows) ∧
    ¬(t.escMode = true ∧ t.csiMode = true) ∧
    (t.csiMode = false → t.pb.pcount = 0 ∧ t.pb.acc = 0 ∧ t.pb.dpend = false) ∧
    (t.pb.dpend = false → t.pb.acc = 0) ∧
    ¬(t.skipCr = true ∧ t.skipLf = true) ∧
    (t.modal ≠ none → t.escMode = false ∧ t.csiMode = false ∧ t.drawn = false) ∧
    (t.drawn = true ↔ t.curVisible = true ∧ t.modal = none) ∧
    (t.drawn = true → t.ovCol = t.curCol ∧ t.ovRow = t.curRow ∧
      Store.chrAt cfg t.back t.curRow t.curCol = glyphOf cfg t.style ∧ Store.fgOf cfg t.back t.curRow t.curCol = t.curFg) ∧
    t.blinkCnt < cfg.blinkTicks ∧
    (t.modal = some .fgPick ∨ t.modal = some .bgPick ∨ t.mdigN = false)

/-- No step changes the configuration, and so none writes the font or the palette ROM. -/
def Obligations.StepKeepsConfiguration : Prop :=
  ∀ s t : State, step s = .next t →
    t.cfg = s.cfg ∧ ∀ a n, memRead t .font a n = memRead s .font a n ∧ memRead t .lut a n = memRead s .lut a n

/-- CR (R70) with the line break and the scroll it performs (R92, R93). -/
def Obligations.CarriageReturn : Prop :=
  ∀ s : State, s.runnable = true →
    (s.skipCr = true → exec .cr s = .next { s with skipCr := false, skipLf := false }) ∧
    (s.skipCr = false → s.curRow ≠ s.cfg.rows - 1 →
      exec .cr s = .next { s with curCol := 0, curRow := s.curRow + 1, skipLf := true, skipCr := false }) ∧
    (s.skipCr = false → s.curRow = s.cfg.rows - 1 → Store.wf s.cfg s.back = true →
      ∃ bk, exec .cr s = .next { s with curCol := 0, back := bk, wrote := true, skipLf := true, skipCr := false } ∧
        StoreEdit s.cfg (inGrid s.cfg)
          (fun r c => if r + 1 < s.cfg.rows then Store.cell s.cfg s.back (r + 1) c else ⟨s.cfg.blankChar, s.curFg, s.curBg⟩) s.back bk)

/-- LF (R71) with the line break and the scroll it performs (R92, R93). -/
def Obligations.LineFeed : Prop :=
  ∀ s : State, s.runnable = true →
    (s.skipLf = true → exec .lf s = .next { s with skipLf := false, skipCr := false }) ∧
    (s.skipLf = false → s.curRow ≠ s.cfg.rows - 1 →
      exec .lf s = .next { s with curCol := 0, curRow := s.curRow + 1, skipCr := true, skipLf := false }) ∧
    (s.skipLf = false → s.curRow = s.cfg.rows - 1 → Store.wf s.cfg s.back = true →
      ∃ bk, exec .lf s = .next { s with curCol := 0, back := bk, wrote := true, skipCr := true, skipLf := false } ∧
        StoreEdit s.cfg (inGrid s.cfg)
          (fun r c => if r + 1 < s.cfg.rows then Store.cell s.cfg s.back (r + 1) c else ⟨s.cfg.blankChar, s.curFg, s.curBg⟩) s.back bk)

/-- CR LF k times, or LF CR k times, is exactly k line breaks, with both skip flags clear at the end (R70, R71). -/
def Obligations.LineEndingPairsCountOnce : Prop :=
  ∀ (k : Nat) (s : State), s.runnable = true → s.skipCr = false → s.skipLf = false →
    execAll (List.replicate k [Instr.cr, Instr.lf]).flatten s = .next (loop k (fun _ t => lineBreak t) s) ∧
    execAll (List.replicate k [Instr.lf, Instr.cr]).flatten s = .next (loop k (fun _ t => lineBreak t) s)

/-- ESC, the CSI introducer and any other byte after ESC (R72, R73, R74): the modes and the parse buffer, nothing else. -/
def Obligations.EscapeModes : Prop :=
  ∀ (s : State) (x : Byte), s.runnable = true →
    exec .escEntry s = .next { s with escMode := true, csiMode := false, pb := ⟨⟨0, 0, 0, 0⟩, 0, 0, false⟩ } ∧
    exec .escCsi s = .next { s with escMode := false, csiMode := true, pb := ⟨⟨0, 0, 0, 0⟩, 0, 0, false⟩ } ∧
    exec (.escAbort x) s = .next { s with escMode := false }

/-- A CSI digit accumulates with saturation (R75); a separator keeps the parameter, or drops a fifth (R76, R77). -/
def Obligations.CsiDigitAndSeparator : Prop :=
  ∀ (s : State) (d : BitVec 4), s.runnable = true →
    exec (.csiDigit d) s = .next { s with pb := { s.pb with
      acc := BitVec.ofNat 16 (min (s.pb.acc.toNat * 10 + d.toNat) 65535), dpend := true } } ∧
    ∃ ps n, exec .csiSep s = .next { s with pb := { params := ps, pcount := n, acc := 0, dpend := false } } ∧
      (s.pb.pcount < 4 → n = s.pb.pcount + 1 ∧
        ∀ i, i < 4 → ps.get i = if i = s.pb.pcount then s.pb.acc else s.pb.params.get i) ∧
      (¬s.pb.pcount < 4 → n = s.pb.pcount ∧ ps = s.pb.params)

/-- Decimal fields typed after the CSI introducer arrive as the operands a final byte reads: the first four, saturated, and a
last field only if it has a digit (R62, R75 to R78). -/
def Obligations.CsiOperandsAssembled : Prop :=
  ∀ (s : State) (fields : List (List (BitVec 4))), s.runnable = true → s.pb = ParseBuf.empty →
    (∀ f ∈ fields, ∀ d ∈ f, digitOk d = true) →
    ∃ t, execAll (typedFields fields) s = .next t ∧ t = { s with pb := t.pb } ∧
      t.operandCount = min 4 (if fields.getLast? = some [] then fields.length - 1 else fields.length) ∧
      ∀ i, i < t.operandCount → t.operand i = min (decimalValue (fields.getD i [])) 65535

/-- CUU, CUD, CUF and CUB move by operand 0, default 1, and stop at the grid's edge (R79 to R82); CUP takes a 1-based row and
column and clamps them (R83). Each ends the sequence as R78 says. -/
def Obligations.CursorMoves : Prop :=
  ∀ s : State, s.runnable = true →
    exec .csiCuu s = .next { s.csiDone with curRow := (max ((s.curRow : Int) - s.operandOr 0 1) 0).toNat } ∧
    exec .csiCud s = .next { s.csiDone with curRow := min (s.curRow + s.operandOr 0 1) (s.cfg.rows - 1) } ∧
    exec .csiCuf s = .next { s.csiDone with curCol := min (s.curCol + s.operandOr 0 1) (s.cfg.cols - 1) } ∧
    exec .csiCub s = .next { s.csiDone with curCol := (max ((s.curCol : Int) - s.operandOr 0 1) 0).toNat } ∧
    exec .csiCup s = .next { s.csiDone with
      curRow := (min (max ((s.operandOr 0 1 : Int) - 1) 0) ((s.cfg.rows : Int) - 1)).toNat
      curCol := (min (max ((s.operandOr 1 1 : Int) - 1) 0) ((s.cfg.cols : Int) - 1)).toNat }

/-- CSI s saves the cursor (R87); CSI u restores it, if one is saved, and keeps it saved (R88). -/
def Obligations.SaveAndRestoreCursor : Prop :=
  ∀ s : State, s.runnable = true →
    exec .csiScp s = .next { s.csiDone with savedCol := s.curCol, savedRow := s.curRow, savedValid := true } ∧
    (s.savedValid = true → exec .csiRcp s = .next { s.csiDone with curCol := s.savedCol, curRow := s.savedRow }) ∧
    (s.savedValid = false → exec .csiRcp s = .next s.csiDone)

/-- SGR applies its operands left to right to the two current colours (R86). -/
def Obligations.SgrSelectsColours : Prop :=
  ∀ s : State, s.runnable = true →
    let x := (List.range s.operandCount).foldl (fun x i => sgrColours s.cfg (s.operand i) x) (s.curFg, s.curBg)
    exec .csiSgr s = .next { s.csiDone with curFg := x.1, curBg := x.2 }

/-- ED blanks the grid in the current colours and homes the cursor when its one operand is 2, else has no effect (R84). -/
def Obligations.EraseDisplay : Prop :=
  ∀ s : State, s.runnable = true →
    (s.operandCount = 1 → s.operand 0 = 2 → Store.wf s.cfg s.back = true →
      ∃ bk, exec .csiEd s = .next { s.csiDone with back := bk, wrote := true, curCol := 0, curRow := 0 } ∧
        StoreEdit s.cfg (inGrid s.cfg) (fun _ _ => ⟨s.cfg.blankChar, s.curFg, s.curBg⟩) s.back bk) ∧
    (¬(s.operandCount = 1 ∧ s.operand 0 = 2) → exec .csiEd s = .next s.csiDone)

/-- EL blanks from the cursor to the end of its row in the current colours, whatever its operands (R85). -/
def Obligations.EraseLine : Prop :=
  ∀ s : State, s.runnable = true → Store.wf s.cfg s.back = true →
    ∃ bk, exec .csiEl s = .next { s.csiDone with back := bk, wrote := true } ∧
      StoreEdit s.cfg (fun r c => r = s.curRow ∧ s.curCol ≤ c ∧ c < s.cfg.cols)
        (fun _ _ => ⟨s.cfg.blankChar, s.curFg, s.curBg⟩) s.back bk

/-- An unknown final is discarded: the parser returns to NORMAL mode with an empty buffer, and nothing else changes (R89). -/
def Obligations.UnknownFinalDiscarded : Prop :=
  ∀ (s : State) (b : Byte), s.runnable = true →
    exec (.csiUnknown b) s = .next { s with pb := ⟨⟨0, 0, 0, 0⟩, 0, 0, false⟩, csiMode := false }

/-- PRINT (R90): the cursor's cell takes the character and both current colours; then the cursor advances, or the line breaks
at once, which in the last row scrolls. -/
def Obligations.PrintWritesCell : Prop :=
  ∀ (s : State) (b : Byte), s.runnable = true → Store.wf s.cfg s.back = true →
    ∃ bk, StoreEdit s.cfg (fun r c => r = s.curRow ∧ c = s.curCol) (fun _ _ => ⟨b, s.curFg, s.curBg⟩) s.back bk ∧
      (s.curCol + 1 < s.cfg.cols → exec (.print b) s = .next { s with back := bk, wrote := true, curCol := s.curCol + 1 }) ∧
      (s.curCol + 1 = s.cfg.cols → s.curRow ≠ s.cfg.rows - 1 →
        exec (.print b) s = .next { s with
          back := bk, wrote := true, curCol := 0, curRow := s.curRow + 1, skipCr := s.skipCr || s.cfg.wrapSkipCr }) ∧
      (s.curCol + 1 = s.cfg.cols → s.curRow = s.cfg.rows - 1 →
        ∃ bk', exec (.print b) s = .next { s with
            back := bk', wrote := true, curCol := 0, skipCr := s.skipCr || s.cfg.wrapSkipCr } ∧
          StoreEdit s.cfg (inGrid s.cfg)
            (fun r c => if r + 1 < s.cfg.rows then Store.cell s.cfg bk (r + 1) c else ⟨s.cfg.blankChar, s.curFg, s.curBg⟩) bk bk')

/-- BS (R91): one column left, stopping at column 0, and that cell blanked. -/
def Obligations.BackspaceBlanks : Prop :=
  ∀ (s : State) (b : Byte), s.runnable = true → Store.wf s.cfg s.back = true →
    ∃ bk, exec (.bs b) s = .next { s with back := bk, wrote := true, curCol := (max ((s.curCol : Int) - 1) 0).toNat } ∧
      StoreEdit s.cfg (fun r c => r = s.curRow ∧ c = (max ((s.curCol : Int) - 1) 0).toNat)
        (fun _ _ => ⟨s.cfg.blankChar, s.curFg, s.curBg⟩) s.back bk

/-- COLS printable bytes from column 0 above the last row fill that row, in the current colours, and leave the cursor at the
start of the next (R90's example, with the row's content). -/
def Obligations.PrintedRowWraps : Prop :=
  ∀ (s : State) (bs : List Byte), s.runnable = true → Store.wf s.cfg s.back = true → s.curCol = 0 →
    s.curRow + 1 < s.cfg.rows → bs.length = s.cfg.cols →
    ∃ bk, execAll (bs.map .print) s = .next { s with
        back := bk, wrote := true, curCol := 0, curRow := s.curRow + 1, skipCr := s.skipCr || s.cfg.wrapSkipCr } ∧
      StoreEdit s.cfg (fun r c => r = s.curRow ∧ c < s.cfg.cols) (fun _ c => ⟨bs.getD c 0, s.curFg, s.curBg⟩) s.back bk

/-- The four OPEN bytes (R94, R96 to R99): SNAP takes the rectangle's cells in row-major order, the image is drawn over them,
and every other byte of SNAP and of B stays. -/
def Obligations.MenuOpens : Prop :=
  ∀ (s : State) (i : Instr) (k : MenuKind), s.runnable = true → s.canonical = true →
    (i, k) ∈ [(Instr.openFg, MenuKind.fgPick), (.openBg, .bgPick), (.openStyle, .style), (.openTheme, .theme)] →
    let m := s.cfg.menu k
    ∃ bk sn, exec i s = .next { s with
        modal := some k, mdigN := false, mdigV := 0, snap := sn, back := bk
        wrote := s.wrote || decide (0 < m.w ∧ 0 < m.h) } ∧
      (∀ r c, inMenu m r c → snapAt s.cfg sn ((r - m.y0) * m.w + (c - m.x0)) = Store.cell s.cfg s.back r c) ∧
      (∀ a, 3 * (m.w * m.h) ≤ a → Memory.get (unlisted s.cfg .snap) sn a = Memory.get (unlisted s.cfg .snap) s.snap a) ∧
      StoreEdit s.cfg (inMenu m) (fun r c => m.image.getD ((r - m.y0) * m.w + (c - m.x0)) ⟨0, 0, 0⟩) s.back bk

/-- ESC in an open menu restores the rectangle from SNAP and closes the menu, and changes no colour and no style (R95, R100). -/
def Obligations.MenuCancels : Prop :=
  ∀ (s : State) (k : MenuKind), s.runnable = true → s.canonical = true → s.modal = some k →
    let m := s.cfg.menu k
    ∃ bk, exec .modalCancel s = .next { s with
        modal := none, mdigN := false, mdigV := 0, back := bk, wrote := s.wrote || decide (0 < m.w ∧ 0 < m.h) } ∧
      StoreEdit s.cfg (inMenu m) (fun r c => snapAt s.cfg s.snap ((r - m.y0) * m.w + (c - m.x0))) s.back bk

/-- A menu opened, sent any bytes it ignores and cancelled leaves B as the same data, and every register of the terminal. -/
def Obligations.OpenThenCancelRestores : Prop :=
  ∀ (s : State) (i : Instr) (bs : List Byte), s.runnable = true → s.canonical = true → s.modal = none →
    i ∈ [Instr.openFg, .openBg, .openStyle, .openTheme] →
    ∃ t, execAll (i :: bs.map .modalIgnore ++ [.modalCancel]) s = .next t ∧ t.back = s.back ∧
      t = { s with mdigN := false, mdigV := 0, snap := t.snap, wrote := t.wrote }

/-- A digit in a colour picker (R101): the first is held; the second completes a code up to 63 and closes the menu, or is
ignored. -/
def Obligations.PickDigitPicks : Prop :=
  ∀ (s : State) (k : MenuKind) (d : BitVec 4), s.runnable = true → s.canonical = true → s.modal = some k →
    (k = .fgPick ∨ k = .bgPick) →
    let m := s.cfg.menu k
    let code := 10 * s.mdigV.toNat + d.toNat
    (s.mdigN = false → exec (.pickDigit d) s = .next { s with mdigV := d, mdigN := true }) ∧
    (s.mdigN = true → 64 ≤ code → exec (.pickDigit d) s = .next s) ∧
    (s.mdigN = true → code ≤ 63 →
      ∃ bk, exec (.pickDigit d) s = .next { s with
          curFg := if k = .fgPick then BitVec.ofNat 6 code else s.curFg
          curBg := if k = .fgPick then s.curBg else BitVec.ofNat 6 code
          modal := none, mdigN := false, mdigV := 0, back := bk, wrote := s.wrote || decide (0 < m.w ∧ 0 < m.h) } ∧
        StoreEdit s.cfg (inMenu m) (fun r c => snapAt s.cfg s.snap ((r - m.y0) * m.w + (c - m.x0))) s.back bk)

/-- A backspace in a colour picker erases the digit held, if one is (R102); any other byte of a menu changes nothing (R105). -/
def Obligations.PickBackspaceAndIgnore : Prop :=
  ∀ (s : State) (b : Byte), s.runnable = true →
    (s.mdigN = true → exec (.pickBs b) s = .next { s with mdigN := false, mdigV := 0 }) ∧
    (s.mdigN = false → exec (.pickBs b) s = .next s) ∧
    exec (.modalIgnore b) s = .next s

/-- A digit in the style menu (R103): 0 to 5 select a style in R21's order and close the menu; 6 to 9 are ignored. -/
def Obligations.StyleSelected : Prop :=
  ∀ (s : State) (d : BitVec 4), s.runnable = true → s.canonical = true → s.modal = some .style →
    let m := s.cfg.menus.style
    let styles := [CursorStyle.block, .underline, .bar, .custom, .shaded, .arrow]
    (∀ st, styles[d.toNat]? = some st →
      ∃ bk, exec (.styleSelect d) s = .next { s with
          style := st, modal := none, mdigN := false, mdigV := 0, back := bk, wrote := s.wrote || decide (0 < m.w ∧ 0 < m.h) } ∧
        StoreEdit s.cfg (inMenu m) (fun r c => snapAt s.cfg s.snap ((r - m.y0) * m.w + (c - m.x0))) s.back bk) ∧
    (6 ≤ d.toNat → exec (.styleSelect d) s = .next s)

/-- A digit in the theme menu (R104): below NUM_THEMES it sets both current colours and closes the menu; else it is ignored. -/
def Obligations.ThemeSelected : Prop :=
  ∀ (s : State) (d : BitVec 4), s.runnable = true → s.canonical = true → s.modal = some .theme →
    let m := s.cfg.menus.theme
    (∀ fg bg, s.cfg.themes[d.toNat]? = some (fg, bg) →
      ∃ bk, exec (.themeSelect d) s = .next { s with
          curFg := fg, curBg := bg, modal := none, mdigN := false, mdigV := 0, back := bk
          wrote := s.wrote || decide (0 < m.w ∧ 0 < m.h) } ∧
        StoreEdit s.cfg (inMenu m) (fun r c => snapAt s.cfg s.snap ((r - m.y0) * m.w + (c - m.x0))) s.back bk) ∧
    (s.cfg.themes.length ≤ d.toNat → exec (.themeSelect d) s = .next s)

/-- While a menu is open no step but a reset moves the cursor, the saved cursor, the parser or the blink, draws the cursor
before the menu closes, opens another menu, sets a skip flag, or changes a cell of B outside the menu's rectangle but for the
cursor's, redrawn when the menu closes. The style changes in the style menu alone and the colours in the other menus alone,
and only as the menu closes. -/
def Obligations.MenuHoldsTheTerminal : Prop :=
  ∀ s t : State, s.modal ≠ none → s.rsu.rst = false → s.inputs.head? ≠ some (.rst true) → step s = .next t →
    t.curCol = s.curCol ∧ t.curRow = s.curRow ∧ t.savedCol = s.savedCol ∧ t.savedRow = s.savedRow ∧ t.savedValid = s.savedValid ∧
    t.escMode = s.escMode ∧ t.csiMode = s.csiMode ∧ t.pb = s.pb ∧ t.curVisible = s.curVisible ∧ t.blinkCnt = s.blinkCnt ∧
    (t.modal = s.modal ∧ t.drawn = false ∨ t.modal = none) ∧
    (t.skipCr = true → s.skipCr = true) ∧ (t.skipLf = true → s.skipLf = true) ∧
    (t.style ≠ s.style → s.modal = some .style ∧ t.modal = none) ∧
    (t.curFg ≠ s.curFg ∨ t.curBg ≠ s.curBg → s.modal ≠ some .style ∧ t.modal = none) ∧
    ∀ k r c, s.modal = some k → Store.wf s.cfg s.back = true → inGrid s.cfg r c → ¬inMenu (s.cfg.menu k) r c →
      ¬(t.modal = none ∧ r = s.curRow ∧ c = s.curCol) → Store.cell s.cfg t.back r c = Store.cell s.cfg s.back r c

/-- The two swap copies: the forced one always, the deferred one if a request pends, makes F equal to B and leaves no request
(R110, R111); a second copy changes nothing (R107). -/
def Obligations.SwapCopies : Prop :=
  ∀ s : State, s.runnable = true →
    exec .forcedCopy s = .next { s with front := s.back, swapReq := false } ∧
    (s.swapReq = true → exec .deferredCopy s = .next { s with front := s.back, swapReq := false }) ∧
    (s.swapReq = false → exec .deferredCopy s = .next s) ∧
    execAll [.forcedCopy, .forcedCopy] s = exec .forcedCopy s ∧
    (s.front = s.back → ∃ t, exec .forcedCopy s = .next t ∧ t.front = s.front)

/-- Who writes the frame stores: B changes only in a logic turn or a reset; F only by the deferred copy of line 0, a forced
copy, or a reset. A reset held too short leaves both at free values when it ends (log 26). -/
def Obligations.FrameStoreWriters : Prop :=
  ∀ s t : State, step s = .next t →
    (t.back ≠ s.back → ∃ e rest, s.inputs = e :: rest ∧ (e = .logic ∨ (∃ b, e = .logicPush b) ∨ e = .rst true ∨
      e = .rst false ∧ s.rsu.rst = true ∧ (s.rsu.heldL < 2 ∨ s.rsu.heldR < 2))) ∧
    (t.front ≠ s.front → ∃ e rest, s.inputs = e :: rest ∧
      (e = .render ∧ s.line = 0 ∧ s.swapReq = true ∧ t.front = s.back ∧ t.back = s.back ∨
       (e = .logic ∨ ∃ b, e = .logicPush b) ∧ (s.cfg.swapOnByte = .forced ∨ s.cfg.swapOnBlink = .forced) ∧ t.front = t.back ∨
       e = .rst true ∧ t.front = (State.resetOf s.cfg).front ∨
       e = .rst false ∧ s.rsu.rst = true ∧ (s.rsu.heldL < 2 ∨ s.rsu.heldR < 2)))

/-- A logic turn that changed B ends with its policy's swap action: a request, or B already in F (R108, R109). -/
def Obligations.EditsArePublished : Prop :=
  ∀ (s t : State) (rest : List Event), s.inputs = .logic :: rest → step s = .next t → t.back ≠ s.back →
    ((if s.pendTick then s.cfg.swapOnBlink else s.cfg.swapOnByte) = .deferred → t.swapReq = true ∧ t.front = s.front) ∧
    ((if s.pendTick then s.cfg.swapOnBlink else s.cfg.swapOnByte) = .forced → t.swapReq = false ∧ t.front = t.back)

/-- Under DEFERRED for both, F does not change from a line after the first to the end of its frame, whatever the logic agent
and the host do meanwhile, short of a reset. -/
def Obligations.DeferredFrameIsStable : Prop :=
  ∀ (n : Nat) (s t : State), s.cfg.swapOnByte = .deferred → s.cfg.swapOnBlink = .deferred → s.line ≠ 0 → s.rsu.rst = false →
    .rst true ∉ s.inputs.take n → s.line + (s.inputs.take n).count .render ≤ s.cfg.frameLines →
    Host.Core.run Sys2Proof.core n s = .next t → t.front = s.front

/-- Drawing the cursor and removing it leaves B as the same data, so every cell's character and both colours (R119). -/
def Obligations.OverlayNonDestructive : Prop :=
  ∀ s : State, s.runnable = true → Store.wf s.cfg s.back = true →
    overlayRemove (overlayDraw s) = { s with
      wrote := true, drawn := false, ovChar := Store.chrAt s.cfg s.back s.curRow s.curCol
      ovFg := Store.fgOf s.cfg s.back s.curRow s.curCol, ovRow := s.curRow, ovCol := s.curCol }

/-- TICK (R120): nothing but the pending flag while a menu is open; else the counter counts, and at BLINK_TICKS restarts and
toggles the cursor, which is drawn (R117) or removed (R118) and the change published by SWAP_ON_BLINK. The two clauses
about states that break R32 (7) show and hide nothing. That the step clears the pending flag with a menu open too is the
model's reading of R120 and R141 together (log 20). -/
def Obligations.TickStep : Prop :=
  ∀ s : State, s.runnable = true →
    let u := { s with pendTick := false, wrote := false, popped := none }
    (s.modal ≠ none → exec .tick s = .next u) ∧
    (s.modal = none → s.blinkCnt + 1 < s.cfg.blinkTicks → exec .tick s = .next { u with blinkCnt := s.blinkCnt + 1 }) ∧
    (s.modal = none → s.cfg.blinkTicks ≤ s.blinkCnt + 1 →
      (s.curVisible = false → s.drawn = false → Store.wf s.cfg s.back = true →
        ∃ bk, exec .tick s = .next (State.published s.cfg.swapOnBlink { u with
            blinkCnt := 0, curVisible := true, drawn := true, back := bk
            ovChar := Store.chrAt s.cfg s.back s.curRow s.curCol, ovFg := Store.fgOf s.cfg s.back s.curRow s.curCol
            ovRow := s.curRow, ovCol := s.curCol }) ∧
          StoreEdit s.cfg (fun r c => r = s.curRow ∧ c = s.curCol)
            (fun r c => ⟨glyphOf s.cfg s.style, s.curFg, Store.bgOf s.cfg s.back r c⟩) s.back bk) ∧
      (s.curVisible = true → s.drawn = true → Store.wf s.cfg s.back = true →
        ∃ bk, exec .tick s = .next (State.published s.cfg.swapOnBlink { u with
            blinkCnt := 0, curVisible := false, drawn := false, back := bk }) ∧
          StoreEdit s.cfg (fun r c => r = s.ovRow ∧ c = s.ovCol)
            (fun r c => ⟨s.ovChar, s.ovFg, Store.bgOf s.cfg s.back r c⟩) s.back bk) ∧
      (s.curVisible ≠ s.drawn → exec .tick s = .next { u with blinkCnt := 0, curVisible := !s.curVisible }))

/-- With no menu open the cursor's visibility toggles once every BLINK_TICKS TICK steps, and the counter counts modulo
BLINK_TICKS; the cursor, the colours and the parser stay. -/
def Obligations.BlinkPeriod : Prop :=
  ∀ (n : Nat) (s : State), s.runnable = true → s.modal = none →
    ∃ t, execAll (List.replicate n .tick) s = .next t ∧
      t.blinkCnt = (s.blinkCnt + n) % s.cfg.blinkTicks ∧
      t.curVisible = (s.curVisible ^^ decide ((s.blinkCnt + n) / s.cfg.blinkTicks % 2 = 1)) ∧
      t.curCol = s.curCol ∧ t.curRow = s.curRow ∧ t.curFg = s.curFg ∧ t.curBg = s.curBg ∧ t.style = s.style ∧ t.pb = s.pb ∧
      t.modal = none

/-- LINE (R133): it waits with no free buffer; else it takes one, at line 0 does the deferred swap and samples the blink phase,
encodes the scanline's three planes from F, submits the buffer and counts the line. -/
def Obligations.LineStep : Prop :=
  ∀ s : State, s.runnable = true →
    (s.skFree = [] → exec .line s = .next s) ∧
    ∀ id rest, s.skFree = id :: rest →
      let fr := if s.line = 0 ∧ s.swapReq = true then s.back else s.front
      let phase := if s.line = 0 then s.curVisible else s.blinkPhase
      let row := min (s.line / s.cfg.glyphH) (s.cfg.rows - 1)
      let gr := s.line % s.cfg.glyphH
      exec .line s = .next { s with
        skFree := rest, front := fr, blinkPhase := phase, swapReq := s.swapReq && decide (s.line ≠ 0)
        submitted := ⟨id, encodePlane s.cfg fr 0 row gr phase ++ encodePlane s.cfg fr 1 row gr phase
          ++ encodePlane s.cfg fr 2 row gr phase⟩ :: s.submitted
        line := (s.line + 1) % s.cfg.frameLines }

/-- A sink buffer holds three lanes of 4*COLS words, lane p at offset p*4*COLS and in EncodePlane's order (R132). -/
def Obligations.ScanlineLayout : Prop :=
  ∀ (cfg : Config) (f : Store) (row gr : Nat) (phase : Bool), configWf cfg = true →
    (encodeLine cfg f row gr phase).length = 12 * cfg.cols ∧
    ∀ p j, p < 3 → j < 4 * cfg.cols →
      (encodePlane cfg f p row gr phase).length = 4 * cfg.cols ∧
      (encodeLine cfg f row gr phase)[p * 4 * cfg.cols + j]? = (encodePlane cfg f p row gr phase)[j]?

/-- The pixels of a scanline: word j of lane p carries pixels 2j and 2j+1 of channel p, each the cell's foreground or
background level of that channel by the glyph row's bit, the left pixel in bits 9..0 at parity 0. -/
def Obligations.EncodedPixels : Prop :=
  ∀ (cfg : Config) (f : Store) (row gr : Nat) (phase : Bool) (p j : Nat), configWf cfg = true → p < 3 → j < 4 * cfg.cols →
    let c := j / 4
    let pat := glyphPattern cfg (Store.chrAt cfg f row c) gr (attrAt cfg row c).1 (attrAt cfg row c).2 phase
    let level := fun k => if pat.getLsbD k then chan (Store.fgOf cfg f row c) p else chan (Store.bgOf cfg f row c) p
    (encodeLine cfg f row gr phase)[p * 4 * cfg.cols + j]? =
      some (0#12 ++ cfg.tmdsOdd[(level (2 * (j % 4) + 1)).toFin] ++ cfg.tmdsEven[(level (2 * (j % 4))).toFin])

/-- The overrides of the glyph row (R127): the blink override wins over the underline, which acts on the last glyph row. -/
def Obligations.GlyphOverride : Prop :=
  ∀ (cfg : Config) (ch : Byte) (gr : Nat) (ul bk phase : Bool),
    (bk = true → phase = false → glyphPattern cfg ch gr ul bk phase = 0x00) ∧
    (¬(bk = true ∧ phase = false) → ul = true → gr = cfg.glyphH - 1 → glyphPattern cfg ch gr ul bk phase = 0xFF) ∧
    (¬(bk = true ∧ phase = false) → ¬(ul = true ∧ gr = cfg.glyphH - 1) → glyphPattern cfg ch gr ul bk phase = fontAt cfg ch gr)

/-- Past line 0 the buffer a LINE step submits depends on F, the line, the blink phase and the configuration alone: two states
that agree on them submit the same words, however they differ in B, the cursor, the parser or the ring. -/
def Obligations.LineReadsOnlyFront : Prop :=
  ∀ (s s' : State) (id id' : Nat) (rest rest' : List Nat), s.runnable = true → s'.runnable = true →
    s.cfg = s'.cfg → s.front = s'.front → s.line = s'.line → s.blinkPhase = s'.blinkPhase → s.line ≠ 0 →
    s.skFree = id :: rest → s'.skFree = id' :: rest' →
    ∃ t t' ws, exec .line s = .next t ∧ exec .line s' = .next t' ∧
      t.submitted = ⟨id, ws⟩ :: s.submitted ∧ t'.submitted = ⟨id', ws⟩ :: s'.submitted ∧ ws.length = 12 * s.cfg.cols

/-- RING_PUSH (R136): a full ring drops the byte and raises the flag; else the byte is stored at the head. -/
def Obligations.RingPush : Prop :=
  ∀ (s : State) (b : Byte), s.runnable = true →
    (s.ring.count = s.cfg.ringN → exec (.ringPush b) s = .next { s with ring := { s.ring with overflow := true } }) ∧
    (s.ring.count ≠ s.cfg.ringN → exec (.ringPush b) s = .next { s with ring := { s.ring with
      buf := s.ring.buf.set s.ring.head b, head := (s.ring.head + 1) % s.cfg.ringN, count := s.ring.count + 1 } })

/-- RING_POP (R137): nothing from an empty ring; else the byte at the tail, and the overflow flag cleared once the free space
exceeds a quarter of the capacity. -/
def Obligations.RingPop : Prop :=
  ∀ s : State, s.runnable = true →
    (s.ring.count = 0 → exec .ringPop s = .next { s with popped := none }) ∧
    (s.ring.count ≠ 0 → exec .ringPop s = .next { s with
      popped := some (s.ring.buf.getD s.ring.tail 0)
      ring := { s.ring with
        tail := (s.ring.tail + 1) % s.cfg.ringN, count := s.ring.count - 1
        overflow := s.ring.overflow && decide (4 * (s.cfg.ringN - (s.ring.count - 1)) ≤ s.cfg.ringN) } })

/-- The ring is a queue of RING_N bytes: a push appends unless it is full, a pop answers and removes the oldest (R139). -/
def Obligations.RingIsQueue : Prop :=
  ∀ (s : State) (b : Byte), s.runnable = true → s.ring.linked s.cfg.ringN = true →
    (∃ t, exec (.ringPush b) s = .next t ∧ t.ring.linked s.cfg.ringN = true ∧
      t.ring.contents s.cfg.ringN = if (s.ring.contents s.cfg.ringN).length < s.cfg.ringN
        then s.ring.contents s.cfg.ringN ++ [b] else s.ring.contents s.cfg.ringN) ∧
    (∃ t, exec .ringPop s = .next t ∧ t.ring.linked s.cfg.ringN = true ∧
      t.popped = (s.ring.contents s.cfg.ringN).head? ∧ t.ring.contents s.cfg.ringN = (s.ring.contents s.cfg.ringN).tail)

/-- A logic turn with a push in the same cycle is the turn, whatever it does, and then the push; so a push in the cycle of a pop
is accepted even by a full ring (R139). That one event stands for such a cycle, a tick's or an idle turn's too, is the model's
reading (log 14). That the byte is lost where the logic domain is not out of reset is R157 while rst is 1, and from the fall of
rst to the domain's release the model's reading of R157 and R158 (log 22): R136 lets the host push at any time. -/
def Obligations.SameCyclePopThenPush : Prop :=
  ∀ (s : State) (b : Byte) (rest : List Event), s.inv = true → s.inputs = .logicPush b :: rest →
    (∃ u, step { s with inputs := .logic :: rest } = .next u ∧
      (portsRun s = true → ∃ t, exec (.ringPush b) u = .next t ∧ step s = .next t) ∧
      (portsRun s = false → step s = .next u)) ∧
    (logicRuns s = true → s.pendTick = false → s.ring.count = s.cfg.ringN →
      ∃ t, step s = .next t ∧ t.ring.contents s.cfg.ringN = (s.ring.contents s.cfg.ringN).tail ++ [b] ∧
        t.ring.count = s.cfg.ringN)

/-- The tick input (R141): a pulse sets the pending flag, a second is merged with it, the TICK step clears it, reset clears it. -/
def Obligations.TicksMerge : Prop :=
  (∀ (s : State) (rest : List Event), s.legal = true → portsRun s = true → s.inputs = .tickPulse :: rest →
    step s = .next { s with pendTick := true, inputs := rest }) ∧
  (∀ (s : State) (rest : List Event), s.legal = true → portsRun s = true → s.inputs = .tickPulse :: .tickPulse :: rest →
    Host.Core.run Sys2Proof.core 2 s = .next { s with pendTick := true, inputs := rest }) ∧
  (∀ s : State, s.runnable = true → ∃ t, exec .tick s = .next t ∧ t.pendTick = false) ∧
  ∀ cfg : Config, (State.resetOf cfg).pendTick = false

/-- The host's other ports out of reset: a byte pushed, a sink buffer offered (of SKW bits), and idling when nothing comes. -/
def Obligations.HostPorts : Prop :=
  ∀ (s : State) (rest : List Event), s.legal = true →
    (∀ b, portsRun s = true → s.inputs = .push b :: rest →
      ∃ t, exec (.ringPush b) { s with inputs := rest } = .next t ∧ step s = .next t) ∧
    (∀ id, s.inputs = .sinkFree id :: rest → id < 2 ^ s.cfg.skw → step s = .next { s with inputs := rest, skFree := s.skFree ++ [id] }) ∧
    (∀ id, s.inputs = .sinkFree id :: rest → 2 ^ s.cfg.skw ≤ id → step s = .refused .handleTooWide) ∧
    (renderRuns s = true → s.inputs = .render :: rest → ∃ t, exec .line { s with inputs := rest } = .next t ∧ step s = .next t) ∧
    (s.inputs = [] → step s = .next s)

/-- Reset (R157): right after it, from the moment rst rises in any state, and while it is 1, every register holds R157's value,
B is blank in the default colours and F equals B. -/
def Obligations.ResetValuesHold : Prop :=
  (∀ cfg : Config, configWf cfg = true → ResetValues cfg (State.resetOf cfg)) ∧
  (∀ (s : State) (rest : List Event), s.legal = true → s.rsu.rst = false → s.inputs = .rst true :: rest →
    ∃ t, step s = .next t ∧ t.rsu.rst = true ∧ ResetValues s.cfg t) ∧
  ∀ s : State, s.inv = true → s.rsu.rst = true → ResetValues s.cfg s

/-- Reset sequencing (R158): while rst is 1 no step of an agent and no port changes a register; rst is released after two cycles
of each clock; released sooner, it leaves the registers at free values, which meet the invariant and are otherwise any that do
(93 section 1; log 12, log 26); an agent whose own domain or whose partner's is in reset takes no step; and clock edges alone
bring both agents to run. The two-flop synchronisers are the model's reading of R158 (log 12). -/
def Obligations.ResetSequencing : Prop :=
  (∀ (s t : State) (e : Event) (rest : List Event), s.rsu.rst = true → s.inputs = e :: rest → e ≠ .rst false → step s = .next t →
    t = { s with inputs := rest, skFree := t.skFree, rsu := t.rsu } ∧ t.rsu.rst = true) ∧
  (∀ (s : State) (rest : List Event), s.legal = true → s.rsu.rst = true → s.inputs = .rst false :: rest →
    (2 ≤ s.rsu.heldL → 2 ≤ s.rsu.heldR →
      step s = .next { s with inputs := rest, rsu := { s.rsu with rst := false, heldL := 0, heldR := 0 } }) ∧
    (s.rsu.heldL < 2 ∨ s.rsu.heldR < 2 →
      step s = .next (shortReset (Config.freeState s.freeDraws) { s with inputs := rest }))) ∧
  (∀ x s : State, configWf s.cfg = true → (shortReset x s).inv = true ∧ (shortReset x s).rsu.rst = false ∧
    (shortReset x s).cfg = s.cfg ∧ (shortReset x s).skFree = s.skFree ∧ (shortReset x s).inputs = s.inputs) ∧
  (∀ x s : State, x.inv = true → x.cfg = s.cfg → x.rsu.rst = false →
    shortReset x s = { x with
      skFree := s.skFree, inputs := s.inputs, submitted := [], freeDraws := s.freeDraws + 1
      rsu := { x.rsu with heldL := 0, heldR := 0, short := true } }) ∧
  (∀ s : State, s.inv = true → (logicRuns s = true → s.rsu.relR.ff2 = true) ∧ (renderRuns s = true → s.rsu.relL.ff2 = true)) ∧
  (∀ (s : State) (e : Event) (rest : List Event), s.inv = true → s.inputs = e :: rest → (e = .logic ∨ e = .render) →
    (s.rsu.rst = true ∨ s.rsu.relL.ff2 = false ∨ s.rsu.relR.ff2 = false) → step s = .next { s with inputs := rest }) ∧
  ∀ (s : State) (rest : List Event), s.legal = true → s.rsu.rst = false →
    s.inputs = [.clkL, .clkR, .clkL, .clkR, .clkL, .clkR, .clkL, .clkR] ++ rest →
    ∃ t, Host.Core.run Sys2Proof.core 8 s = .next t ∧ logicRuns t = true ∧ renderRuns t = true ∧
      t = { s with inputs := rest, rsu := t.rsu }

/-- The linear addresses of R45: each element of each store where the table puts it, and no other address. That a read at
another address or of another width answers noSuchAddress is the model's choice (log 25). -/
def Obligations.MemReadElements : Prop :=
  ∀ s : State, configWf s.cfg = true →
    (∀ r c, inGrid s.cfg r c →
      memRead s .backChr (r * s.cfg.cols + c) 1 = .ok ((Store.chrAt s.cfg s.back r c).setWidth 32) ∧
      memRead s .frontChr (r * s.cfg.cols + c) 1 = .ok ((Store.chrAt s.cfg s.front r c).setWidth 32)) ∧
    (∀ p r w, p < 3 → r < s.cfg.rows → w < s.cfg.cols / 8 →
      memRead s .backPl (4 * ((p * s.cfg.rows + r) * (s.cfg.cols / 8) + w)) 4 = .ok (Store.plAt s.cfg s.back p r w) ∧
      memRead s .frontPl (4 * ((p * s.cfg.rows + r) * (s.cfg.cols / 8) + w)) 4 = .ok (Store.plAt s.cfg s.front p r w)) ∧
    (∀ (ch : Byte) gr, gr < s.cfg.glyphH →
      memRead s .font (ch.toNat * s.cfg.glyphH + gr) 1 = .ok ((fontAt s.cfg ch gr).setWidth 32)) ∧
    (∀ (cn fn : Nibble) (k : Nat), k < 2 →
      memRead s .lut (4 * (2 * (16 * cn.toNat + fn.toNat) + k)) 4 = .ok (lutWord s.cfg cn fn k)) ∧
    (∀ m j, j < (s.cfg.menu m).w * (s.cfg.menu m).h →
      memRead s .snap (j * 3) 1 = .ok ((snapAt s.cfg s.snap j).ch.setWidth 32) ∧
      (∃ x : Byte, memRead s .snap (j * 3 + 1) 1 = .ok (x.setWidth 32) ∧ x.setWidth 6 = (snapAt s.cfg s.snap j).fg) ∧
      ∃ x : Byte, memRead s .snap (j * 3 + 2) 1 = .ok (x.setWidth 32) ∧ x.setWidth 6 = (snapAt s.cfg s.snap j).bg) ∧
    (∀ a n, ¬(n = 1 ∧ a < s.cfg.rows * s.cfg.cols) →
      memRead s .backChr a n = .error (.noSuchAddress .backChr a) ∧ memRead s .frontChr a n = .error (.noSuchAddress .frontChr a)) ∧
    (∀ a n, ¬(n = 4 ∧ a % 4 = 0 ∧ a < 12 * s.cfg.rows * (s.cfg.cols / 8)) →
      memRead s .backPl a n = .error (.noSuchAddress .backPl a) ∧ memRead s .frontPl a n = .error (.noSuchAddress .frontPl a)) ∧
    (∀ a n, ¬(n = 1 ∧ a < 256 * s.cfg.glyphH) → memRead s .font a n = .error (.noSuchAddress .font a)) ∧
    (∀ a n, ¬(n = 4 ∧ a % 4 = 0 ∧ a < 2048) → memRead s .lut a n = .error (.noSuchAddress .lut a)) ∧
    (∀ a n, (n ≠ 1 ∨ ∀ m, 3 * ((s.cfg.menu m).w * (s.cfg.menu m).h) ≤ a) → memRead s .snap a n = .error (.noSuchAddress .snap a))

/-- MemWrite and MemRead (R45): an element written reads back, every other element of that store reads as before, every other
store and every register is the same data, but that a write to B sets the step-local flag (R29), and the ROMs refuse under a
name of the model's own (log 25). -/
def Obligations.MemWriteReadsBack : Prop :=
  ∀ (s : State) (sp : Space) (a n : Nat) (v : Word), s.canonical = true → sp.has s.cfg a n = true →
    ((sp = .font ∨ sp = .lut) → memWrite s sp a n v = .error (.readOnlyStore sp)) ∧
    (sp ≠ .font → sp ≠ .lut →
      ∃ t, memWrite s sp a n v = .ok t ∧ t.canonical = true ∧
        memRead t sp a n = .ok (if n = 4 then v else (v.setWidth 8).setWidth 32) ∧
        (∀ a', a' ≠ a → memRead t sp a' n = memRead s sp a' n) ∧
        t = { s with
          back := { chr := if sp = .backChr then t.back.chr else s.back.chr, pl := if sp = .backPl then t.back.pl else s.back.pl }
          front := { chr := if sp = .frontChr then t.front.chr else s.front.chr, pl := if sp = .frontPl then t.front.pl else s.front.pl }
          snap := if sp = .snap then t.snap else s.snap
          wrote := s.wrote || decide (sp = .backChr ∨ sp = .backPl) })
end

