-- ==== Sys2Proof/Laws/Memory.lean ====
section
/-! SUPPORT. Laws of the canonical sparse memory: reading after a write, the frame of a write, every operation keeps the
canonical form, and equal contents are equal data. -/

namespace Sys2Proof.Machine

variable {d : Nat → Byte} {size lo a b : Nat} {m m' : Memory} {v : Byte}

@[simp] theorem Memory.get_nil : Memory.get d [] a = d a := rfl

@[simp] theorem Memory.get_cons (k : Nat) (w : Byte) : Memory.get d ((k, w) :: m) a = if a = k then w else Memory.get d m a := rfl

@[simp] theorem Memory.wfFrom_nil : Memory.wfFrom d size lo [] = true := rfl

theorem Memory.wfFrom_cons (k : Nat) (w : Byte) :
    Memory.wfFrom d size lo ((k, w) :: m) = true ↔ lo ≤ k ∧ k < size ∧ w ≠ d k ∧ Memory.wfFrom d size (k + 1) m = true := by
  simp [Memory.wfFrom, and_assoc]

theorem Memory.wfFrom_mono {lo' : Nat} (h : Memory.wfFrom d size lo m = true) (hl : lo' ≤ lo) : Memory.wfFrom d size lo' m = true := by
  cases m with
  | nil => rfl
  | cons x m =>
    obtain ⟨k, w⟩ := x
    rw [Memory.wfFrom_cons] at h ⊢
    exact ⟨by omega, h.2⟩

/-- Below the form's first address nothing is listed. -/
theorem Memory.get_below (h : Memory.wfFrom d size lo m = true) (ha : a < lo) : Memory.get d m a = d a := by
  induction m generalizing lo with
  | nil => rfl
  | cons x m ih =>
    obtain ⟨k, w⟩ := x
    rw [Memory.wfFrom_cons] at h
    rw [Memory.get_cons, if_neg (by omega)]
    exact ih h.2.2.2 (by omega)

/-- Outside the store nothing is listed. -/
theorem Memory.get_above (h : Memory.wfFrom d size lo m = true) (ha : size ≤ a) : Memory.get d m a = d a := by
  induction m generalizing lo with
  | nil => rfl
  | cons x m ih =>
    obtain ⟨k, w⟩ := x
    rw [Memory.wfFrom_cons] at h
    rw [Memory.get_cons, if_neg (by omega)]
    exact ih h.2.2.2

/-- Everything a write does to reads. -/
theorem Memory.get_set (h : Memory.wfFrom d size lo m = true) :
    Memory.get d (Memory.set d m a v) b = if b = a then v else Memory.get d m b := by
  induction m generalizing lo with
  | nil =>
    unfold Memory.set
    split
    · rename_i hv; split; simp_all; simp_all
    · simp
  | cons x m ih =>
    obtain ⟨k, w⟩ := x
    rw [Memory.wfFrom_cons] at h
    have ihm := ih h.2.2.2
    have hb := Memory.get_below (a := b) h.2.2.2
    unfold Memory.set
    split_ifs <;> simp_all <;> grind

/-- A write keeps the canonical form. -/
theorem Memory.wfFrom_set (h : Memory.wfFrom d size lo m = true) (hlo : lo ≤ a) (ha : a < size) :
    Memory.wfFrom d size lo (Memory.set d m a v) = true := by
  induction m generalizing lo with
  | nil =>
    unfold Memory.set
    split
    · rfl
    · rw [Memory.wfFrom_cons]; exact ⟨hlo, ha, by assumption, rfl⟩
  | cons x m ih =>
    obtain ⟨k, w⟩ := x
    rw [Memory.wfFrom_cons] at h
    unfold Memory.set
    split_ifs with h1 h2 h3 h4
    · rw [Memory.wfFrom_cons]; exact h
    · rw [Memory.wfFrom_cons, Memory.wfFrom_cons]; exact ⟨hlo, ha, h2, by omega, h.2⟩
    · exact Memory.wfFrom_mono h.2.2.2 (by omega)
    · rw [Memory.wfFrom_cons]; subst h3; exact ⟨hlo, ha, h4, h.2.2.2⟩
    · rw [Memory.wfFrom_cons]; exact ⟨h.1, h.2.1, h.2.2.1, ih h.2.2.2 (by omega)⟩

theorem Memory.wf_set (h : Memory.wf d size m = true) (ha : a < size) : Memory.wf d size (Memory.set d m a v) = true :=
  Memory.wfFrom_set h (Nat.zero_le _) ha

theorem Memory.wf_nil : Memory.wf d size [] = true := rfl

/-- Equal contents in canonical form are equal data. -/
theorem Memory.ext_from (h : Memory.wfFrom d size lo m = true) (h' : Memory.wfFrom d size lo m' = true)
    (hg : ∀ x, Memory.get d m x = Memory.get d m' x) : m = m' := by
  induction m generalizing lo m' with
  | nil =>
    cases m' with
    | nil => rfl
    | cons y m' =>
      obtain ⟨k', w'⟩ := y
      rw [Memory.wfFrom_cons] at h'
      have := hg k'
      simp at this
      exact absurd this.symm h'.2.2.1
  | cons x m ih =>
    obtain ⟨k, w⟩ := x
    rw [Memory.wfFrom_cons] at h
    cases m' with
    | nil =>
      have := hg k
      simp at this
      exact absurd this h.2.2.1
    | cons y m' =>
      obtain ⟨k', w'⟩ := y
      rw [Memory.wfFrom_cons] at h'
      have hk : k = k' := by
        rcases Nat.lt_trichotomy k k' with hlt | heq | hgt
        · have := hg k
          rw [Memory.get_cons, if_pos rfl, Memory.get_cons, if_neg (by omega), Memory.get_below h'.2.2.2 (by omega)] at this
          exact absurd this h.2.2.1
        · exact heq
        · have := hg k'
          rw [Memory.get_cons, if_neg (by omega), Memory.get_cons, if_pos rfl, Memory.get_below h.2.2.2 (by omega)] at this
          exact absurd this.symm h'.2.2.1
      subst hk
      have hw : w = w' := by simpa using hg k
      subst hw
      congr 1
      apply ih h.2.2.2 h'.2.2.2
      intro x
      by_cases hx : x = k
      · subst hx
        rw [Memory.get_below h.2.2.2 (by omega), Memory.get_below h'.2.2.2 (by omega)]
      · have := hg x
        rwa [Memory.get_cons, if_neg hx, Memory.get_cons, if_neg hx] at this

theorem Memory.ext (h : Memory.wf d size m = true) (h' : Memory.wf d size m' = true)
    (hg : ∀ x, Memory.get d m x = Memory.get d m' x) : m = m' := Memory.ext_from h h' hg

@[simp] theorem loop_zero {α : Type} (f : Nat → α → α) (x : α) : loop 0 f x = x := rfl

theorem loop_succ {α : Type} (n : Nat) (f : Nat → α → α) (x : α) : loop (n + 1) f x = f n (loop n f x) := rfl

/-- What holds at the start and is kept by each iteration holds at the end. -/
theorem loop_keeps {α : Type} (P : α → Prop) (n : Nat) (f : Nat → α → α) (x : α) (h0 : P x)
    (hs : ∀ k y, k < n → P y → P (f k y)) : P (loop n f x) := by
  induction n with
  | zero => exact h0
  | succ n ih =>
    rw [loop_succ]
    exact hs n _ (Nat.lt_succ_self n) (ih fun k y hk hy => hs k y (Nat.lt_succ_of_lt hk) hy)

/-- The loop's invariant with its index: what holds of 0 iterations and goes from k to k+1 holds of n. -/
theorem loop_induct {α : Type} (P : Nat → α → Prop) (n : Nat) (f : Nat → α → α) (x : α) (h0 : P 0 x)
    (hs : ∀ k y, k < n → P k y → P (k + 1) (f k y)) : P n (loop n f x) := by
  induction n with
  | zero => exact h0
  | succ n ih =>
    rw [loop_succ]
    exact hs n _ (Nat.lt_succ_self n) (ih fun k y hk hy => hs k y (Nat.lt_succ_of_lt hk) hy)

/-- The word a write of four bytes leaves. -/
theorem Memory.setWord_eq (w : Word) : Memory.setWord d m a w =
    Memory.set d (Memory.set d (Memory.set d (Memory.set d m (a + 0) (w.extractLsb' 0 8)) (a + 1) (w.extractLsb' 8 8))
      (a + 2) (w.extractLsb' 16 8)) (a + 3) (w.extractLsb' 24 8) := rfl

theorem Memory.wf_setWord {w : Word} (h : Memory.wf d size m = true) (ha : a + 3 < size) :
    Memory.wf d size (Memory.setWord d m a w) = true := by
  rw [Memory.setWord_eq]
  exact Memory.wf_set (Memory.wf_set (Memory.wf_set (Memory.wf_set h (by omega)) (by omega)) (by omega)) ha

/-- Everything a word write does to byte reads. -/
theorem Memory.get_setWord {w : Word} (h : Memory.wf d size m = true) (ha : a + 3 < size) :
    Memory.get d (Memory.setWord d m a w) b =
      if a ≤ b ∧ b < a + 4 then w.extractLsb' (8 * (b - a)) 8 else Memory.get d m b := by
  have h0 := Memory.wf_set (v := w.extractLsb' 0 8) h (a := a + 0) (by omega)
  have h1 := Memory.wf_set (v := w.extractLsb' 8 8) h0 (a := a + 1) (by omega)
  have h2 := Memory.wf_set (v := w.extractLsb' 16 8) h1 (a := a + 2) (by omega)
  rw [Memory.setWord_eq, Memory.get_set h2, Memory.get_set h1, Memory.get_set h0, Memory.get_set h]
  by_cases hb : a ≤ b ∧ b < a + 4
  · obtain ⟨j, rfl⟩ : ∃ j, b = a + j := ⟨b - a, by omega⟩
    have hj : j < 4 := by omega
    rw [if_pos hb]
    interval_cases j <;> simp
  · rw [if_neg hb, if_neg (by omega), if_neg (by omega), if_neg (by omega), if_neg (by omega)]

/-- The four bytes of a word, put together again. -/
theorem word_of_bytes (w : Word) :
    w.extractLsb' 24 8 ++ w.extractLsb' 16 8 ++ w.extractLsb' 8 8 ++ w.extractLsb' 0 8 = w := by
  apply BitVec.eq_of_getLsbD_eq
  intro i hi
  simp only [BitVec.getLsbD_append, BitVec.getLsbD_extractLsb']
  grind

theorem Memory.getWord_setWord_same {w : Word} (h : Memory.wf d size m = true) (ha : a + 3 < size) :
    Memory.getWord d (Memory.setWord d m a w) a = w := by
  unfold Memory.getWord
  rw [Memory.get_setWord h ha, Memory.get_setWord h ha, Memory.get_setWord h ha, Memory.get_setWord h ha,
    if_pos (by omega), if_pos (by omega), if_pos (by omega), if_pos (by omega)]
  have e3 : 8 * (a + 3 - a) = 24 := by omega
  have e2 : 8 * (a + 2 - a) = 16 := by omega
  have e1 : 8 * (a + 1 - a) = 8 := by omega
  have e0 : 8 * (a - a) = 0 := by omega
  rw [e3, e2, e1, e0]
  exact word_of_bytes w

theorem Memory.getWord_setWord_other {w : Word} (h : Memory.wf d size m = true) (ha : a + 3 < size)
    (hb : b + 4 ≤ a ∨ a + 4 ≤ b) : Memory.getWord d (Memory.setWord d m a w) b = Memory.getWord d m b := by
  unfold Memory.getWord
  rw [Memory.get_setWord h ha, Memory.get_setWord h ha, Memory.get_setWord h ha, Memory.get_setWord h ha,
    if_neg (by omega), if_neg (by omega), if_neg (by omega), if_neg (by omega)]

/-- A byte of a word read. -/
theorem Memory.getWord_byte {j : Nat} (hj : j < 4) :
    (Memory.getWord d m a).extractLsb' (8 * j) 8 = Memory.get d m (a + j) := by
  unfold Memory.getWord
  apply BitVec.eq_of_getLsbD_eq
  intro i hi
  interval_cases j <;> simp only [BitVec.getLsbD_append, BitVec.getLsbD_extractLsb'] <;> grind

end Sys2Proof.Machine
end

