-- ==== Sys2Proof/Laws/Store.lean ====
section
/-! SUPPORT. Laws of the frame stores: bit fields of a plane word, the address map, what each cell write does to every cell
read, and that every write keeps the stores' canonical form. -/

namespace Sys2Proof.Machine

/-- Bit i of a word whose field was replaced. -/
theorem getLsbD_setField (w : Word) (lo len : Nat) (v : BitVec len) (i : Nat) (hi : i < 32) :
    (setField w lo len v).getLsbD i = if lo ≤ i ∧ i < lo + len then v.getLsbD (i - lo) else w.getLsbD i := by
  unfold setField
  simp only [BitVec.getLsbD_or, BitVec.getLsbD_and, BitVec.getLsbD_not, BitVec.getLsbD_shiftLeft, BitVec.getLsbD_setWidth, BitVec.getLsbD_allOnes]
  by_cases h1 : lo ≤ i <;> by_cases h2 : i < lo + len <;> simp [h1, h2, hi] <;> grind

/-- The field just written reads as written. -/
theorem extract_setField_same (w : Word) (lo len : Nat) (v : BitVec len) (h : lo + len ≤ 32) :
    (setField w lo len v).extractLsb' lo len = v := by
  apply BitVec.eq_of_getLsbD_eq
  intro i hi
  rw [BitVec.getLsbD_extractLsb', getLsbD_setField _ _ _ _ _ (by omega), if_pos (by omega)]
  simp [hi]

/-- A field apart from the one written reads as before. -/
theorem extract_setField_other (w : Word) (lo len lo' len' : Nat) (v : BitVec len) (h : lo' + len' ≤ 32)
    (hd : lo' + len' ≤ lo ∨ lo + len ≤ lo') : (setField w lo len v).extractLsb' lo' len' = w.extractLsb' lo' len' := by
  apply BitVec.eq_of_getLsbD_eq
  intro i hi
  rw [BitVec.getLsbD_extractLsb', getLsbD_setField _ _ _ _ _ (by omega), if_neg (by omega), BitVec.getLsbD_extractLsb']

/-- The nibble whose low two bits were replaced keeps its high two (R39). -/
theorem extract_setField_low (w : Word) (lo : Nat) (v : Level) (h : lo + 4 ≤ 32) :
    (setField w lo 2 v).extractLsb' lo 4 = (w.extractLsb' lo 4).extractLsb' 2 2 ++ v := by
  apply BitVec.eq_of_getLsbD_eq
  intro i hi
  rw [BitVec.getLsbD_extractLsb', getLsbD_setField _ _ _ _ _ (by omega), BitVec.getLsbD_append]
  simp only [BitVec.getLsbD_extractLsb']
  grind

/-- A nibble's background and foreground bits. -/
theorem colourNib_fg (fg bg : Colour) (p : Nat) : (colourNib fg bg p).extractLsb' 0 2 = chan fg p := by
  unfold colourNib
  apply BitVec.eq_of_getLsbD_eq
  intro i hi
  rw [BitVec.getLsbD_extractLsb', BitVec.getLsbD_append]
  grind

theorem colourNib_bg (fg bg : Colour) (p : Nat) : (colourNib fg bg p).extractLsb' 2 2 = chan bg p := by
  unfold colourNib
  apply BitVec.eq_of_getLsbD_eq
  intro i hi
  rw [BitVec.getLsbD_extractLsb', BitVec.getLsbD_append]
  grind

theorem nib_append_fg (x y : Level) : (x ++ y : BitVec (2 + 2)).extractLsb' 0 2 = y := by
  apply BitVec.eq_of_getLsbD_eq
  intro i hi
  rw [BitVec.getLsbD_extractLsb', BitVec.getLsbD_append]
  grind

theorem nib_append_bg (x y : Level) : (x ++ y : BitVec (2 + 2)).extractLsb' 2 2 = x := by
  apply BitVec.eq_of_getLsbD_eq
  intro i hi
  rw [BitVec.getLsbD_extractLsb', BitVec.getLsbD_append]
  grind

/-- A nibble is its background bits above its foreground bits. -/
theorem nib_eta (n : Nibble) : (n.extractLsb' 2 2 ++ n.extractLsb' 0 2 : BitVec (2 + 2)) = n := by
  apply BitVec.eq_of_getLsbD_eq
  intro i hi
  rw [BitVec.getLsbD_append]
  simp only [BitVec.getLsbD_extractLsb']
  grind

/-- The three channels put together are the colour (R35, R37). -/
theorem colour_of_chans (v : Colour) : (chan v 2 ++ chan v 1 ++ chan v 0 : BitVec (2 + 2 + 2)) = v := by
  unfold chan
  apply BitVec.eq_of_getLsbD_eq
  intro i hi
  simp only [BitVec.getLsbD_append, BitVec.getLsbD_extractLsb']
  grind

/-- A channel of a colour put together from channels. -/
theorem chan_of_chans (x y z : Level) (p : Nat) (hp : p < 3) :
    chan (x ++ y ++ z : BitVec (2 + 2 + 2)) p = if p = 0 then z else if p = 1 then y else x := by
  unfold chan
  apply BitVec.eq_of_getLsbD_eq
  intro i hi
  interval_cases p <;> simp only [BitVec.getLsbD_append, BitVec.getLsbD_extractLsb'] <;> grind

variable {cfg : Config} {st st' : Store} {r c r' c' p p' w w' : Nat}

/-- COLS is eight times WPR in a grid of whole colour words (R7, R33). -/
theorem cols_eq (h : cfg.cols % 8 = 0) : cfg.cols = 8 * cfg.wpr := by unfold Config.wpr; omega

theorem slot_lt (h : cfg.cols % 8 = 0) (hc : c < cfg.cols) : c / 8 < cfg.wpr := by unfold Config.wpr; omega

/-- The character map of R45 is one to one and inside the store. -/
theorem chrAddr_inj (hc : c < cfg.cols) (hc' : c' < cfg.cols) : chrAddr cfg r c = chrAddr cfg r' c' ↔ r = r' ∧ c = c' := by
  unfold chrAddr
  constructor
  · intro h
    rcases Nat.lt_trichotomy r r' with hl | he | hg
    · have : (r + 1) * cfg.cols ≤ r' * cfg.cols := Nat.mul_le_mul_right _ hl
      rw [Nat.add_mul] at this; omega
    · subst he; exact ⟨rfl, by omega⟩
    · have : (r' + 1) * cfg.cols ≤ r * cfg.cols := Nat.mul_le_mul_right _ hg
      rw [Nat.add_mul] at this; omega
  · rintro ⟨rfl, rfl⟩; rfl

theorem chrAddr_lt (hr : r < cfg.rows) (hc : c < cfg.cols) : chrAddr cfg r c < Space.size cfg .backChr := by
  show r * cfg.cols + c < cfg.rows * cfg.cols
  have : (r + 1) * cfg.cols ≤ cfg.rows * cfg.cols := Nat.mul_le_mul_right _ hr
  rw [Nat.add_mul] at this; omega

theorem mul_add_inj {n a b x y : Nat} (hx : x < n) (hy : y < n) : a * n + x = b * n + y ↔ a = b ∧ x = y := by
  constructor
  · intro h
    rcases Nat.lt_trichotomy a b with hl | he | hg
    · have : (a + 1) * n ≤ b * n := Nat.mul_le_mul_right _ hl
      rw [Nat.add_mul] at this; omega
    · subst he; exact ⟨rfl, by omega⟩
    · have : (b + 1) * n ≤ a * n := Nat.mul_le_mul_right _ hg
      rw [Nat.add_mul] at this; omega
  · rintro ⟨rfl, rfl⟩; rfl

theorem mul_add_lt {n m a x : Nat} (ha : a < m) (hx : x < n) : a * n + x < m * n := by
  have : (a + 1) * n ≤ m * n := Nat.mul_le_mul_right _ ha
  rw [Nat.add_mul] at this; omega

/-- The plane map of R45 is one to one and inside the store. -/
theorem plAddr_inj (hr : r < cfg.rows) (hr' : r' < cfg.rows) (hw : w < cfg.wpr) (hw' : w' < cfg.wpr) :
    plAddr cfg p r w = plAddr cfg p' r' w' ↔ p = p' ∧ r = r' ∧ w = w' := by
  unfold plAddr
  rw [Nat.mul_right_inj (by decide), mul_add_inj hw hw', mul_add_inj hr hr', and_assoc]

theorem plAddr_lt (hp : p < 3) (hr : r < cfg.rows) (hw : w < cfg.wpr) : plAddr cfg p r w + 3 < Space.size cfg .backPl := by
  show 4 * ((p * cfg.rows + r) * cfg.wpr + w) + 3 < 12 * cfg.rows * cfg.wpr
  have h := mul_add_lt (mul_add_lt hp hr) hw
  have e : 12 * cfg.rows * cfg.wpr = 4 * (3 * cfg.rows * cfg.wpr) := by ring
  omega

/-- The words of two different places do not overlap. -/
theorem plAddr_apart (hr : r < cfg.rows) (hr' : r' < cfg.rows) (hw : w < cfg.wpr) (hw' : w' < cfg.wpr)
    (hne : ¬(p = p' ∧ r = r' ∧ w = w')) : plAddr cfg p' r' w' + 4 ≤ plAddr cfg p r w ∨ plAddr cfg p r w + 4 ≤ plAddr cfg p' r' w' := by
  have h : plAddr cfg p r w ≠ plAddr cfg p' r' w' := fun he => hne ((plAddr_inj hr hr' hw hw').1 he)
  unfold plAddr at h ⊢
  omega

theorem Store.wf_iff : Store.wf cfg st = true ↔ Memory.wf (unlisted cfg .backChr) (Space.size cfg .backChr) st.chr = true ∧
    Memory.wf (unlisted cfg .backPl) (Space.size cfg .backPl) st.pl = true := by simp [Store.wf]

theorem Store.wf_setChr {ch : Byte} (h : Store.wf cfg st = true) (hr : r < cfg.rows) (hc : c < cfg.cols) :
    Store.wf cfg (Store.setChr cfg st r c ch) = true := by
  rw [Store.wf_iff] at h ⊢
  exact ⟨Memory.wf_set h.1 (chrAddr_lt hr hc), h.2⟩

theorem Store.wf_setPl {v : Word} (h : Store.wf cfg st = true) (hp : p < 3) (hr : r < cfg.rows) (hw : w < cfg.wpr) :
    Store.wf cfg (Store.setPl cfg st p r w v) = true := by
  rw [Store.wf_iff] at h ⊢
  exact ⟨h.1, Memory.wf_setWord h.2 (plAddr_lt hp hr hw)⟩

@[simp] theorem Store.setChr_pl (ch : Byte) : (Store.setChr cfg st r c ch).pl = st.pl := rfl
@[simp] theorem Store.setPl_chr (v : Word) : (Store.setPl cfg st p r w v).chr = st.chr := rfl
@[simp] theorem Store.plAt_setChr (ch : Byte) : Store.plAt cfg (Store.setChr cfg st r c ch) p' r' w' = Store.plAt cfg st p' r' w' := rfl
@[simp] theorem Store.chrAt_setPl (v : Word) : Store.chrAt cfg (Store.setPl cfg st p r w v) r' c' = Store.chrAt cfg st r' c' := rfl

theorem Store.chrAt_setChr {ch : Byte} (h : Store.wf cfg st = true) (hc : c < cfg.cols) (hc' : c' < cfg.cols) :
    Store.chrAt cfg (Store.setChr cfg st r c ch) r' c' = if r' = r ∧ c' = c then ch else Store.chrAt cfg st r' c' := by
  unfold Store.chrAt Store.setChr
  rw [Memory.get_set (Store.wf_iff.1 h).1]
  simp only [chrAddr_inj hc' hc]

theorem Store.plAt_setPl {v : Word} (h : Store.wf cfg st = true) (hp : p < 3) (hr : r < cfg.rows) (hr' : r' < cfg.rows)
    (hw : w < cfg.wpr) (hw' : w' < cfg.wpr) :
    Store.plAt cfg (Store.setPl cfg st p r w v) p' r' w' = if p' = p ∧ r' = r ∧ w' = w then v else Store.plAt cfg st p' r' w' := by
  unfold Store.plAt Store.setPl
  split_ifs with he
  · obtain ⟨rfl, rfl, rfl⟩ := he
    exact Memory.getWord_setWord_same (Store.wf_iff.1 h).2 (plAddr_lt hp hr hw)
  · exact Memory.getWord_setWord_other (Store.wf_iff.1 h).2 (plAddr_lt hp hr hw)
      (plAddr_apart hr hr' hw hw' fun ⟨a, b, e⟩ => he ⟨a.symm, b.symm, e.symm⟩)

/-- The planes 0..2 of a cell's word each replaced by a function of its old value: the shape of set_cell and set_fg. -/
def mapWords (cfg : Config) (r w : Nat) (f : Nat → Word → Word) (st : Store) : Store :=
  loop 3 (fun p st => Store.setPl cfg st p r w (f p (Store.plAt cfg st p r w))) st

theorem mapWords_spec {f : Nat → Word → Word} (h : Store.wf cfg st = true) (hr : r < cfg.rows) (hw : w < cfg.wpr) :
    Store.wf cfg (mapWords cfg r w f st) = true ∧ (mapWords cfg r w f st).chr = st.chr ∧
    ∀ p' r' w', p' < 3 → r' < cfg.rows → w' < cfg.wpr → Store.plAt cfg (mapWords cfg r w f st) p' r' w' =
      if r' = r ∧ w' = w then f p' (Store.plAt cfg st p' r' w') else Store.plAt cfg st p' r' w' := by
  have key := loop_induct (fun k t => Store.wf cfg t = true ∧ t.chr = st.chr ∧
      ∀ p' r' w', p' < 3 → r' < cfg.rows → w' < cfg.wpr → Store.plAt cfg t p' r' w' =
        if (r' = r ∧ w' = w) ∧ p' < k then f p' (Store.plAt cfg st p' r' w') else Store.plAt cfg st p' r' w')
    3 (fun p st => Store.setPl cfg st p r w (f p (Store.plAt cfg st p r w))) st
    ⟨h, rfl, fun _ _ _ _ _ _ => by simp⟩
    (fun k t hk ⟨h1, h2, h3⟩ => ⟨Store.wf_setPl h1 hk hr hw, h2, fun p' r' w' hp' hr' hw' => by
      rw [Store.plAt_setPl h1 hk hr hr' hw hw', h3 k r w hk hr hw, h3 p' r' w' hp' hr' hw']
      grind⟩)
  refine ⟨key.1, key.2.1, fun p' r' w' hp' hr' hw' => ?_⟩
  rw [mapWords, key.2.2 p' r' w' hp' hr' hw']
  simp [hp']

/-- Two slots of one plane word are the same cell column. -/
theorem col_of_slot (h1 : c' / 8 = c / 8) (h2 : c' % 8 = c % 8) : c' = c := by omega

/-- The nibbles after the words of one cell's group were mapped by a field write at its slot. -/
theorem nib_mapWords {len : Nat} {g : Nat → BitVec len} (h : Store.wf cfg st = true) (h8 : cfg.cols % 8 = 0) (hr : r < cfg.rows)
    (hc : c < cfg.cols) (hlen : len ≤ 4) (hp' : p' < 3) (hr' : r' < cfg.rows) (hc' : c' < cfg.cols) (hne : ¬(r' = r ∧ c' = c)) :
    Store.nib cfg (mapWords cfg r (c / 8) (fun p x => setField x (4 * (c % 8)) len (g p)) st) p' r' c' = Store.nib cfg st p' r' c' := by
  unfold Store.nib
  rw [(mapWords_spec h hr (slot_lt h8 hc)).2.2 p' r' (c' / 8) hp' hr' (slot_lt h8 hc')]
  split_ifs with he
  · have hs : c' % 8 ≠ c % 8 := fun e => hne ⟨he.1, col_of_slot he.2 e⟩
    apply extract_setField_other
    · omega
    · omega
  · rfl

theorem Store.setCell_eq (ch : Byte) (fg bg : Colour) : Store.setCell cfg st r c ch fg bg =
    mapWords cfg r (c / 8) (fun p x => setField x (4 * (c % 8)) 4 (colourNib fg bg p)) (Store.setChr cfg st r c ch) := rfl

theorem Store.setFg_eq (ch : Byte) (fg : Colour) : Store.setFg cfg st r c ch fg =
    mapWords cfg r (c / 8) (fun p x => setField x (4 * (c % 8)) 2 (chan fg p)) (Store.setChr cfg st r c ch) := rfl

/-- Everything set_cell does (R38): the store stays canonical, the cell takes its character and nibbles, every other cell
keeps its own. -/
theorem Store.setCell_spec {ch : Byte} {fg bg : Colour} (h : Store.wf cfg st = true) (h8 : cfg.cols % 8 = 0) (hr : r < cfg.rows)
    (hc : c < cfg.cols) :
    Store.wf cfg (Store.setCell cfg st r c ch fg bg) = true ∧
    (∀ r' c', r' < cfg.rows → c' < cfg.cols →
      Store.chrAt cfg (Store.setCell cfg st r c ch fg bg) r' c' = if r' = r ∧ c' = c then ch else Store.chrAt cfg st r' c') ∧
    (∀ p' r' c', p' < 3 → r' < cfg.rows → c' < cfg.cols →
      Store.nib cfg (Store.setCell cfg st r c ch fg bg) p' r' c' =
        if r' = r ∧ c' = c then colourNib fg bg p' else Store.nib cfg st p' r' c') := by
  have h1 := Store.wf_setChr (ch := ch) h hr hc
  rw [Store.setCell_eq]
  have hm := mapWords_spec (f := fun p x => setField x (4 * (c % 8)) 4 (colourNib fg bg p)) h1 hr (slot_lt h8 hc)
  refine ⟨hm.1, fun r' c' hr' hc' => ?_, fun p' r' c' hp' hr' hc' => ?_⟩
  · have := Store.chrAt_setChr (r := r) (r' := r') (ch := ch) h hc hc'
    rw [← this]
    unfold Store.chrAt
    rw [hm.2.1]
  · split_ifs with he
    · obtain ⟨rfl, rfl⟩ := he
      unfold Store.nib
      rw [hm.2.2 p' r' (c' / 8) hp' hr' (slot_lt h8 hc'), if_pos ⟨rfl, rfl⟩]
      exact extract_setField_same _ _ _ _ (by omega)
    · rw [nib_mapWords h1 h8 hr hc (le_refl 4) hp' hr' hc' he]
      rfl

/-- Everything set_fg does (R39): as set_cell, but the cell's background bits stay. -/
theorem Store.setFg_spec {ch : Byte} {fg : Colour} (h : Store.wf cfg st = true) (h8 : cfg.cols % 8 = 0) (hr : r < cfg.rows)
    (hc : c < cfg.cols) :
    Store.wf cfg (Store.setFg cfg st r c ch fg) = true ∧
    (∀ r' c', r' < cfg.rows → c' < cfg.cols →
      Store.chrAt cfg (Store.setFg cfg st r c ch fg) r' c' = if r' = r ∧ c' = c then ch else Store.chrAt cfg st r' c') ∧
    (∀ p' r' c', p' < 3 → r' < cfg.rows → c' < cfg.cols →
      Store.nib cfg (Store.setFg cfg st r c ch fg) p' r' c' =
        if r' = r ∧ c' = c then (Store.nib cfg st p' r' c').extractLsb' 2 2 ++ chan fg p' else Store.nib cfg st p' r' c') := by
  have h1 := Store.wf_setChr (ch := ch) h hr hc
  rw [Store.setFg_eq]
  have hm := mapWords_spec (f := fun p x => setField x (4 * (c % 8)) 2 (chan fg p)) h1 hr (slot_lt h8 hc)
  refine ⟨hm.1, fun r' c' hr' hc' => ?_, fun p' r' c' hp' hr' hc' => ?_⟩
  · have := Store.chrAt_setChr (r := r) (r' := r') (ch := ch) h hc hc'
    rw [← this]
    unfold Store.chrAt
    rw [hm.2.1]
  · split_ifs with he
    · obtain ⟨rfl, rfl⟩ := he
      unfold Store.nib
      rw [hm.2.2 p' r' (c' / 8) hp' hr' (slot_lt h8 hc'), if_pos ⟨rfl, rfl⟩]
      exact extract_setField_low _ _ _ (by omega)
    · rw [nib_mapWords h1 h8 hr hc (by omega) hp' hr' hc' he]
      rfl

/-- A cell's colours from its nibbles (R37). -/
theorem Store.fgOf_of_nib {fg : Colour} (h : ∀ p, p < 3 → (Store.nib cfg st p r c).extractLsb' 0 2 = chan fg p) : Store.fgOf cfg st r c = fg := by
  unfold Store.fgOf
  rw [h 0 (by decide), h 1 (by decide), h 2 (by decide)]
  exact colour_of_chans fg

theorem Store.bgOf_of_nib {bg : Colour} (h : ∀ p, p < 3 → (Store.nib cfg st p r c).extractLsb' 2 2 = chan bg p) : Store.bgOf cfg st r c = bg := by
  unfold Store.bgOf
  rw [h 0 (by decide), h 1 (by decide), h 2 (by decide)]
  exact colour_of_chans bg

theorem Store.fgOf_congr (h : ∀ p, p < 3 → Store.nib cfg st p r c = Store.nib cfg st' p r' c') : Store.fgOf cfg st r c = Store.fgOf cfg st' r' c' := by
  unfold Store.fgOf
  rw [h 0 (by decide), h 1 (by decide), h 2 (by decide)]

theorem Store.bgOf_congr (h : ∀ p, p < 3 → Store.nib cfg st p r c = Store.nib cfg st' p r' c') : Store.bgOf cfg st r c = Store.bgOf cfg st' r' c' := by
  unfold Store.bgOf
  rw [h 0 (by decide), h 1 (by decide), h 2 (by decide)]

/-- A cell's nibble in each plane, from its colours. -/
theorem Store.nib_of_colours (hp : p < 3) : Store.nib cfg st p r c = colourNib (Store.fgOf cfg st r c) (Store.bgOf cfg st r c) p := by
  unfold colourNib Store.fgOf Store.bgOf
  rw [chan_of_chans _ _ _ p hp, chan_of_chans _ _ _ p hp]
  interval_cases p <;> exact (nib_eta _).symm

end Sys2Proof.Machine
end

