-- ==== Sys2Proof/Laws/Edit.lean ====
section
/-! SUPPORT. Edits of a frame store: one cell, edits one after another, and edits in a loop. -/

namespace Sys2Proof.Machine

variable {cfg : Config} {P Q : Nat → Nat → Prop} {val : Nat → Nat → GridCell} {st st' st'' : Store} {r c : Nat}

/-- Nothing edited. -/
theorem StoreEdit.refl (h : Store.wf cfg st = true) : StoreEdit cfg (fun _ _ => False) val st st :=
  ⟨h, fun _ _ hp => hp.elim, fun _ _ _ _ => rfl, fun _ _ => rfl, fun _ _ => rfl⟩

/-- The same edit of the same cells under another description. -/
theorem StoreEdit.congr {val' : Nat → Nat → GridCell} (h : StoreEdit cfg P val st st') (hP : ∀ r c, P r c ↔ Q r c)
    (hv : ∀ r c, Q r c → val r c = val' r c) : StoreEdit cfg Q val' st st' :=
  ⟨h.canonical, fun r c hq => (h.written r c ((hP r c).2 hq)).trans (hv r c hq),
   fun r c hg hq => h.kept r c hg fun hp => hq ((hP r c).1 hp),
   fun a ha => h.chrKept a fun r c hp => ha r c ((hP r c).1 hp),
   fun a ha => h.plKept a fun r c p hp => ha r c p ((hP r c).1 hp)⟩

/-- One edit after another of the same values. -/
theorem StoreEdit.trans (h : StoreEdit cfg P val st st') (h' : StoreEdit cfg Q val st' st'') (hg : ∀ r c, P r c → inGrid cfg r c) :
    StoreEdit cfg (fun r c => P r c ∨ Q r c) val st st'' := by
  refine ⟨h'.canonical, fun r c hpq => ?_, fun r c hi hn => ?_, fun a ha => ?_, fun a ha => ?_⟩
  · by_cases hq : Q r c
    · exact h'.written r c hq
    · have hp := hpq.resolve_right hq
      rw [h'.kept r c (hg r c hp) hq, h.written r c hp]
  · rw [h'.kept r c hi fun hq => hn (.inr hq), h.kept r c hi fun hp => hn (.inl hp)]
  · rw [h'.chrKept a fun r c hq => ha r c (.inr hq), h.chrKept a fun r c hp => ha r c (.inl hp)]
  · rw [h'.plKept a fun r c p hq => ha r c p (.inr hq), h.plKept a fun r c p hp => ha r c p (.inl hp)]

/-- The bytes of a plane word a write to another word leaves. -/
theorem Store.plByte_setPl {p w a : Nat} {v : Word} (h : Store.wf cfg st = true) (hp : p < 3) (hr : r < cfg.rows) (hw : w < cfg.wpr)
    (ha : a < plAddr cfg p r w ∨ plAddr cfg p r w + 4 ≤ a) :
    Memory.get (unlisted cfg .backPl) (Store.setPl cfg st p r w v).pl a = Memory.get (unlisted cfg .backPl) st.pl a := by
  unfold Store.setPl
  rw [Memory.get_setWord (Store.wf_iff.1 h).2 (plAddr_lt hp hr hw), if_neg (by omega)]

/-- The plane bytes that mapping the words of one cell's group leaves. -/
theorem plByte_mapWords {w a : Nat} {f : Nat → Word → Word} (h : Store.wf cfg st = true) (hr : r < cfg.rows) (hw : w < cfg.wpr)
    (ha : ∀ p, p < 3 → a < plAddr cfg p r w ∨ plAddr cfg p r w + 4 ≤ a) :
    Memory.get (unlisted cfg .backPl) (mapWords cfg r w f st).pl a = Memory.get (unlisted cfg .backPl) st.pl a := by
  have key := loop_induct (fun _ t => Store.wf cfg t = true ∧
      Memory.get (unlisted cfg .backPl) t.pl a = Memory.get (unlisted cfg .backPl) st.pl a)
    3 (fun p st => Store.setPl cfg st p r w (f p (Store.plAt cfg st p r w))) st ⟨h, rfl⟩
    (fun k t hk ⟨h1, h2⟩ => ⟨Store.wf_setPl h1 hk hr hw, by rw [Store.plByte_setPl h1 hk hr hw (ha k hk), h2]⟩)
  exact key.2

theorem chrByte_setChr {a : Nat} {ch : Byte} (h : Store.wf cfg st = true) (ha : a ≠ chrAddr cfg r c) :
    Memory.get (unlisted cfg .backChr) (Store.setChr cfg st r c ch).chr a = Memory.get (unlisted cfg .backChr) st.chr a := by
  unfold Store.setChr
  rw [Memory.get_set (Store.wf_iff.1 h).1, if_neg ha]

/-- set_cell is the edit of one cell (R38). -/
theorem StoreEdit.setCell {ch : Byte} {fg bg : Colour} (h : Store.wf cfg st = true) (h8 : cfg.cols % 8 = 0) (hi : inGrid cfg r c)
    (hv : val r c = ⟨ch, fg, bg⟩) : StoreEdit cfg (fun r' c' => r' = r ∧ c' = c) val st (Store.setCell cfg st r c ch fg bg) := by
  have hs := Store.setCell_spec (ch := ch) (fg := fg) (bg := bg) h h8 hi.1 hi.2
  have h1 := Store.wf_setChr (ch := ch) h hi.1 hi.2
  refine ⟨hs.1, ?_, fun r' c' hg hn => ?_, fun a ha => ?_, fun a ha => ?_⟩
  · rintro r' c' ⟨rfl, rfl⟩
    rw [hv]
    unfold Store.cell
    rw [hs.2.1 r' c' hi.1 hi.2, if_pos ⟨rfl, rfl⟩,
      Store.fgOf_of_nib (fg := fg) fun p hp => by rw [hs.2.2 p r' c' hp hi.1 hi.2, if_pos ⟨rfl, rfl⟩]; exact colourNib_fg fg bg p,
      Store.bgOf_of_nib (bg := bg) fun p hp => by rw [hs.2.2 p r' c' hp hi.1 hi.2, if_pos ⟨rfl, rfl⟩]; exact colourNib_bg fg bg p]
  · unfold Store.cell
    rw [hs.2.1 r' c' hg.1 hg.2, if_neg hn,
      Store.fgOf_congr fun p hp => (hs.2.2 p r' c' hp hg.1 hg.2).trans (if_neg hn),
      Store.bgOf_congr fun p hp => (hs.2.2 p r' c' hp hg.1 hg.2).trans (if_neg hn)]
  · rw [Store.setCell_eq, (mapWords_spec h1 hi.1 (slot_lt h8 hi.2)).2.1]
    exact chrByte_setChr h (ha r c ⟨rfl, rfl⟩)
  · rw [Store.setCell_eq, plByte_mapWords h1 hi.1 (slot_lt h8 hi.2) fun p hp => ha r c p ⟨rfl, rfl⟩ hp]
    rfl

/-- set_fg is the edit of one cell that keeps its background (R39). -/
theorem StoreEdit.setFg {ch : Byte} {fg : Colour} (h : Store.wf cfg st = true) (h8 : cfg.cols % 8 = 0) (hi : inGrid cfg r c)
    (hv : val r c = ⟨ch, fg, Store.bgOf cfg st r c⟩) : StoreEdit cfg (fun r' c' => r' = r ∧ c' = c) val st (Store.setFg cfg st r c ch fg) := by
  have hs := Store.setFg_spec (ch := ch) (fg := fg) h h8 hi.1 hi.2
  have h1 := Store.wf_setChr (ch := ch) h hi.1 hi.2
  refine ⟨hs.1, ?_, fun r' c' hg hn => ?_, fun a ha => ?_, fun a ha => ?_⟩
  · rintro r' c' ⟨rfl, rfl⟩
    rw [hv]
    unfold Store.cell
    rw [hs.2.1 r' c' hi.1 hi.2, if_pos ⟨rfl, rfl⟩,
      Store.fgOf_of_nib (fg := fg) fun p hp => by rw [hs.2.2 p r' c' hp hi.1 hi.2, if_pos ⟨rfl, rfl⟩]; exact nib_append_fg _ _,
      Store.bgOf_of_nib (bg := Store.bgOf cfg st r' c') fun p hp => by
        rw [hs.2.2 p r' c' hp hi.1 hi.2, if_pos ⟨rfl, rfl⟩, nib_append_bg, Store.nib_of_colours hp]; exact colourNib_bg _ _ p]
  · unfold Store.cell
    rw [hs.2.1 r' c' hg.1 hg.2, if_neg hn,
      Store.fgOf_congr fun p hp => (hs.2.2 p r' c' hp hg.1 hg.2).trans (if_neg hn),
      Store.bgOf_congr fun p hp => (hs.2.2 p r' c' hp hg.1 hg.2).trans (if_neg hn)]
  · rw [Store.setFg_eq, (mapWords_spec h1 hi.1 (slot_lt h8 hi.2)).2.1]
    exact chrByte_setChr h (ha r c ⟨rfl, rfl⟩)
  · rw [Store.setFg_eq, plByte_mapWords h1 hi.1 (slot_lt h8 hi.2) fun p hp => ha r c p ⟨rfl, rfl⟩ hp]
    rfl

/-- A loop of edits, each of the cells `R k`, is the edit of all of them. -/
theorem StoreEdit.loop {R : Nat → Nat → Nat → Prop} {f : Nat → Store → Store} (n : Nat) (h : Store.wf cfg st = true)
    (hg : ∀ k r c, k < n → R k r c → inGrid cfg r c)
    (hs : ∀ k t, k < n → Store.wf cfg t = true → StoreEdit cfg (R k) val t (f k t)) :
    StoreEdit cfg (fun r c => ∃ k, k < n ∧ R k r c) val st (Sys2Proof.Machine.loop n f st) := by
  induction n with
  | zero => exact (StoreEdit.refl h).congr (fun r c => by simp) fun r c _ => rfl
  | succ n ih =>
    have h1 := ih (fun k r c hk => hg k r c (by omega)) (fun k t hk => hs k t (by omega))
    rw [loop_succ]
    refine (h1.trans (hs n _ (by omega) h1.canonical) fun r c ⟨k, hk, hR⟩ => hg k r c (by omega) hR).congr (fun r c => ?_) fun r c _ => rfl
    constructor
    · rintro (⟨k, hk, hR⟩ | hR)
      · exact ⟨k, by omega, hR⟩
      · exact ⟨n, by omega, hR⟩
    · rintro ⟨k, hk, hR⟩
      by_cases he : k = n
      · subst he; exact .inr hR
      · exact .inl ⟨k, by omega, hR⟩

/-- Two canonical stores with the same cells are the same data. -/
theorem Store.ext_cells (h8 : cfg.cols % 8 = 0) (h : Store.wf cfg st = true) (h' : Store.wf cfg st' = true)
    (hc : ∀ r c, inGrid cfg r c → Store.cell cfg st r c = Store.cell cfg st' r c) : st = st' := by
  have hw := Store.wf_iff.1 h
  have hw' := Store.wf_iff.1 h'
  have hcols := cols_eq h8
  have hpl : ∀ p r w, p < 3 → r < cfg.rows → w < cfg.wpr → Store.plAt cfg st p r w = Store.plAt cfg st' p r w := by
    intro p r w hp hr hwr
    apply BitVec.eq_of_getLsbD_eq
    intro i hi
    have hg : inGrid cfg r (8 * w + i / 4) := ⟨hr, by rw [hcols]; omega⟩
    have hn : Store.nib cfg st p r (8 * w + i / 4) = Store.nib cfg st' p r (8 * w + i / 4) := by
      have := hc r (8 * w + i / 4) hg
      rw [Store.nib_of_colours hp, Store.nib_of_colours hp]
      have e1 := congrArg GridCell.fg this
      have e2 := congrArg GridCell.bg this
      simp only [Store.cell] at e1 e2
      rw [e1, e2]
    unfold Store.nib at hn
    have e1 : (8 * w + i / 4) / 8 = w := by omega
    have e2 : (8 * w + i / 4) % 8 = i / 4 := by omega
    rw [e1, e2] at hn
    have hb := congrArg (fun x => BitVec.getLsbD x (i % 4)) hn
    simp only [BitVec.getLsbD_extractLsb'] at hb
    have e3 : 4 * (i / 4) + i % 4 = i := by omega
    rw [e3] at hb
    simpa [show i % 4 < 4 by omega] using hb
  have e1 : st.chr = st'.chr := by
    apply Memory.ext hw.1 hw'.1
    intro x
    by_cases hx : x < Space.size cfg .backChr
    · have hx' : x < cfg.rows * cfg.cols := hx
      have hpos : 0 < cfg.cols := Nat.pos_of_ne_zero fun h0 => by rw [h0, Nat.mul_zero] at hx'; omega
      have hr : x / cfg.cols < cfg.rows := Nat.div_lt_of_lt_mul (by rwa [Nat.mul_comm])
      have := congrArg GridCell.ch (hc (x / cfg.cols) (x % cfg.cols) ⟨hr, Nat.mod_lt _ hpos⟩)
      simp only [Store.cell, Store.chrAt, chrAddr, Nat.mul_comm (x / cfg.cols), Nat.div_add_mod] at this
      exact this
    · rw [Memory.get_above hw.1 (by omega), Memory.get_above hw'.1 (by omega)]
  have e2 : st.pl = st'.pl := by
    apply Memory.ext hw.2 hw'.2
    intro x
    by_cases hx : x < Space.size cfg .backPl
    · have hx' : x < 12 * cfg.rows * cfg.wpr := hx
      have hwpos : 0 < cfg.wpr := Nat.pos_of_ne_zero fun h0 => by rw [h0, Nat.mul_zero] at hx'; omega
      have hrpos : 0 < cfg.rows := Nat.pos_of_ne_zero fun h0 => by rw [h0] at hx'; omega
      have e : 12 * cfg.rows * cfg.wpr = 4 * (3 * cfg.rows * cfg.wpr) := by ring
      have hy : x / 4 < 3 * cfg.rows * cfg.wpr := by omega
      have hz : x / 4 / cfg.wpr < 3 * cfg.rows := Nat.div_lt_of_lt_mul (by rwa [Nat.mul_comm])
      have hp : x / 4 / cfg.wpr / cfg.rows < 3 := Nat.div_lt_of_lt_mul (by rwa [Nat.mul_comm])
      have hq := hpl (x / 4 / cfg.wpr / cfg.rows) (x / 4 / cfg.wpr % cfg.rows) (x / 4 % cfg.wpr) hp (Nat.mod_lt _ hrpos) (Nat.mod_lt _ hwpos)
      have ha : plAddr cfg (x / 4 / cfg.wpr / cfg.rows) (x / 4 / cfg.wpr % cfg.rows) (x / 4 % cfg.wpr) = 4 * (x / 4) := by
        unfold plAddr
        rw [Nat.mul_comm (x / 4 / cfg.wpr / cfg.rows), Nat.div_add_mod, Nat.mul_comm (x / 4 / cfg.wpr), Nat.div_add_mod]
      unfold Store.plAt at hq
      rw [ha] at hq
      have hb := congrArg (fun v => v.extractLsb' (8 * (x % 4)) 8) hq
      simp only [Memory.getWord_byte (show x % 4 < 4 by omega)] at hb
      have e4 : 4 * (x / 4) + x % 4 = x := by omega
      rwa [e4] at hb
    · rw [Memory.get_above hw.2 (by omega), Memory.get_above hw'.2 (by omega)]
  cases st; cases st'; simp_all

end Sys2Proof.Machine
end

