-- ==== Sys2Proof/Laws/Encoder.lean ====
section
/-! SUPPORT. The lengths and the words of an encoded scanline (R128 to R132). -/

namespace Sys2Proof.Machine

variable {cfg : Config} {f : Store} {p row gr : Nat} {phase : Bool}

@[simp] theorem encodeCell_length (c : Nat) : (encodeCell cfg f p row gr c phase).length = 4 := rfl

/-- Lists of one length laid end to end: the length, and the element at an index. -/
theorem flatMap_range_spec {α : Type} {g : Nat → List α} {m : Nat} (n : Nat) (h : ∀ i, i < n → (g i).length = m) :
    ((List.range n).flatMap g).length = n * m ∧
    ∀ i j, i < n → j < m → ((List.range n).flatMap g)[i * m + j]? = (g i)[j]? := by
  induction n with
  | zero => exact ⟨by simp, fun i j hi => by omega⟩
  | succ n ih =>
    obtain ⟨h1, h2⟩ := ih fun i hi => h i (by omega)
    have hn := h n (by omega)
    rw [List.range_succ, List.flatMap_append]
    refine ⟨by simp [h1, hn, Nat.succ_mul], fun i j hi hj => ?_⟩
    rcases Nat.lt_or_ge i n with hlt | hge
    · have hb : i * m + j < n * m := by
        calc i * m + j < i * m + m := by omega
          _ = (i + 1) * m := by ring
          _ ≤ n * m := Nat.mul_le_mul_right _ hlt
      rw [List.getElem?_append_left (by omega), h2 i j hlt hj]
    · obtain rfl : i = n := by omega
      rw [List.getElem?_append_right (by omega), h1, Nat.add_sub_cancel_left]
      simp

theorem encodeGroup_spec (g : Nat) : (encodeGroup cfg f p row gr g phase).length = 32 ∧
    ∀ i j, i < 8 → j < 4 → (encodeGroup cfg f p row gr g phase)[i * 4 + j]? = (encodeCell cfg f p row gr (8 * g + i) phase)[j]? := by
  have := flatMap_range_spec (g := fun i => encodeCell cfg f p row gr (8 * g + i) phase) (m := 4) 8 fun _ _ => rfl
  exact this

/-- EncodePlane is the row's cells, four words each, left to right (R128 to R130). -/
theorem encodePlane_spec (h8 : cfg.cols % 8 = 0) : (encodePlane cfg f p row gr phase).length = 4 * cfg.cols ∧
    ∀ j, j < 4 * cfg.cols → (encodePlane cfg f p row gr phase)[j]? = (encodeCell cfg f p row gr (j / 4) phase)[j % 4]? := by
  have hc : cfg.cols = 8 * cfg.wpr := by unfold Config.wpr; omega
  have := flatMap_range_spec (g := fun g => encodeGroup cfg f p row gr g phase) (m := 32) cfg.wpr fun g _ => (encodeGroup_spec g).1
  refine ⟨by unfold encodePlane; rw [this.1]; omega, fun j hj => ?_⟩
  have h1 := this.2 (j / 32) (j % 32) (by omega) (by omega)
  have h2 := (encodeGroup_spec (cfg := cfg) (f := f) (p := p) (row := row) (gr := gr) (phase := phase) (j / 32)).2 (j % 32 / 4) (j % 4)
    (by omega) (by omega)
  unfold encodePlane
  rw [show j / 32 * 32 + j % 32 = j by omega] at h1
  rw [show j % 32 / 4 * 4 + j % 4 = j % 32 by omega, show 8 * (j / 32) + j % 32 / 4 = j / 4 by omega] at h2
  rw [h1, h2]

end Sys2Proof.Machine
end

