-- ==== Sys2Proof/Laws/Ops.lean ====
section
/-! SUPPORT. What each shared operation over the back store can do, said once: the fields it changes and its edit of B. -/

namespace Sys2Proof.Machine

variable {s : State}

/-- The facts about the configuration and the cursor that the operations over B rest on. -/
theorem runnable_iff : s.runnable = true ↔ configWf s.cfg = true ∧ s.inRange = true := by simp [State.runnable]

/-- The legal values, each as a fact. -/
theorem inRange_iff : s.inRange = true ↔
    s.curCol < s.cfg.cols ∧ s.curRow < s.cfg.rows ∧ (s.escMode && s.csiMode) = false ∧ s.savedCol < s.cfg.cols ∧
    s.savedRow < s.cfg.rows ∧ s.pb.pcount ≤ 4 ∧ s.blinkCnt < s.cfg.blinkTicks ∧ s.ovCol < s.cfg.cols ∧ s.ovRow < s.cfg.rows ∧
    s.mdigV.toNat ≤ 9 ∧ s.line < s.cfg.frameLines ∧ s.hs = Handshake.idle ∧ s.ring.inRange s.cfg.ringN = true ∧ s.owned = none := by
  simp only [State.inRange, Bool.and_eq_true, Bool.not_eq_true', decide_eq_true_eq, Option.isNone_iff_eq_none, and_assoc]

/-- R32 (2) to (8) and (10), each as a fact. -/
theorem invariants_iff : s.invariants = true ↔
    (s.escMode && s.csiMode) = false ∧
    (s.csiMode = false → s.pb.pcount = 0 ∧ s.pb.acc = 0 ∧ s.pb.dpend = false) ∧
    (s.pb.dpend = false → s.pb.acc = 0) ∧
    (s.skipCr && s.skipLf) = false ∧
    (s.modal ≠ none → s.escMode = false ∧ s.csiMode = false ∧ s.drawn = false) ∧
    s.drawn = (s.curVisible && s.modal.isNone) ∧
    (s.drawn = true → s.ovCol = s.curCol ∧ s.ovRow = s.curRow ∧
      Store.chrAt s.cfg s.back s.curRow s.curCol = glyphOf s.cfg s.style ∧ Store.fgOf s.cfg s.back s.curRow s.curCol = s.curFg) ∧
    (s.modal = some .fgPick ∨ s.modal = some .bgPick ∨ s.mdigN = false) := by
  have h2 : ∀ (m : Option MenuKind) (P : Prop), (m = none ∨ P) ↔ (m ≠ none → P) := by
    intro m P; by_cases hm : m = none <;> simp [hm]
  have h3 : ∀ (a : Bool) (P : Prop), (a = false ∨ P) ↔ (a = true → P) := by intro a P; cases a <;> simp
  have h4 : ∀ (a : Bool) (P : Prop), (a = true ∨ P) ↔ (a = false → P) := by intro a P; cases a <;> simp
  simp only [State.invariants, Bool.and_eq_true, Bool.or_eq_true, Bool.not_eq_true', decide_eq_true_eq, Option.isNone_iff_eq_none,
    beq_iff_eq, h2, h3, h4, and_assoc, or_assoc]

theorem config_cols8 {cfg : Config} (h : configWf cfg = true) : cfg.cols % 8 = 0 := by
  simp only [configWf, Bool.and_eq_true, decide_eq_true_eq] at h; omega

theorem config_pos {cfg : Config} (h : configWf cfg = true) :
    8 ≤ cfg.cols ∧ 1 ≤ cfg.rows ∧ 1 ≤ cfg.glyphH ∧ 1 ≤ cfg.frameLines ∧ 1 ≤ cfg.blinkTicks ∧ 1 ≤ cfg.ringN := by
  simp only [configWf, Bool.and_eq_true, decide_eq_true_eq] at h; omega

/-- Every menu's rectangle lies inside the grid and has its image (R7). -/
theorem config_menu {cfg : Config} (h : configWf cfg = true) (k : MenuKind) :
    (cfg.menu k).x0 + (cfg.menu k).w ≤ cfg.cols ∧ (cfg.menu k).y0 + (cfg.menu k).h ≤ cfg.rows ∧
    (cfg.menu k).image.length = (cfg.menu k).w * (cfg.menu k).h := by
  simp only [configWf, menuWf, Bool.and_eq_true, decide_eq_true_eq] at h
  cases k <;> simp only [Config.menu] <;> tauto

theorem inRange_cursor (h : s.inRange = true) : inGrid s.cfg s.curRow s.curCol := by
  simp only [State.inRange, Bool.and_eq_true, decide_eq_true_eq] at h
  exact ⟨by omega, by omega⟩

theorem inRange_overlay (h : s.inRange = true) : inGrid s.cfg s.ovRow s.ovCol := by
  simp only [State.inRange, Bool.and_eq_true, decide_eq_true_eq] at h
  exact ⟨by omega, by omega⟩

theorem inRange_hs (h : s.inRange = true) : s.hs = Handshake.idle := by
  simp only [State.inRange, Bool.and_eq_true, decide_eq_true_eq] at h
  tauto

/-- A runnable state's instruction runs. -/
theorem run_eq {f : State → State} (h : s.runnable = true) : run f s = .next (f s) := by
  rw [runnable_iff] at h
  simp [run, h.1, h.2]

/-- All that `run` can answer. -/
theorem run_cases {f : State → State} : (run f s = .next (f s) ∧ s.runnable = true) ∨ run f s = .refused .illegalState ∨
    run f s = .refused .illFormedConfig := by
  unfold run State.runnable
  by_cases h1 : configWf s.cfg = true <;> by_cases h2 : s.inRange = true <;> simp [h1, h2]

theorem andThen_next_iff {o : Host.Outcome State Fault Refusal} {k : State → Host.Outcome State Fault Refusal} {t : State} :
    andThen o k = .next t ↔ ∃ u, o = .next u ∧ k u = .next t := by
  cases o <;> simp [andThen]

/-- Cells blanked along a row: B and the step-local flag change, and B by that edit. -/
theorem blankSpan_spec {r c0 n : Nat} (hw : Store.wf s.cfg s.back = true) (h8 : s.cfg.cols % 8 = 0) (hr : r < s.cfg.rows)
    (hn : c0 + n ≤ s.cfg.cols) :
    ∃ bk, blankSpan r c0 n s = { s with back := bk, wrote := s.wrote || decide (0 < n) } ∧
      StoreEdit s.cfg (fun r' c' => r' = r ∧ c0 ≤ c' ∧ c' < c0 + n) (fun _ _ => s.blank) s.back bk := by
  refine ⟨loop n (fun k st => Store.setCell s.cfg st r (c0 + k) s.cfg.blankChar s.curFg s.curBg) s.back, ?_, ?_⟩
  · unfold blankSpan
    clear hn
    induction n with
    | zero => simp
    | succ n ih => rw [loop_succ, loop_succ, ih]; simp [blankCell, setCell, State.putBack]
  · refine (StoreEdit.loop (R := fun k r' c' => r' = r ∧ c' = c0 + k) n hw ?_ ?_).congr (fun r' c' => ?_) fun _ _ _ => rfl
    · rintro k r' c' hk ⟨rfl, rfl⟩; exact ⟨hr, by omega⟩
    · intro k t hk ht
      exact StoreEdit.setCell ht h8 ⟨hr, by omega⟩ rfl
    · constructor
      · rintro ⟨k, hk, rfl, rfl⟩; exact ⟨rfl, by omega, by omega⟩
      · rintro ⟨rfl, h1, h2⟩; exact ⟨c' - c0, by omega, rfl, by omega⟩

/-- The whole grid blanked (R84). -/
theorem blankGrid_spec (hw : Store.wf s.cfg s.back = true) (hc : configWf s.cfg = true) :
    ∃ bk, blankGrid s = { s with back := bk, wrote := true } ∧
      StoreEdit s.cfg (inGrid s.cfg) (fun _ _ => s.blank) s.back bk := by
  have h8 := config_cols8 hc
  have hpos := config_pos hc
  have key := loop_induct (fun k t => k ≤ s.cfg.rows →
      ∃ bk, t = { s with back := bk, wrote := s.wrote || decide (0 < k) } ∧
        StoreEdit s.cfg (fun r' c' => r' < k ∧ c' < s.cfg.cols) (fun _ _ => s.blank) s.back bk)
    s.cfg.rows (fun r t => blankSpan r 0 s.cfg.cols t) s
    (fun _ => ⟨s.back, by simp, (StoreEdit.refl hw).congr (fun r c => by simp) fun _ _ _ => rfl⟩)
    (fun k t hk ih _ => by
      obtain ⟨bk, rfl, he⟩ := ih (by omega)
      obtain ⟨bk', h1, h2⟩ := blankSpan_spec (s := { s with back := bk, wrote := s.wrote || decide (0 < k) }) (r := k) (c0 := 0)
        (n := s.cfg.cols) he.canonical h8 (by simpa using hk) (by simp)
      refine ⟨bk', ?_, ?_⟩
      · rw [h1]; simp; right; omega
      · refine (he.trans (val := fun _ _ => s.blank) h2 fun r c h => ⟨by omega, h.2⟩).congr (fun r c => ?_) fun _ _ _ => rfl
        constructor <;> intro h <;> omega)
  obtain ⟨bk, h1, h2⟩ := key (le_refl _)
  refine ⟨bk, ?_, h2⟩
  unfold blankGrid
  rw [h1]
  simp [show 0 < s.cfg.rows by omega]

/-- Row r of `t` taken from row r+1 of `st`, the other rows as in `t`. -/
theorem shiftRow_spec {cfg : Config} {st t : Store} {r : Nat} (h8 : cfg.cols % 8 = 0) (ht : Store.wf cfg t = true) (hr : r + 1 < cfg.rows) :
    StoreEdit cfg (fun r' c' => r' = r ∧ c' < cfg.cols) (fun _ c' => Store.cell cfg st (r + 1) c') t
      (loop 3 (fun p t => loop cfg.wpr (fun w t => Store.setPl cfg t p r w (Store.plAt cfg st p (r + 1) w)) t)
        (loop cfg.cols (fun c t => Store.setChr cfg t r c (Store.chrAt cfg st (r + 1) c)) t)) := by
  have hchr := loop_induct (fun k u => k ≤ cfg.cols → Store.wf cfg u = true ∧ u.pl = t.pl ∧
      (∀ r' c', c' < cfg.cols → Store.chrAt cfg u r' c' = if r' = r ∧ c' < k then Store.chrAt cfg st (r + 1) c' else Store.chrAt cfg t r' c') ∧
      (∀ a, (∀ c', c' < k → a ≠ chrAddr cfg r c') → Memory.get (unlisted cfg .backChr) u.chr a = Memory.get (unlisted cfg .backChr) t.chr a))
    cfg.cols (fun c u => Store.setChr cfg u r c (Store.chrAt cfg st (r + 1) c)) t
    (fun _ => ⟨ht, rfl, fun _ _ _ => by simp, fun _ _ => rfl⟩)
    (fun k u hk ih _ => by
      obtain ⟨h1, h2, h3, h4⟩ := ih (by omega)
      refine ⟨Store.wf_setChr h1 (by omega) hk, h2, fun r' c' hc' => ?_, fun a ha => ?_⟩
      · rw [Store.chrAt_setChr h1 hk hc', h3 r' c' hc']
        grind
      · rw [chrByte_setChr h1 (ha k (by omega))]
        exact h4 a fun c' hc' => ha c' (by omega)) (le_refl _)
  obtain ⟨hw1, hp1, hc1, hb1⟩ := hchr
  set u := loop cfg.cols (fun c t => Store.setChr cfg t r c (Store.chrAt cfg st (r + 1) c)) t with hu
  have hpl := loop_induct (fun k v => k ≤ 3 → Store.wf cfg v = true ∧ v.chr = u.chr ∧
      (∀ p' r' w', p' < 3 → r' < cfg.rows → w' < cfg.wpr →
        Store.plAt cfg v p' r' w' = if r' = r ∧ p' < k then Store.plAt cfg st p' (r + 1) w' else Store.plAt cfg u p' r' w') ∧
      (∀ a, (∀ p w, p < 3 → w < cfg.wpr → a < plAddr cfg p r w ∨ plAddr cfg p r w + 4 ≤ a) →
        Memory.get (unlisted cfg .backPl) v.pl a = Memory.get (unlisted cfg .backPl) u.pl a))
    3 (fun p t => loop cfg.wpr (fun w t => Store.setPl cfg t p r w (Store.plAt cfg st p (r + 1) w)) t) u
    (fun _ => ⟨hw1, rfl, fun _ _ _ _ _ _ => by simp, fun _ _ => rfl⟩)
    (fun k v hk ih _ => by
      obtain ⟨h1, h2, h3, h4⟩ := ih (by omega)
      have inner := loop_induct (fun j x => j ≤ cfg.wpr → Store.wf cfg x = true ∧ x.chr = v.chr ∧
          (∀ p' r' w', p' < 3 → r' < cfg.rows → w' < cfg.wpr →
            Store.plAt cfg x p' r' w' = if r' = r ∧ p' = k ∧ w' < j then Store.plAt cfg st k (r + 1) w' else Store.plAt cfg v p' r' w') ∧
          (∀ a, (∀ p w, p < 3 → w < cfg.wpr → a < plAddr cfg p r w ∨ plAddr cfg p r w + 4 ≤ a) →
            Memory.get (unlisted cfg .backPl) x.pl a = Memory.get (unlisted cfg .backPl) v.pl a))
        cfg.wpr (fun w x => Store.setPl cfg x k r w (Store.plAt cfg st k (r + 1) w)) v
        (fun _ => ⟨h1, rfl, fun _ _ _ _ _ _ => by simp, fun _ _ => rfl⟩)
        (fun j x hj ihx _ => by
          obtain ⟨g1, g2, g3, g4⟩ := ihx (by omega)
          refine ⟨Store.wf_setPl g1 hk (by omega) hj, g2, fun p' r' w' hp' hr' hw' => ?_, fun a ha => ?_⟩
          · rw [Store.plAt_setPl g1 hk (by omega) hr' hj hw', g3 p' r' w' hp' hr' hw']
            grind
          · rw [Store.plByte_setPl g1 hk (by omega) hj (ha k j hk hj), g4 a ha]) (le_refl _)
      obtain ⟨g1, g2, g3, g4⟩ := inner
      refine ⟨g1, g2.trans h2, fun p' r' w' hp' hr' hw' => ?_, fun a ha => (g4 a ha).trans (h4 a ha)⟩
      rw [g3 p' r' w' hp' hr' hw', h3 p' r' w' hp' hr' hw']
      grind) (le_refl _)
  obtain ⟨hw2, hp2, hc2, hb2⟩ := hpl
  set v := loop 3 (fun p t => loop cfg.wpr (fun w t => Store.setPl cfg t p r w (Store.plAt cfg st p (r + 1) w)) t) u with hv
  have hplu : ∀ p' r' w', Store.plAt cfg u p' r' w' = Store.plAt cfg t p' r' w' := by
    intro p' r' w'; unfold Store.plAt; rw [hp1]
  have hchrv : ∀ r' c', Store.chrAt cfg v r' c' = Store.chrAt cfg u r' c' := by
    intro r' c'; unfold Store.chrAt; rw [hp2]
  have hnib : ∀ p' r' c', p' < 3 → r' < cfg.rows → c' < cfg.cols → Store.nib cfg v p' r' c' =
      if r' = r then Store.nib cfg st p' (r + 1) c' else Store.nib cfg t p' r' c' := by
    intro p' r' c' hp' hr' hc'
    unfold Store.nib
    rw [hc2 p' r' (c' / 8) hp' hr' (slot_lt h8 hc'), hplu]
    split_ifs with h1 h2 h2
    · rfl
    · exact absurd h1.1 h2
    · exact absurd ⟨h2, hp'⟩ h1
    · rfl
  refine ⟨hw2, ?_, fun r' c' hg hn => ?_, fun a ha => ?_, fun a ha => ?_⟩
  · rintro r' c' ⟨rfl, hc'⟩
    unfold Store.cell
    rw [hchrv, hc1 r' c' hc', if_pos ⟨rfl, hc'⟩,
      Store.fgOf_congr fun p hp => (hnib p r' c' hp (by omega) hc').trans (if_pos rfl),
      Store.bgOf_congr fun p hp => (hnib p r' c' hp (by omega) hc').trans (if_pos rfl)]
  · have hr' : r' ≠ r := fun e => hn ⟨e, hg.2⟩
    unfold Store.cell
    rw [hchrv, hc1 r' c' hg.2, if_neg (fun h => hr' h.1),
      Store.fgOf_congr fun p hp => (hnib p r' c' hp hg.1 hg.2).trans (if_neg hr'),
      Store.bgOf_congr fun p hp => (hnib p r' c' hp hg.1 hg.2).trans (if_neg hr')]
  · rw [hp2]
    exact hb1 a fun c' hc' => ha r c' ⟨rfl, hc'⟩
  · rw [hb2 a fun p w hp hw => ?_, hp1]
    have h := ha r (8 * w) p ⟨rfl, by have := cols_eq h8; omega⟩ hp
    rwa [Nat.mul_div_cancel_left _ (by decide)] at h

/-- The rows but the last shifted up (R93). -/
theorem shiftUp_spec {cfg : Config} {st : Store} (h8 : cfg.cols % 8 = 0) (hw : Store.wf cfg st = true) :
    StoreEdit cfg (fun r c => r + 1 < cfg.rows ∧ c < cfg.cols) (fun r c => Store.cell cfg st (r + 1) c) st (Store.shiftUp cfg st) := by
  refine (StoreEdit.loop (R := fun k r c => r = k ∧ c < cfg.cols) (cfg.rows - 1) hw ?_ ?_).congr (fun r c => ?_) fun _ _ _ => rfl
  · rintro k r c hk ⟨rfl, hc⟩; exact ⟨by omega, hc⟩
  · intro k t hk ht
    refine (shiftRow_spec (st := st) h8 ht (by omega)).congr (fun r c => Iff.rfl) ?_
    rintro r c ⟨rfl, _⟩; rfl
  · constructor
    · rintro ⟨k, hk, rfl, hc⟩; exact ⟨by omega, hc⟩
    · rintro ⟨hr, hc⟩; exact ⟨r, by omega, rfl, hc⟩

/-- A scroll: B and the step-local flag change, and B by the edit of the whole grid (R93). -/
theorem scroll_spec (hw : Store.wf s.cfg s.back = true) (hc : configWf s.cfg = true) :
    ∃ bk, scroll s = { s with back := bk, wrote := true } ∧ StoreEdit s.cfg (inGrid s.cfg) s.scrolled s.back bk := by
  have h8 := config_cols8 hc
  have hpos := config_pos hc
  have h1 := shiftUp_spec h8 hw
  obtain ⟨bk, h2, h3⟩ := blankSpan_spec (s := { s with back := Store.shiftUp s.cfg s.back }) (r := s.cfg.rows - 1) (c0 := 0)
    (n := s.cfg.cols) h1.canonical h8 (show s.cfg.rows - 1 < s.cfg.rows by omega) (by simp)
  refine ⟨bk, ?_, ?_⟩
  · unfold scroll
    rw [h2]
  · have e1 : StoreEdit s.cfg (fun r c => r + 1 < s.cfg.rows ∧ c < s.cfg.cols) s.scrolled s.back (Store.shiftUp s.cfg s.back) :=
      h1.congr (fun _ _ => Iff.rfl) fun r c h => by simp [State.scrolled, h.1]
    have e2 : StoreEdit s.cfg (fun r c => r = s.cfg.rows - 1 ∧ c < s.cfg.cols) s.scrolled (Store.shiftUp s.cfg s.back) bk :=
      h3.congr (fun r c => by simp) fun r c h => by
        have : ¬(r + 1 < s.cfg.rows) := by omega
        simp [State.scrolled, this, State.blank]
    refine (e1.trans e2 fun r c h => ⟨by omega, h.2⟩).congr (fun r c => ?_) fun _ _ _ => rfl
    simp only [inGrid]
    constructor <;> intro h <;> omega

/-- A line break at the last row scrolls (R92). -/
theorem lineBreak_last (hw : Store.wf s.cfg s.back = true) (hc : configWf s.cfg = true) (hr : s.curRow = s.cfg.rows - 1) :
    ∃ bk, lineBreak s = { s with back := bk, wrote := true, curCol := 0 } ∧ StoreEdit s.cfg (inGrid s.cfg) s.scrolled s.back bk := by
  obtain ⟨bk, h1, h2⟩ := scroll_spec (s := { s with curCol := 0 }) hw hc
  refine ⟨bk, ?_, h2⟩
  unfold lineBreak
  rw [if_pos hr, h1]

/-- A line break above the last row moves the cursor (R92). -/
theorem lineBreak_above (hr : s.curRow ≠ s.cfg.rows - 1) : lineBreak s = { s with curCol := 0, curRow := s.curRow + 1 } := by
  unfold lineBreak
  rw [if_neg hr]

/-- What every line break leaves alone: all but the cursor, B and the step-local flag. -/
theorem lineBreak_frame (s : State) : ∃ bk w row, lineBreak s = { s with back := bk, wrote := w, curCol := 0, curRow := row } := by
  have hspan : ∀ (n r c0 : Nat) (t : State), ∃ bk w, blankSpan r c0 n t = { t with back := bk, wrote := w } := by
    intro n r c0 t
    unfold blankSpan
    induction n with
    | zero => exact ⟨t.back, t.wrote, rfl⟩
    | succ n ih =>
      obtain ⟨bk, w, h⟩ := ih
      rw [loop_succ, h]
      exact ⟨_, _, rfl⟩
  unfold lineBreak scroll
  split
  · obtain ⟨bk, w, h⟩ := hspan s.cfg.cols (s.cfg.rows - 1) 0 { s with curCol := 0, back := Store.shiftUp s.cfg s.back }
    refine ⟨bk, true, s.curRow, ?_⟩
    simp only at h ⊢
    rw [h]
  · exact ⟨s.back, s.wrote, s.curRow + 1, rfl⟩

end Sys2Proof.Machine
end

