-- ==== Sys2Proof/Laws/Menu.lean ====
section
/-! SUPPORT. What opening and leaving a modal overlay can do, and the snapshot store. -/

namespace Sys2Proof.Machine

variable {s : State} {cfg : Config}

theorem menu_area_le (k : MenuKind) : (cfg.menu k).w * (cfg.menu k).h ≤ snapCells cfg := by
  unfold snapCells
  cases k <;> simp only [Config.menu] <;> omega

theorem snap_addr_lt {k : MenuKind} {j : Nat} (hj : j < (cfg.menu k).w * (cfg.menu k).h) : 3 * j + 2 < Space.size cfg .snap := by
  show 3 * j + 2 < 3 * snapCells cfg
  have := menu_area_le (cfg := cfg) k
  omega

/-- A snapshot cell written keeps SNAP canonical. -/
theorem setSnap_wf {m : Memory} {j : Nat} {x : GridCell} (h : Memory.wf (unlisted cfg .snap) (Space.size cfg .snap) m = true)
    (hj : 3 * j + 2 < Space.size cfg .snap) : Memory.wf (unlisted cfg .snap) (Space.size cfg .snap) (setSnap cfg m j x) = true := by
  unfold setSnap
  exact Memory.wf_set (Memory.wf_set (Memory.wf_set h (by omega)) (by omega)) hj

/-- Reading SNAP after one cell of it was written (R94, R95). -/
theorem snapAt_setSnap {m : Memory} {j i : Nat} {x : GridCell} (h : Memory.wf (unlisted cfg .snap) (Space.size cfg .snap) m = true)
    (hj : 3 * j + 2 < Space.size cfg .snap) : snapAt cfg (setSnap cfg m j x) i = if i = j then x else snapAt cfg m i := by
  have h0 := Memory.wf_set (v := x.ch) h (a := 3 * j) (by omega)
  have h1 := Memory.wf_set (v := x.fg.setWidth 8) h0 (a := 3 * j + 1) (by omega)
  have hx : ∀ y : Colour, (y.setWidth 8).setWidth 6 = y := by
    intro y
    apply BitVec.eq_of_getLsbD_eq
    intro i hi
    simp only [BitVec.getLsbD_setWidth]
    simp [hi]; omega
  unfold snapAt setSnap
  simp only [Memory.get_set h1, Memory.get_set h0, Memory.get_set h]
  split_ifs <;> first | omega | simp_all

/-- The bytes of SNAP that writing one cell leaves. -/
theorem snapByte_setSnap {m : Memory} {j a : Nat} {x : GridCell} (h : Memory.wf (unlisted cfg .snap) (Space.size cfg .snap) m = true)
    (hj : 3 * j + 2 < Space.size cfg .snap) (ha : 3 * j + 2 < a) :
    Memory.get (unlisted cfg .snap) (setSnap cfg m j x) a = Memory.get (unlisted cfg .snap) m a := by
  have h0 := Memory.wf_set (v := x.ch) h (a := 3 * j) (by omega)
  have h1 := Memory.wf_set (v := x.fg.setWidth 8) h0 (a := 3 * j + 1) (by omega)
  unfold setSnap
  rw [Memory.get_set h1, Memory.get_set h0, Memory.get_set h, if_neg (by omega), if_neg (by omega), if_neg (by omega)]

/-- The index of a rectangle's cell determines it. -/
theorem rect_index_inj {w i i' k k' : Nat} (hk : k < w) (hk' : k' < w) : i * w + k = i' * w + k' ↔ i = i' ∧ k = k' := mul_add_inj hk hk'

/-- Taking the snapshot: SNAP alone changes, cell j of it is the j-th cell of the rectangle, and the bytes past the
rectangle's cells stay (R94). -/
theorem takeSnap_spec (k : MenuKind) (hs : Memory.wf (unlisted s.cfg .snap) (Space.size s.cfg .snap) s.snap = true) :
    ∃ sn, takeSnap (s.cfg.menu k) s = { s with snap := sn } ∧ Memory.wf (unlisted s.cfg .snap) (Space.size s.cfg .snap) sn = true ∧
      (∀ r c, inMenu (s.cfg.menu k) r c → snapAt s.cfg sn (menuIndex (s.cfg.menu k) r c) = Store.cell s.cfg s.back r c) ∧
      ∀ a, 3 * ((s.cfg.menu k).w * (s.cfg.menu k).h) ≤ a →
        Memory.get (unlisted s.cfg .snap) sn a = Memory.get (unlisted s.cfg .snap) s.snap a := by
  refine ⟨_, rfl, ?_⟩
  generalize hm : s.cfg.menu k = m
  have hlt : ∀ i x, i < m.h → x < m.w → 3 * (i * m.w + x) + 2 < Space.size s.cfg .snap := by
    intro i x hi hx
    have h1 : i * m.w + x < m.h * m.w := mul_add_lt hi hx
    exact snap_addr_lt (k := k) (by rw [hm, Nat.mul_comm m.w]; exact h1)
  have hle : ∀ i x, i < m.h → x < m.w → 3 * (i * m.w + x) + 2 < 3 * (m.w * m.h) := by
    intro i x hi hx
    have h1 : i * m.w + x < m.h * m.w := mul_add_lt hi hx
    rw [Nat.mul_comm m.w]; omega
  have key := loop_induct (fun a sn => a ≤ m.h → Memory.wf (unlisted s.cfg .snap) (Space.size s.cfg .snap) sn = true ∧
      (∀ i x, i < a → x < m.w → snapAt s.cfg sn (i * m.w + x) = Store.cell s.cfg s.back (m.y0 + i) (m.x0 + x)) ∧
      ∀ a, 3 * (m.w * m.h) ≤ a → Memory.get (unlisted s.cfg .snap) sn a = Memory.get (unlisted s.cfg .snap) s.snap a)
    m.h (fun i x => loop m.w (fun k x => setSnap s.cfg x (i * m.w + k) (Store.cell s.cfg s.back (m.y0 + i) (m.x0 + k))) x) s.snap
    (fun _ => ⟨hs, fun i x hi => by omega, fun _ _ => rfl⟩)
    (fun a sn ha ih _ => by
      obtain ⟨h1, h2, h3⟩ := ih (by omega)
      have inner := loop_induct (fun b t => b ≤ m.w → Memory.wf (unlisted s.cfg .snap) (Space.size s.cfg .snap) t = true ∧
          (∀ i x, x < m.w → (i < a ∨ (i = a ∧ x < b)) →
            snapAt s.cfg t (i * m.w + x) = Store.cell s.cfg s.back (m.y0 + i) (m.x0 + x)) ∧
          ∀ a, 3 * (m.w * m.h) ≤ a → Memory.get (unlisted s.cfg .snap) t a = Memory.get (unlisted s.cfg .snap) s.snap a)
        m.w (fun k x => setSnap s.cfg x (a * m.w + k) (Store.cell s.cfg s.back (m.y0 + a) (m.x0 + k))) sn
        (fun _ => ⟨h1, fun i x hx h => by rcases h with h | h <;> [exact h2 i x h hx; omega], h3⟩)
        (fun b t hb ihb _ => by
          obtain ⟨g1, g2, g3⟩ := ihb (by omega)
          refine ⟨setSnap_wf g1 (hlt a b ha hb), fun i x hx h => ?_, fun y hy => by
            rw [snapByte_setSnap g1 (hlt a b ha hb) (by have := hle a b ha hb; omega), g3 y hy]⟩
          rw [snapAt_setSnap g1 (hlt a b ha hb)]
          by_cases he : i * m.w + x = a * m.w + b
          · obtain ⟨rfl, rfl⟩ := (rect_index_inj hx hb).1 he
            rw [if_pos rfl]
          · rw [if_neg he]
            apply g2 i x hx
            rcases h with h | ⟨rfl, h⟩
            · exact .inl h
            · exact .inr ⟨rfl, by
                rcases Nat.lt_or_ge x b with h' | h'
                · exact h'
                · exact absurd (by rw [show x = b by omega]) he⟩) (le_refl _)
      exact ⟨inner.1, fun i x hi hx => inner.2.1 i x hx (by omega), inner.2.2⟩) (le_refl _)
  refine ⟨key.1, fun r c ⟨h1, h2, h3, h4⟩ => ?_, key.2.2⟩
  have := key.2.1 (r - m.y0) (c - m.x0) (by omega) (by omega)
  unfold menuIndex
  show snapAt s.cfg _ _ = _
  rw [show m.y0 + (r - m.y0) = r by omega, show m.x0 + (c - m.x0) = c by omega] at this
  exact this

/-- Writing a rectangle cell by cell from a list of cells by index: B and the step-local flag change, and B by that edit. -/
theorem overRect_spec (k : MenuKind) (x : Nat → GridCell) (hw : Store.wf s.cfg s.back = true) (hc : configWf s.cfg = true) :
    ∃ bk, overRect (s.cfg.menu k).w (s.cfg.menu k).h (fun i j n t =>
        setCell ((s.cfg.menu k).y0 + i) ((s.cfg.menu k).x0 + j) (x n).ch (x n).fg (x n).bg t) s =
        { s with back := bk, wrote := s.wrote || decide (0 < (s.cfg.menu k).w ∧ 0 < (s.cfg.menu k).h) } ∧
      StoreEdit s.cfg (inMenu (s.cfg.menu k)) (fun r c => x (menuIndex (s.cfg.menu k) r c)) s.back bk := by
  have h8 := config_cols8 hc
  obtain ⟨hx, hy, -⟩ := config_menu hc k
  generalize s.cfg.menu k = m at *
  have key := loop_induct (fun a t => a ≤ m.h → ∃ bk, t = { s with back := bk, wrote := s.wrote || decide (0 < m.w ∧ 0 < a) } ∧
      StoreEdit s.cfg (fun r c => m.y0 ≤ r ∧ r < m.y0 + a ∧ m.x0 ≤ c ∧ c < m.x0 + m.w) (fun r c => x (menuIndex m r c)) s.back bk)
    m.h (fun i t => loop m.w (fun j t => setCell (m.y0 + i) (m.x0 + j) (x (i * m.w + j)).ch (x (i * m.w + j)).fg (x (i * m.w + j)).bg t) t) s
    (fun _ => ⟨s.back, by simp, (StoreEdit.refl hw).congr (fun r c => by simp; omega) fun _ _ _ => rfl⟩)
    (fun a t ha ih _ => by
      obtain ⟨bk, rfl, he⟩ := ih (by omega)
      have inner := loop_induct (fun b t => b ≤ m.w → ∃ bk', t = { s with back := bk', wrote := s.wrote || decide (0 < m.w ∧ 0 < a) || decide (0 < b) } ∧
          StoreEdit s.cfg (fun r c => r = m.y0 + a ∧ m.x0 ≤ c ∧ c < m.x0 + b) (fun r c => x (menuIndex m r c)) bk bk')
        m.w (fun j t => setCell (m.y0 + a) (m.x0 + j) (x (a * m.w + j)).ch (x (a * m.w + j)).fg (x (a * m.w + j)).bg t)
        { s with back := bk, wrote := s.wrote || decide (0 < m.w ∧ 0 < a) }
        (fun _ => ⟨bk, by simp, (StoreEdit.refl he.canonical).congr (fun r c => ⟨fun h => h.elim, fun ⟨_, h1, h2⟩ => absurd h2 (by omega)⟩) fun _ _ _ => rfl⟩)
        (fun b t hb ihb _ => by
          obtain ⟨bk', rfl, he'⟩ := ihb (by omega)
          refine ⟨Store.setCell s.cfg bk' (m.y0 + a) (m.x0 + b) (x (a * m.w + b)).ch (x (a * m.w + b)).fg (x (a * m.w + b)).bg,
            by simp [setCell, State.putBack], ?_⟩
          have h1 : StoreEdit s.cfg (fun r c => r = m.y0 + a ∧ c = m.x0 + b) (fun r c => x (menuIndex m r c)) bk'
              (Store.setCell s.cfg bk' (m.y0 + a) (m.x0 + b) (x (a * m.w + b)).ch (x (a * m.w + b)).fg (x (a * m.w + b)).bg) :=
            StoreEdit.setCell he'.canonical h8 ⟨by omega, by omega⟩ (by
              have : menuIndex m (m.y0 + a) (m.x0 + b) = a * m.w + b := by
                unfold menuIndex
                rw [Nat.add_sub_cancel_left, Nat.add_sub_cancel_left]
              rw [this])
          refine (he'.trans h1 fun r c h => ⟨by omega, by omega⟩).congr (fun r c => ?_) fun _ _ _ => rfl
          constructor <;> intro h <;> omega) (le_refl _)
      obtain ⟨bk', h1, h2⟩ := inner
      refine ⟨bk', ?_, ?_⟩
      · rw [h1]
        congr 1
        rcases Nat.eq_zero_or_pos m.w with h0 | h0 <;> simp [h0]
      · refine (he.trans h2 fun r c h => ⟨by omega, by omega⟩).congr (fun r c => ?_) fun _ _ _ => rfl
        constructor <;> intro h <;> omega) (le_refl _)
  exact key

/-- OpenModal (R94): the mode, the digit registers, SNAP and B change. -/
theorem openModal_spec (k : MenuKind) (hw : Store.wf s.cfg s.back = true) (hc : configWf s.cfg = true)
    (hs : Memory.wf (unlisted s.cfg .snap) (Space.size s.cfg .snap) s.snap = true) :
    ∃ bk sn, openModal k s = { s with
        modal := some k, mdigN := false, mdigV := 0, snap := sn, back := bk
        wrote := s.wrote || decide (0 < (s.cfg.menu k).w ∧ 0 < (s.cfg.menu k).h) } ∧
      Memory.wf (unlisted s.cfg .snap) (Space.size s.cfg .snap) sn = true ∧
      (∀ r c, inMenu (s.cfg.menu k) r c → snapAt s.cfg sn (menuIndex (s.cfg.menu k) r c) = Store.cell s.cfg s.back r c) ∧
      (∀ a, 3 * ((s.cfg.menu k).w * (s.cfg.menu k).h) ≤ a →
        Memory.get (unlisted s.cfg .snap) sn a = Memory.get (unlisted s.cfg .snap) s.snap a) ∧
      StoreEdit s.cfg (inMenu (s.cfg.menu k)) (fun r c => imageCell s.cfg (s.cfg.menu k) (menuIndex (s.cfg.menu k) r c)) s.back bk := by
  obtain ⟨sn, h1, h2, h3, h6⟩ := takeSnap_spec (s := { s with modal := some k, mdigN := false, mdigV := 0 }) k hs
  obtain ⟨bk, h4, h5⟩ := overRect_spec (s := { s with modal := some k, mdigN := false, mdigV := 0, snap := sn }) k
    (fun n => imageCell s.cfg (s.cfg.menu k) n) hw hc
  refine ⟨bk, sn, ?_, h2, h3, h6, h5⟩
  unfold openModal
  simp only at h1 h4
  rw [h1]
  unfold drawImage
  simp only
  rw [h4]

/-- ExitModal with a menu open (R95): the mode, the digit registers and B change. -/
theorem exitModal_spec {k : MenuKind} (hm : s.modal = some k) (hw : Store.wf s.cfg s.back = true) (hc : configWf s.cfg = true) :
    ∃ bk, exitModal s = { s with
        modal := none, mdigN := false, mdigV := 0, back := bk
        wrote := s.wrote || decide (0 < (s.cfg.menu k).w ∧ 0 < (s.cfg.menu k).h) } ∧
      StoreEdit s.cfg (inMenu (s.cfg.menu k)) (fun r c => snapAt s.cfg s.snap (menuIndex (s.cfg.menu k) r c)) s.back bk := by
  obtain ⟨bk, h1, h2⟩ := overRect_spec (s := s) k (fun n => snapAt s.cfg s.snap n) hw hc
  refine ⟨bk, ?_, h2⟩
  unfold exitModal restoreSnap
  rw [hm]
  simp only
  rw [h1]

/-- With no menu open nothing but the digit registers changes (log 10). -/
theorem exitModal_none (hm : s.modal = none) : exitModal s = { s with mdigN := false, mdigV := 0 } := by
  unfold exitModal
  rw [hm]

end Sys2Proof.Machine
end

