-- ==== Sys2Proof/Laws/Overlay.lean ====
section
/-! SUPPORT. What the overlay, the swap handshakes and the TICK step can do. -/

namespace Sys2Proof.Machine

variable {s : State}

/-- Drawing the overlay: the overlay record and B change (R117). -/
theorem overlayDraw_spec (hw : Store.wf s.cfg s.back = true) (hc : configWf s.cfg = true) (hi : inGrid s.cfg s.curRow s.curCol) :
    ∃ bk, overlayDraw s = { s with
        back := bk, wrote := true, ovChar := Store.chrAt s.cfg s.back s.curRow s.curCol
        ovFg := Store.fgOf s.cfg s.back s.curRow s.curCol, ovRow := s.curRow, ovCol := s.curCol, drawn := true } ∧
      StoreEdit s.cfg (fun r c => r = s.curRow ∧ c = s.curCol)
        (fun r c => ⟨glyphOf s.cfg s.style, s.curFg, Store.bgOf s.cfg s.back r c⟩) s.back bk :=
  ⟨_, rfl, StoreEdit.setFg hw (config_cols8 hc) hi rfl⟩

/-- Removing the overlay: `drawn` and B change (R118). -/
theorem overlayRemove_spec (hw : Store.wf s.cfg s.back = true) (hc : configWf s.cfg = true) (hi : inGrid s.cfg s.ovRow s.ovCol) :
    ∃ bk, overlayRemove s = { s with back := bk, wrote := true, drawn := false } ∧
      StoreEdit s.cfg (fun r c => r = s.ovRow ∧ c = s.ovCol)
        (fun r c => ⟨s.ovChar, s.ovFg, Store.bgOf s.cfg s.back r c⟩) s.back bk :=
  ⟨_, rfl, StoreEdit.setFg hw (config_cols8 hc) hi rfl⟩

/-- The deferred handshake from idle registers is DeferredSwap and the phase sample, and leaves them idle (R111, R114). -/
theorem deferredHandshake_eq (h : s.hs = Handshake.idle) : deferredHandshake s = { s with
    front := if s.swapReq then s.back else s.front, swapReq := false, blinkPhase := s.curVisible } := by
  cases hq : s.swapReq <;> (obtain ⟨⟩ := s; simp only at h hq; subst h hq; rfl)

/-- The forced handshake from idle registers is ForcedSwap, and leaves them idle (R110, R114). -/
theorem forcedHandshake_eq (h : s.hs = Handshake.idle) : forcedHandshake s = forcedSwap s := by
  obtain ⟨⟩ := s
  simp only at h
  subst h
  unfold forcedHandshake fcGntCross fcRelease fcReqCross fcServe fcGrant fcRequest forcedSwap copyStore State.withHs Sync2.settle Sync2.clock Handshake.idle
  simp

/-- The swap action of a logic step (R109). -/
theorem swapAfterEdit_eq (p : SwapPolicy) (h : s.hs = Handshake.idle) : swapAfterEdit p s =
    if s.wrote then (match p with | .deferred => { s with swapReq := true } | .forced => { s with front := s.back, swapReq := false }) else s := by
  unfold swapAfterEdit
  cases p <;> simp [forcedHandshake_eq h, forcedSwap, copyStore]

/-- Every swap action changes F, the pending flag and the handshake registers at most. -/
theorem swapAfterEdit_frame (p : SwapPolicy) (h : s.hs = Handshake.idle) :
    ∃ fr q, swapAfterEdit p s = { s with front := fr, swapReq := q } ∧ (fr = s.front ∨ fr = s.back) := by
  rw [swapAfterEdit_eq p h]
  split
  · cases p
    · exact ⟨s.front, true, rfl, .inl rfl⟩
    · exact ⟨s.back, false, rfl, .inr rfl⟩
  · exact ⟨s.front, s.swapReq, rfl, .inl rfl⟩

/-- The LINE step once its buffer is taken (R133): what it leaves. -/
theorem lineBody_eq {b : LineBuf} (h : s.hs = Handshake.idle) (ho : s.owned = some b) :
    lineBody s =
      if s.line = 0 then
        { s with
          front := if s.swapReq then s.back else s.front, swapReq := false, blinkPhase := s.curVisible, owned := none
          submitted := ⟨b.id, encodeLine s.cfg (if s.swapReq then s.back else s.front) (lineRow s.cfg s.line)
            (lineGlyphRow s.cfg s.line) s.curVisible⟩ :: s.submitted
          line := (s.line + 1) % s.cfg.frameLines }
      else
        { s with
          owned := none
          submitted := ⟨b.id, encodeLine s.cfg s.front (lineRow s.cfg s.line) (lineGlyphRow s.cfg s.line) s.blinkPhase⟩ :: s.submitted
          line := (s.line + 1) % s.cfg.frameLines } := by
  unfold lineBody
  split
  · rw [deferredHandshake_eq h]
    simp [sinkFill, sinkSubmit, ho]
  · simp [sinkFill, sinkSubmit, ho]

end Sys2Proof.Machine
end

