-- ==== Sys2Proof/Laws/State.lean ====
section
/-! SUPPORT. What each named update of the state leaves in each field: one lemma per field per update. -/

namespace Sys2Proof.Machine

/-! A write to the back store. -/

@[simp] theorem State.putBack_cfg (s : State) (x : Store) : (s.putBack x).cfg = s.cfg := rfl
@[simp] theorem State.putBack_curCol (s : State) (x : Store) : (s.putBack x).curCol = s.curCol := rfl
@[simp] theorem State.putBack_curRow (s : State) (x : Store) : (s.putBack x).curRow = s.curRow := rfl
@[simp] theorem State.putBack_curFg (s : State) (x : Store) : (s.putBack x).curFg = s.curFg := rfl
@[simp] theorem State.putBack_curBg (s : State) (x : Store) : (s.putBack x).curBg = s.curBg := rfl
@[simp] theorem State.putBack_escMode (s : State) (x : Store) : (s.putBack x).escMode = s.escMode := rfl
@[simp] theorem State.putBack_csiMode (s : State) (x : Store) : (s.putBack x).csiMode = s.csiMode := rfl
@[simp] theorem State.putBack_skipLf (s : State) (x : Store) : (s.putBack x).skipLf = s.skipLf := rfl
@[simp] theorem State.putBack_skipCr (s : State) (x : Store) : (s.putBack x).skipCr = s.skipCr := rfl
@[simp] theorem State.putBack_savedCol (s : State) (x : Store) : (s.putBack x).savedCol = s.savedCol := rfl
@[simp] theorem State.putBack_savedRow (s : State) (x : Store) : (s.putBack x).savedRow = s.savedRow := rfl
@[simp] theorem State.putBack_savedValid (s : State) (x : Store) : (s.putBack x).savedValid = s.savedValid := rfl
@[simp] theorem State.putBack_pb (s : State) (x : Store) : (s.putBack x).pb = s.pb := rfl
@[simp] theorem State.putBack_style (s : State) (x : Store) : (s.putBack x).style = s.style := rfl
@[simp] theorem State.putBack_curVisible (s : State) (x : Store) : (s.putBack x).curVisible = s.curVisible := rfl
@[simp] theorem State.putBack_blinkCnt (s : State) (x : Store) : (s.putBack x).blinkCnt = s.blinkCnt := rfl
@[simp] theorem State.putBack_drawn (s : State) (x : Store) : (s.putBack x).drawn = s.drawn := rfl
@[simp] theorem State.putBack_ovChar (s : State) (x : Store) : (s.putBack x).ovChar = s.ovChar := rfl
@[simp] theorem State.putBack_ovFg (s : State) (x : Store) : (s.putBack x).ovFg = s.ovFg := rfl
@[simp] theorem State.putBack_ovCol (s : State) (x : Store) : (s.putBack x).ovCol = s.ovCol := rfl
@[simp] theorem State.putBack_ovRow (s : State) (x : Store) : (s.putBack x).ovRow = s.ovRow := rfl
@[simp] theorem State.putBack_modal (s : State) (x : Store) : (s.putBack x).modal = s.modal := rfl
@[simp] theorem State.putBack_mdigN (s : State) (x : Store) : (s.putBack x).mdigN = s.mdigN := rfl
@[simp] theorem State.putBack_mdigV (s : State) (x : Store) : (s.putBack x).mdigV = s.mdigV := rfl
@[simp] theorem State.putBack_swapReq (s : State) (x : Store) : (s.putBack x).swapReq = s.swapReq := rfl
@[simp] theorem State.putBack_line (s : State) (x : Store) : (s.putBack x).line = s.line := rfl
@[simp] theorem State.putBack_blinkPhase (s : State) (x : Store) : (s.putBack x).blinkPhase = s.blinkPhase := rfl
@[simp] theorem State.putBack_hs (s : State) (x : Store) : (s.putBack x).hs = s.hs := rfl
@[simp] theorem State.putBack_back (s : State) (x : Store) : (s.putBack x).back = x := rfl
@[simp] theorem State.putBack_front (s : State) (x : Store) : (s.putBack x).front = s.front := rfl
@[simp] theorem State.putBack_snap (s : State) (x : Store) : (s.putBack x).snap = s.snap := rfl
@[simp] theorem State.putBack_ring (s : State) (x : Store) : (s.putBack x).ring = s.ring := rfl
@[simp] theorem State.putBack_pendTick (s : State) (x : Store) : (s.putBack x).pendTick = s.pendTick := rfl
@[simp] theorem State.putBack_skFree (s : State) (x : Store) : (s.putBack x).skFree = s.skFree := rfl
@[simp] theorem State.putBack_owned (s : State) (x : Store) : (s.putBack x).owned = s.owned := rfl
@[simp] theorem State.putBack_submitted (s : State) (x : Store) : (s.putBack x).submitted = s.submitted := rfl
@[simp] theorem State.putBack_rsu (s : State) (x : Store) : (s.putBack x).rsu = s.rsu := rfl
@[simp] theorem State.putBack_freeDraws (s : State) (x : Store) : (s.putBack x).freeDraws = s.freeDraws := rfl
@[simp] theorem State.putBack_wrote (s : State) (x : Store) : (s.putBack x).wrote = true := rfl
@[simp] theorem State.putBack_popped (s : State) (x : Store) : (s.putBack x).popped = s.popped := rfl
@[simp] theorem State.putBack_inputs (s : State) (x : Store) : (s.putBack x).inputs = s.inputs := rfl

/-! The cursor moved. -/

@[simp] theorem State.setCursor_cfg (s : State) (c r : Nat) : (s.setCursor c r).cfg = s.cfg := rfl
@[simp] theorem State.setCursor_curCol (s : State) (c r : Nat) : (s.setCursor c r).curCol = c := rfl
@[simp] theorem State.setCursor_curRow (s : State) (c r : Nat) : (s.setCursor c r).curRow = r := rfl
@[simp] theorem State.setCursor_curFg (s : State) (c r : Nat) : (s.setCursor c r).curFg = s.curFg := rfl
@[simp] theorem State.setCursor_curBg (s : State) (c r : Nat) : (s.setCursor c r).curBg = s.curBg := rfl
@[simp] theorem State.setCursor_escMode (s : State) (c r : Nat) : (s.setCursor c r).escMode = s.escMode := rfl
@[simp] theorem State.setCursor_csiMode (s : State) (c r : Nat) : (s.setCursor c r).csiMode = s.csiMode := rfl
@[simp] theorem State.setCursor_skipLf (s : State) (c r : Nat) : (s.setCursor c r).skipLf = s.skipLf := rfl
@[simp] theorem State.setCursor_skipCr (s : State) (c r : Nat) : (s.setCursor c r).skipCr = s.skipCr := rfl
@[simp] theorem State.setCursor_savedCol (s : State) (c r : Nat) : (s.setCursor c r).savedCol = s.savedCol := rfl
@[simp] theorem State.setCursor_savedRow (s : State) (c r : Nat) : (s.setCursor c r).savedRow = s.savedRow := rfl
@[simp] theorem State.setCursor_savedValid (s : State) (c r : Nat) : (s.setCursor c r).savedValid = s.savedValid := rfl
@[simp] theorem State.setCursor_pb (s : State) (c r : Nat) : (s.setCursor c r).pb = s.pb := rfl
@[simp] theorem State.setCursor_style (s : State) (c r : Nat) : (s.setCursor c r).style = s.style := rfl
@[simp] theorem State.setCursor_curVisible (s : State) (c r : Nat) : (s.setCursor c r).curVisible = s.curVisible := rfl
@[simp] theorem State.setCursor_blinkCnt (s : State) (c r : Nat) : (s.setCursor c r).blinkCnt = s.blinkCnt := rfl
@[simp] theorem State.setCursor_drawn (s : State) (c r : Nat) : (s.setCursor c r).drawn = s.drawn := rfl
@[simp] theorem State.setCursor_ovChar (s : State) (c r : Nat) : (s.setCursor c r).ovChar = s.ovChar := rfl
@[simp] theorem State.setCursor_ovFg (s : State) (c r : Nat) : (s.setCursor c r).ovFg = s.ovFg := rfl
@[simp] theorem State.setCursor_ovCol (s : State) (c r : Nat) : (s.setCursor c r).ovCol = s.ovCol := rfl
@[simp] theorem State.setCursor_ovRow (s : State) (c r : Nat) : (s.setCursor c r).ovRow = s.ovRow := rfl
@[simp] theorem State.setCursor_modal (s : State) (c r : Nat) : (s.setCursor c r).modal = s.modal := rfl
@[simp] theorem State.setCursor_mdigN (s : State) (c r : Nat) : (s.setCursor c r).mdigN = s.mdigN := rfl
@[simp] theorem State.setCursor_mdigV (s : State) (c r : Nat) : (s.setCursor c r).mdigV = s.mdigV := rfl
@[simp] theorem State.setCursor_swapReq (s : State) (c r : Nat) : (s.setCursor c r).swapReq = s.swapReq := rfl
@[simp] theorem State.setCursor_line (s : State) (c r : Nat) : (s.setCursor c r).line = s.line := rfl
@[simp] theorem State.setCursor_blinkPhase (s : State) (c r : Nat) : (s.setCursor c r).blinkPhase = s.blinkPhase := rfl
@[simp] theorem State.setCursor_hs (s : State) (c r : Nat) : (s.setCursor c r).hs = s.hs := rfl
@[simp] theorem State.setCursor_back (s : State) (c r : Nat) : (s.setCursor c r).back = s.back := rfl
@[simp] theorem State.setCursor_front (s : State) (c r : Nat) : (s.setCursor c r).front = s.front := rfl
@[simp] theorem State.setCursor_snap (s : State) (c r : Nat) : (s.setCursor c r).snap = s.snap := rfl
@[simp] theorem State.setCursor_ring (s : State) (c r : Nat) : (s.setCursor c r).ring = s.ring := rfl
@[simp] theorem State.setCursor_pendTick (s : State) (c r : Nat) : (s.setCursor c r).pendTick = s.pendTick := rfl
@[simp] theorem State.setCursor_skFree (s : State) (c r : Nat) : (s.setCursor c r).skFree = s.skFree := rfl
@[simp] theorem State.setCursor_owned (s : State) (c r : Nat) : (s.setCursor c r).owned = s.owned := rfl
@[simp] theorem State.setCursor_submitted (s : State) (c r : Nat) : (s.setCursor c r).submitted = s.submitted := rfl
@[simp] theorem State.setCursor_rsu (s : State) (c r : Nat) : (s.setCursor c r).rsu = s.rsu := rfl
@[simp] theorem State.setCursor_freeDraws (s : State) (c r : Nat) : (s.setCursor c r).freeDraws = s.freeDraws := rfl
@[simp] theorem State.setCursor_wrote (s : State) (c r : Nat) : (s.setCursor c r).wrote = s.wrote := rfl
@[simp] theorem State.setCursor_popped (s : State) (c r : Nat) : (s.setCursor c r).popped = s.popped := rfl
@[simp] theorem State.setCursor_inputs (s : State) (c r : Nat) : (s.setCursor c r).inputs = s.inputs := rfl

/-! The handshake registers. -/

@[simp] theorem State.withHs_cfg (s : State) (h : Handshake) : (s.withHs h).cfg = s.cfg := rfl
@[simp] theorem State.withHs_curCol (s : State) (h : Handshake) : (s.withHs h).curCol = s.curCol := rfl
@[simp] theorem State.withHs_curRow (s : State) (h : Handshake) : (s.withHs h).curRow = s.curRow := rfl
@[simp] theorem State.withHs_curFg (s : State) (h : Handshake) : (s.withHs h).curFg = s.curFg := rfl
@[simp] theorem State.withHs_curBg (s : State) (h : Handshake) : (s.withHs h).curBg = s.curBg := rfl
@[simp] theorem State.withHs_escMode (s : State) (h : Handshake) : (s.withHs h).escMode = s.escMode := rfl
@[simp] theorem State.withHs_csiMode (s : State) (h : Handshake) : (s.withHs h).csiMode = s.csiMode := rfl
@[simp] theorem State.withHs_skipLf (s : State) (h : Handshake) : (s.withHs h).skipLf = s.skipLf := rfl
@[simp] theorem State.withHs_skipCr (s : State) (h : Handshake) : (s.withHs h).skipCr = s.skipCr := rfl
@[simp] theorem State.withHs_savedCol (s : State) (h : Handshake) : (s.withHs h).savedCol = s.savedCol := rfl
@[simp] theorem State.withHs_savedRow (s : State) (h : Handshake) : (s.withHs h).savedRow = s.savedRow := rfl
@[simp] theorem State.withHs_savedValid (s : State) (h : Handshake) : (s.withHs h).savedValid = s.savedValid := rfl
@[simp] theorem State.withHs_pb (s : State) (h : Handshake) : (s.withHs h).pb = s.pb := rfl
@[simp] theorem State.withHs_style (s : State) (h : Handshake) : (s.withHs h).style = s.style := rfl
@[simp] theorem State.withHs_curVisible (s : State) (h : Handshake) : (s.withHs h).curVisible = s.curVisible := rfl
@[simp] theorem State.withHs_blinkCnt (s : State) (h : Handshake) : (s.withHs h).blinkCnt = s.blinkCnt := rfl
@[simp] theorem State.withHs_drawn (s : State) (h : Handshake) : (s.withHs h).drawn = s.drawn := rfl
@[simp] theorem State.withHs_ovChar (s : State) (h : Handshake) : (s.withHs h).ovChar = s.ovChar := rfl
@[simp] theorem State.withHs_ovFg (s : State) (h : Handshake) : (s.withHs h).ovFg = s.ovFg := rfl
@[simp] theorem State.withHs_ovCol (s : State) (h : Handshake) : (s.withHs h).ovCol = s.ovCol := rfl
@[simp] theorem State.withHs_ovRow (s : State) (h : Handshake) : (s.withHs h).ovRow = s.ovRow := rfl
@[simp] theorem State.withHs_modal (s : State) (h : Handshake) : (s.withHs h).modal = s.modal := rfl
@[simp] theorem State.withHs_mdigN (s : State) (h : Handshake) : (s.withHs h).mdigN = s.mdigN := rfl
@[simp] theorem State.withHs_mdigV (s : State) (h : Handshake) : (s.withHs h).mdigV = s.mdigV := rfl
@[simp] theorem State.withHs_swapReq (s : State) (h : Handshake) : (s.withHs h).swapReq = s.swapReq := rfl
@[simp] theorem State.withHs_line (s : State) (h : Handshake) : (s.withHs h).line = s.line := rfl
@[simp] theorem State.withHs_blinkPhase (s : State) (h : Handshake) : (s.withHs h).blinkPhase = s.blinkPhase := rfl
@[simp] theorem State.withHs_hs (s : State) (h : Handshake) : (s.withHs h).hs = h := rfl
@[simp] theorem State.withHs_back (s : State) (h : Handshake) : (s.withHs h).back = s.back := rfl
@[simp] theorem State.withHs_front (s : State) (h : Handshake) : (s.withHs h).front = s.front := rfl
@[simp] theorem State.withHs_snap (s : State) (h : Handshake) : (s.withHs h).snap = s.snap := rfl
@[simp] theorem State.withHs_ring (s : State) (h : Handshake) : (s.withHs h).ring = s.ring := rfl
@[simp] theorem State.withHs_pendTick (s : State) (h : Handshake) : (s.withHs h).pendTick = s.pendTick := rfl
@[simp] theorem State.withHs_skFree (s : State) (h : Handshake) : (s.withHs h).skFree = s.skFree := rfl
@[simp] theorem State.withHs_owned (s : State) (h : Handshake) : (s.withHs h).owned = s.owned := rfl
@[simp] theorem State.withHs_submitted (s : State) (h : Handshake) : (s.withHs h).submitted = s.submitted := rfl
@[simp] theorem State.withHs_rsu (s : State) (h : Handshake) : (s.withHs h).rsu = s.rsu := rfl
@[simp] theorem State.withHs_freeDraws (s : State) (h : Handshake) : (s.withHs h).freeDraws = s.freeDraws := rfl
@[simp] theorem State.withHs_wrote (s : State) (h : Handshake) : (s.withHs h).wrote = s.wrote := rfl
@[simp] theorem State.withHs_popped (s : State) (h : Handshake) : (s.withHs h).popped = s.popped := rfl
@[simp] theorem State.withHs_inputs (s : State) (h : Handshake) : (s.withHs h).inputs = s.inputs := rfl

/-! The end of a CSI sequence. -/

@[simp] theorem State.csiDone_cfg (s : State) : s.csiDone.cfg = s.cfg := rfl
@[simp] theorem State.csiDone_curCol (s : State) : s.csiDone.curCol = s.curCol := rfl
@[simp] theorem State.csiDone_curRow (s : State) : s.csiDone.curRow = s.curRow := rfl
@[simp] theorem State.csiDone_curFg (s : State) : s.csiDone.curFg = s.curFg := rfl
@[simp] theorem State.csiDone_curBg (s : State) : s.csiDone.curBg = s.curBg := rfl
@[simp] theorem State.csiDone_escMode (s : State) : s.csiDone.escMode = s.escMode := rfl
@[simp] theorem State.csiDone_csiMode (s : State) : s.csiDone.csiMode = false := rfl
@[simp] theorem State.csiDone_skipLf (s : State) : s.csiDone.skipLf = s.skipLf := rfl
@[simp] theorem State.csiDone_skipCr (s : State) : s.csiDone.skipCr = s.skipCr := rfl
@[simp] theorem State.csiDone_savedCol (s : State) : s.csiDone.savedCol = s.savedCol := rfl
@[simp] theorem State.csiDone_savedRow (s : State) : s.csiDone.savedRow = s.savedRow := rfl
@[simp] theorem State.csiDone_savedValid (s : State) : s.csiDone.savedValid = s.savedValid := rfl
@[simp] theorem State.csiDone_pb (s : State) : s.csiDone.pb = ParseBuf.empty := rfl
@[simp] theorem State.csiDone_style (s : State) : s.csiDone.style = s.style := rfl
@[simp] theorem State.csiDone_curVisible (s : State) : s.csiDone.curVisible = s.curVisible := rfl
@[simp] theorem State.csiDone_blinkCnt (s : State) : s.csiDone.blinkCnt = s.blinkCnt := rfl
@[simp] theorem State.csiDone_drawn (s : State) : s.csiDone.drawn = s.drawn := rfl
@[simp] theorem State.csiDone_ovChar (s : State) : s.csiDone.ovChar = s.ovChar := rfl
@[simp] theorem State.csiDone_ovFg (s : State) : s.csiDone.ovFg = s.ovFg := rfl
@[simp] theorem State.csiDone_ovCol (s : State) : s.csiDone.ovCol = s.ovCol := rfl
@[simp] theorem State.csiDone_ovRow (s : State) : s.csiDone.ovRow = s.ovRow := rfl
@[simp] theorem State.csiDone_modal (s : State) : s.csiDone.modal = s.modal := rfl
@[simp] theorem State.csiDone_mdigN (s : State) : s.csiDone.mdigN = s.mdigN := rfl
@[simp] theorem State.csiDone_mdigV (s : State) : s.csiDone.mdigV = s.mdigV := rfl
@[simp] theorem State.csiDone_swapReq (s : State) : s.csiDone.swapReq = s.swapReq := rfl
@[simp] theorem State.csiDone_line (s : State) : s.csiDone.line = s.line := rfl
@[simp] theorem State.csiDone_blinkPhase (s : State) : s.csiDone.blinkPhase = s.blinkPhase := rfl
@[simp] theorem State.csiDone_hs (s : State) : s.csiDone.hs = s.hs := rfl
@[simp] theorem State.csiDone_back (s : State) : s.csiDone.back = s.back := rfl
@[simp] theorem State.csiDone_front (s : State) : s.csiDone.front = s.front := rfl
@[simp] theorem State.csiDone_snap (s : State) : s.csiDone.snap = s.snap := rfl
@[simp] theorem State.csiDone_ring (s : State) : s.csiDone.ring = s.ring := rfl
@[simp] theorem State.csiDone_pendTick (s : State) : s.csiDone.pendTick = s.pendTick := rfl
@[simp] theorem State.csiDone_skFree (s : State) : s.csiDone.skFree = s.skFree := rfl
@[simp] theorem State.csiDone_owned (s : State) : s.csiDone.owned = s.owned := rfl
@[simp] theorem State.csiDone_submitted (s : State) : s.csiDone.submitted = s.submitted := rfl
@[simp] theorem State.csiDone_rsu (s : State) : s.csiDone.rsu = s.rsu := rfl
@[simp] theorem State.csiDone_freeDraws (s : State) : s.csiDone.freeDraws = s.freeDraws := rfl
@[simp] theorem State.csiDone_wrote (s : State) : s.csiDone.wrote = s.wrote := rfl
@[simp] theorem State.csiDone_popped (s : State) : s.csiDone.popped = s.popped := rfl
@[simp] theorem State.csiDone_inputs (s : State) : s.csiDone.inputs = s.inputs := rfl

/-! The skip flags cleared. -/

@[simp] theorem clearSkips_cfg (s : State) : (clearSkips s).cfg = s.cfg := rfl
@[simp] theorem clearSkips_curCol (s : State) : (clearSkips s).curCol = s.curCol := rfl
@[simp] theorem clearSkips_curRow (s : State) : (clearSkips s).curRow = s.curRow := rfl
@[simp] theorem clearSkips_curFg (s : State) : (clearSkips s).curFg = s.curFg := rfl
@[simp] theorem clearSkips_curBg (s : State) : (clearSkips s).curBg = s.curBg := rfl
@[simp] theorem clearSkips_escMode (s : State) : (clearSkips s).escMode = s.escMode := rfl
@[simp] theorem clearSkips_csiMode (s : State) : (clearSkips s).csiMode = s.csiMode := rfl
@[simp] theorem clearSkips_skipLf (s : State) : (clearSkips s).skipLf = false := rfl
@[simp] theorem clearSkips_skipCr (s : State) : (clearSkips s).skipCr = false := rfl
@[simp] theorem clearSkips_savedCol (s : State) : (clearSkips s).savedCol = s.savedCol := rfl
@[simp] theorem clearSkips_savedRow (s : State) : (clearSkips s).savedRow = s.savedRow := rfl
@[simp] theorem clearSkips_savedValid (s : State) : (clearSkips s).savedValid = s.savedValid := rfl
@[simp] theorem clearSkips_pb (s : State) : (clearSkips s).pb = s.pb := rfl
@[simp] theorem clearSkips_style (s : State) : (clearSkips s).style = s.style := rfl
@[simp] theorem clearSkips_curVisible (s : State) : (clearSkips s).curVisible = s.curVisible := rfl
@[simp] theorem clearSkips_blinkCnt (s : State) : (clearSkips s).blinkCnt = s.blinkCnt := rfl
@[simp] theorem clearSkips_drawn (s : State) : (clearSkips s).drawn = s.drawn := rfl
@[simp] theorem clearSkips_ovChar (s : State) : (clearSkips s).ovChar = s.ovChar := rfl
@[simp] theorem clearSkips_ovFg (s : State) : (clearSkips s).ovFg = s.ovFg := rfl
@[simp] theorem clearSkips_ovCol (s : State) : (clearSkips s).ovCol = s.ovCol := rfl
@[simp] theorem clearSkips_ovRow (s : State) : (clearSkips s).ovRow = s.ovRow := rfl
@[simp] theorem clearSkips_modal (s : State) : (clearSkips s).modal = s.modal := rfl
@[simp] theorem clearSkips_mdigN (s : State) : (clearSkips s).mdigN = s.mdigN := rfl
@[simp] theorem clearSkips_mdigV (s : State) : (clearSkips s).mdigV = s.mdigV := rfl
@[simp] theorem clearSkips_swapReq (s : State) : (clearSkips s).swapReq = s.swapReq := rfl
@[simp] theorem clearSkips_line (s : State) : (clearSkips s).line = s.line := rfl
@[simp] theorem clearSkips_blinkPhase (s : State) : (clearSkips s).blinkPhase = s.blinkPhase := rfl
@[simp] theorem clearSkips_hs (s : State) : (clearSkips s).hs = s.hs := rfl
@[simp] theorem clearSkips_back (s : State) : (clearSkips s).back = s.back := rfl
@[simp] theorem clearSkips_front (s : State) : (clearSkips s).front = s.front := rfl
@[simp] theorem clearSkips_snap (s : State) : (clearSkips s).snap = s.snap := rfl
@[simp] theorem clearSkips_ring (s : State) : (clearSkips s).ring = s.ring := rfl
@[simp] theorem clearSkips_pendTick (s : State) : (clearSkips s).pendTick = s.pendTick := rfl
@[simp] theorem clearSkips_skFree (s : State) : (clearSkips s).skFree = s.skFree := rfl
@[simp] theorem clearSkips_owned (s : State) : (clearSkips s).owned = s.owned := rfl
@[simp] theorem clearSkips_submitted (s : State) : (clearSkips s).submitted = s.submitted := rfl
@[simp] theorem clearSkips_rsu (s : State) : (clearSkips s).rsu = s.rsu := rfl
@[simp] theorem clearSkips_freeDraws (s : State) : (clearSkips s).freeDraws = s.freeDraws := rfl
@[simp] theorem clearSkips_wrote (s : State) : (clearSkips s).wrote = s.wrote := rfl
@[simp] theorem clearSkips_popped (s : State) : (clearSkips s).popped = s.popped := rfl
@[simp] theorem clearSkips_inputs (s : State) : (clearSkips s).inputs = s.inputs := rfl

/-! A line broken by CR. -/

@[simp] theorem expectLf_cfg (s : State) : (expectLf s).cfg = s.cfg := rfl
@[simp] theorem expectLf_curCol (s : State) : (expectLf s).curCol = s.curCol := rfl
@[simp] theorem expectLf_curRow (s : State) : (expectLf s).curRow = s.curRow := rfl
@[simp] theorem expectLf_curFg (s : State) : (expectLf s).curFg = s.curFg := rfl
@[simp] theorem expectLf_curBg (s : State) : (expectLf s).curBg = s.curBg := rfl
@[simp] theorem expectLf_escMode (s : State) : (expectLf s).escMode = s.escMode := rfl
@[simp] theorem expectLf_csiMode (s : State) : (expectLf s).csiMode = s.csiMode := rfl
@[simp] theorem expectLf_skipLf (s : State) : (expectLf s).skipLf = true := rfl
@[simp] theorem expectLf_skipCr (s : State) : (expectLf s).skipCr = false := rfl
@[simp] theorem expectLf_savedCol (s : State) : (expectLf s).savedCol = s.savedCol := rfl
@[simp] theorem expectLf_savedRow (s : State) : (expectLf s).savedRow = s.savedRow := rfl
@[simp] theorem expectLf_savedValid (s : State) : (expectLf s).savedValid = s.savedValid := rfl
@[simp] theorem expectLf_pb (s : State) : (expectLf s).pb = s.pb := rfl
@[simp] theorem expectLf_style (s : State) : (expectLf s).style = s.style := rfl
@[simp] theorem expectLf_curVisible (s : State) : (expectLf s).curVisible = s.curVisible := rfl
@[simp] theorem expectLf_blinkCnt (s : State) : (expectLf s).blinkCnt = s.blinkCnt := rfl
@[simp] theorem expectLf_drawn (s : State) : (expectLf s).drawn = s.drawn := rfl
@[simp] theorem expectLf_ovChar (s : State) : (expectLf s).ovChar = s.ovChar := rfl
@[simp] theorem expectLf_ovFg (s : State) : (expectLf s).ovFg = s.ovFg := rfl
@[simp] theorem expectLf_ovCol (s : State) : (expectLf s).ovCol = s.ovCol := rfl
@[simp] theorem expectLf_ovRow (s : State) : (expectLf s).ovRow = s.ovRow := rfl
@[simp] theorem expectLf_modal (s : State) : (expectLf s).modal = s.modal := rfl
@[simp] theorem expectLf_mdigN (s : State) : (expectLf s).mdigN = s.mdigN := rfl
@[simp] theorem expectLf_mdigV (s : State) : (expectLf s).mdigV = s.mdigV := rfl
@[simp] theorem expectLf_swapReq (s : State) : (expectLf s).swapReq = s.swapReq := rfl
@[simp] theorem expectLf_line (s : State) : (expectLf s).line = s.line := rfl
@[simp] theorem expectLf_blinkPhase (s : State) : (expectLf s).blinkPhase = s.blinkPhase := rfl
@[simp] theorem expectLf_hs (s : State) : (expectLf s).hs = s.hs := rfl
@[simp] theorem expectLf_back (s : State) : (expectLf s).back = s.back := rfl
@[simp] theorem expectLf_front (s : State) : (expectLf s).front = s.front := rfl
@[simp] theorem expectLf_snap (s : State) : (expectLf s).snap = s.snap := rfl
@[simp] theorem expectLf_ring (s : State) : (expectLf s).ring = s.ring := rfl
@[simp] theorem expectLf_pendTick (s : State) : (expectLf s).pendTick = s.pendTick := rfl
@[simp] theorem expectLf_skFree (s : State) : (expectLf s).skFree = s.skFree := rfl
@[simp] theorem expectLf_owned (s : State) : (expectLf s).owned = s.owned := rfl
@[simp] theorem expectLf_submitted (s : State) : (expectLf s).submitted = s.submitted := rfl
@[simp] theorem expectLf_rsu (s : State) : (expectLf s).rsu = s.rsu := rfl
@[simp] theorem expectLf_freeDraws (s : State) : (expectLf s).freeDraws = s.freeDraws := rfl
@[simp] theorem expectLf_wrote (s : State) : (expectLf s).wrote = s.wrote := rfl
@[simp] theorem expectLf_popped (s : State) : (expectLf s).popped = s.popped := rfl
@[simp] theorem expectLf_inputs (s : State) : (expectLf s).inputs = s.inputs := rfl

/-! A line broken by LF. -/

@[simp] theorem expectCr_cfg (s : State) : (expectCr s).cfg = s.cfg := rfl
@[simp] theorem expectCr_curCol (s : State) : (expectCr s).curCol = s.curCol := rfl
@[simp] theorem expectCr_curRow (s : State) : (expectCr s).curRow = s.curRow := rfl
@[simp] theorem expectCr_curFg (s : State) : (expectCr s).curFg = s.curFg := rfl
@[simp] theorem expectCr_curBg (s : State) : (expectCr s).curBg = s.curBg := rfl
@[simp] theorem expectCr_escMode (s : State) : (expectCr s).escMode = s.escMode := rfl
@[simp] theorem expectCr_csiMode (s : State) : (expectCr s).csiMode = s.csiMode := rfl
@[simp] theorem expectCr_skipLf (s : State) : (expectCr s).skipLf = false := rfl
@[simp] theorem expectCr_skipCr (s : State) : (expectCr s).skipCr = true := rfl
@[simp] theorem expectCr_savedCol (s : State) : (expectCr s).savedCol = s.savedCol := rfl
@[simp] theorem expectCr_savedRow (s : State) : (expectCr s).savedRow = s.savedRow := rfl
@[simp] theorem expectCr_savedValid (s : State) : (expectCr s).savedValid = s.savedValid := rfl
@[simp] theorem expectCr_pb (s : State) : (expectCr s).pb = s.pb := rfl
@[simp] theorem expectCr_style (s : State) : (expectCr s).style = s.style := rfl
@[simp] theorem expectCr_curVisible (s : State) : (expectCr s).curVisible = s.curVisible := rfl
@[simp] theorem expectCr_blinkCnt (s : State) : (expectCr s).blinkCnt = s.blinkCnt := rfl
@[simp] theorem expectCr_drawn (s : State) : (expectCr s).drawn = s.drawn := rfl
@[simp] theorem expectCr_ovChar (s : State) : (expectCr s).ovChar = s.ovChar := rfl
@[simp] theorem expectCr_ovFg (s : State) : (expectCr s).ovFg = s.ovFg := rfl
@[simp] theorem expectCr_ovCol (s : State) : (expectCr s).ovCol = s.ovCol := rfl
@[simp] theorem expectCr_ovRow (s : State) : (expectCr s).ovRow = s.ovRow := rfl
@[simp] theorem expectCr_modal (s : State) : (expectCr s).modal = s.modal := rfl
@[simp] theorem expectCr_mdigN (s : State) : (expectCr s).mdigN = s.mdigN := rfl
@[simp] theorem expectCr_mdigV (s : State) : (expectCr s).mdigV = s.mdigV := rfl
@[simp] theorem expectCr_swapReq (s : State) : (expectCr s).swapReq = s.swapReq := rfl
@[simp] theorem expectCr_line (s : State) : (expectCr s).line = s.line := rfl
@[simp] theorem expectCr_blinkPhase (s : State) : (expectCr s).blinkPhase = s.blinkPhase := rfl
@[simp] theorem expectCr_hs (s : State) : (expectCr s).hs = s.hs := rfl
@[simp] theorem expectCr_back (s : State) : (expectCr s).back = s.back := rfl
@[simp] theorem expectCr_front (s : State) : (expectCr s).front = s.front := rfl
@[simp] theorem expectCr_snap (s : State) : (expectCr s).snap = s.snap := rfl
@[simp] theorem expectCr_ring (s : State) : (expectCr s).ring = s.ring := rfl
@[simp] theorem expectCr_pendTick (s : State) : (expectCr s).pendTick = s.pendTick := rfl
@[simp] theorem expectCr_skFree (s : State) : (expectCr s).skFree = s.skFree := rfl
@[simp] theorem expectCr_owned (s : State) : (expectCr s).owned = s.owned := rfl
@[simp] theorem expectCr_submitted (s : State) : (expectCr s).submitted = s.submitted := rfl
@[simp] theorem expectCr_rsu (s : State) : (expectCr s).rsu = s.rsu := rfl
@[simp] theorem expectCr_freeDraws (s : State) : (expectCr s).freeDraws = s.freeDraws := rfl
@[simp] theorem expectCr_wrote (s : State) : (expectCr s).wrote = s.wrote := rfl
@[simp] theorem expectCr_popped (s : State) : (expectCr s).popped = s.popped := rfl
@[simp] theorem expectCr_inputs (s : State) : (expectCr s).inputs = s.inputs := rfl

/-! The parse buffer reset. -/

@[simp] theorem pbReset_cfg (s : State) : (pbReset s).cfg = s.cfg := rfl
@[simp] theorem pbReset_curCol (s : State) : (pbReset s).curCol = s.curCol := rfl
@[simp] theorem pbReset_curRow (s : State) : (pbReset s).curRow = s.curRow := rfl
@[simp] theorem pbReset_curFg (s : State) : (pbReset s).curFg = s.curFg := rfl
@[simp] theorem pbReset_curBg (s : State) : (pbReset s).curBg = s.curBg := rfl
@[simp] theorem pbReset_escMode (s : State) : (pbReset s).escMode = s.escMode := rfl
@[simp] theorem pbReset_csiMode (s : State) : (pbReset s).csiMode = s.csiMode := rfl
@[simp] theorem pbReset_skipLf (s : State) : (pbReset s).skipLf = s.skipLf := rfl
@[simp] theorem pbReset_skipCr (s : State) : (pbReset s).skipCr = s.skipCr := rfl
@[simp] theorem pbReset_savedCol (s : State) : (pbReset s).savedCol = s.savedCol := rfl
@[simp] theorem pbReset_savedRow (s : State) : (pbReset s).savedRow = s.savedRow := rfl
@[simp] theorem pbReset_savedValid (s : State) : (pbReset s).savedValid = s.savedValid := rfl
@[simp] theorem pbReset_pb (s : State) : (pbReset s).pb = ParseBuf.empty := rfl
@[simp] theorem pbReset_style (s : State) : (pbReset s).style = s.style := rfl
@[simp] theorem pbReset_curVisible (s : State) : (pbReset s).curVisible = s.curVisible := rfl
@[simp] theorem pbReset_blinkCnt (s : State) : (pbReset s).blinkCnt = s.blinkCnt := rfl
@[simp] theorem pbReset_drawn (s : State) : (pbReset s).drawn = s.drawn := rfl
@[simp] theorem pbReset_ovChar (s : State) : (pbReset s).ovChar = s.ovChar := rfl
@[simp] theorem pbReset_ovFg (s : State) : (pbReset s).ovFg = s.ovFg := rfl
@[simp] theorem pbReset_ovCol (s : State) : (pbReset s).ovCol = s.ovCol := rfl
@[simp] theorem pbReset_ovRow (s : State) : (pbReset s).ovRow = s.ovRow := rfl
@[simp] theorem pbReset_modal (s : State) : (pbReset s).modal = s.modal := rfl
@[simp] theorem pbReset_mdigN (s : State) : (pbReset s).mdigN = s.mdigN := rfl
@[simp] theorem pbReset_mdigV (s : State) : (pbReset s).mdigV = s.mdigV := rfl
@[simp] theorem pbReset_swapReq (s : State) : (pbReset s).swapReq = s.swapReq := rfl
@[simp] theorem pbReset_line (s : State) : (pbReset s).line = s.line := rfl
@[simp] theorem pbReset_blinkPhase (s : State) : (pbReset s).blinkPhase = s.blinkPhase := rfl
@[simp] theorem pbReset_hs (s : State) : (pbReset s).hs = s.hs := rfl
@[simp] theorem pbReset_back (s : State) : (pbReset s).back = s.back := rfl
@[simp] theorem pbReset_front (s : State) : (pbReset s).front = s.front := rfl
@[simp] theorem pbReset_snap (s : State) : (pbReset s).snap = s.snap := rfl
@[simp] theorem pbReset_ring (s : State) : (pbReset s).ring = s.ring := rfl
@[simp] theorem pbReset_pendTick (s : State) : (pbReset s).pendTick = s.pendTick := rfl
@[simp] theorem pbReset_skFree (s : State) : (pbReset s).skFree = s.skFree := rfl
@[simp] theorem pbReset_owned (s : State) : (pbReset s).owned = s.owned := rfl
@[simp] theorem pbReset_submitted (s : State) : (pbReset s).submitted = s.submitted := rfl
@[simp] theorem pbReset_rsu (s : State) : (pbReset s).rsu = s.rsu := rfl
@[simp] theorem pbReset_freeDraws (s : State) : (pbReset s).freeDraws = s.freeDraws := rfl
@[simp] theorem pbReset_wrote (s : State) : (pbReset s).wrote = s.wrote := rfl
@[simp] theorem pbReset_popped (s : State) : (pbReset s).popped = s.popped := rfl
@[simp] theorem pbReset_inputs (s : State) : (pbReset s).inputs = s.inputs := rfl

/-! The parser modes. -/

@[simp] theorem setModes_cfg (s : State) (e c : Bool) : (setModes e c s).cfg = s.cfg := rfl
@[simp] theorem setModes_curCol (s : State) (e c : Bool) : (setModes e c s).curCol = s.curCol := rfl
@[simp] theorem setModes_curRow (s : State) (e c : Bool) : (setModes e c s).curRow = s.curRow := rfl
@[simp] theorem setModes_curFg (s : State) (e c : Bool) : (setModes e c s).curFg = s.curFg := rfl
@[simp] theorem setModes_curBg (s : State) (e c : Bool) : (setModes e c s).curBg = s.curBg := rfl
@[simp] theorem setModes_escMode (s : State) (e c : Bool) : (setModes e c s).escMode = e := rfl
@[simp] theorem setModes_csiMode (s : State) (e c : Bool) : (setModes e c s).csiMode = c := rfl
@[simp] theorem setModes_skipLf (s : State) (e c : Bool) : (setModes e c s).skipLf = s.skipLf := rfl
@[simp] theorem setModes_skipCr (s : State) (e c : Bool) : (setModes e c s).skipCr = s.skipCr := rfl
@[simp] theorem setModes_savedCol (s : State) (e c : Bool) : (setModes e c s).savedCol = s.savedCol := rfl
@[simp] theorem setModes_savedRow (s : State) (e c : Bool) : (setModes e c s).savedRow = s.savedRow := rfl
@[simp] theorem setModes_savedValid (s : State) (e c : Bool) : (setModes e c s).savedValid = s.savedValid := rfl
@[simp] theorem setModes_pb (s : State) (e c : Bool) : (setModes e c s).pb = s.pb := rfl
@[simp] theorem setModes_style (s : State) (e c : Bool) : (setModes e c s).style = s.style := rfl
@[simp] theorem setModes_curVisible (s : State) (e c : Bool) : (setModes e c s).curVisible = s.curVisible := rfl
@[simp] theorem setModes_blinkCnt (s : State) (e c : Bool) : (setModes e c s).blinkCnt = s.blinkCnt := rfl
@[simp] theorem setModes_drawn (s : State) (e c : Bool) : (setModes e c s).drawn = s.drawn := rfl
@[simp] theorem setModes_ovChar (s : State) (e c : Bool) : (setModes e c s).ovChar = s.ovChar := rfl
@[simp] theorem setModes_ovFg (s : State) (e c : Bool) : (setModes e c s).ovFg = s.ovFg := rfl
@[simp] theorem setModes_ovCol (s : State) (e c : Bool) : (setModes e c s).ovCol = s.ovCol := rfl
@[simp] theorem setModes_ovRow (s : State) (e c : Bool) : (setModes e c s).ovRow = s.ovRow := rfl
@[simp] theorem setModes_modal (s : State) (e c : Bool) : (setModes e c s).modal = s.modal := rfl
@[simp] theorem setModes_mdigN (s : State) (e c : Bool) : (setModes e c s).mdigN = s.mdigN := rfl
@[simp] theorem setModes_mdigV (s : State) (e c : Bool) : (setModes e c s).mdigV = s.mdigV := rfl
@[simp] theorem setModes_swapReq (s : State) (e c : Bool) : (setModes e c s).swapReq = s.swapReq := rfl
@[simp] theorem setModes_line (s : State) (e c : Bool) : (setModes e c s).line = s.line := rfl
@[simp] theorem setModes_blinkPhase (s : State) (e c : Bool) : (setModes e c s).blinkPhase = s.blinkPhase := rfl
@[simp] theorem setModes_hs (s : State) (e c : Bool) : (setModes e c s).hs = s.hs := rfl
@[simp] theorem setModes_back (s : State) (e c : Bool) : (setModes e c s).back = s.back := rfl
@[simp] theorem setModes_front (s : State) (e c : Bool) : (setModes e c s).front = s.front := rfl
@[simp] theorem setModes_snap (s : State) (e c : Bool) : (setModes e c s).snap = s.snap := rfl
@[simp] theorem setModes_ring (s : State) (e c : Bool) : (setModes e c s).ring = s.ring := rfl
@[simp] theorem setModes_pendTick (s : State) (e c : Bool) : (setModes e c s).pendTick = s.pendTick := rfl
@[simp] theorem setModes_skFree (s : State) (e c : Bool) : (setModes e c s).skFree = s.skFree := rfl
@[simp] theorem setModes_owned (s : State) (e c : Bool) : (setModes e c s).owned = s.owned := rfl
@[simp] theorem setModes_submitted (s : State) (e c : Bool) : (setModes e c s).submitted = s.submitted := rfl
@[simp] theorem setModes_rsu (s : State) (e c : Bool) : (setModes e c s).rsu = s.rsu := rfl
@[simp] theorem setModes_freeDraws (s : State) (e c : Bool) : (setModes e c s).freeDraws = s.freeDraws := rfl
@[simp] theorem setModes_wrote (s : State) (e c : Bool) : (setModes e c s).wrote = s.wrote := rfl
@[simp] theorem setModes_popped (s : State) (e c : Bool) : (setModes e c s).popped = s.popped := rfl
@[simp] theorem setModes_inputs (s : State) (e c : Bool) : (setModes e c s).inputs = s.inputs := rfl

/-! The swap copy. -/

@[simp] theorem copyStore_cfg (s : State) : (copyStore s).cfg = s.cfg := rfl
@[simp] theorem copyStore_curCol (s : State) : (copyStore s).curCol = s.curCol := rfl
@[simp] theorem copyStore_curRow (s : State) : (copyStore s).curRow = s.curRow := rfl
@[simp] theorem copyStore_curFg (s : State) : (copyStore s).curFg = s.curFg := rfl
@[simp] theorem copyStore_curBg (s : State) : (copyStore s).curBg = s.curBg := rfl
@[simp] theorem copyStore_escMode (s : State) : (copyStore s).escMode = s.escMode := rfl
@[simp] theorem copyStore_csiMode (s : State) : (copyStore s).csiMode = s.csiMode := rfl
@[simp] theorem copyStore_skipLf (s : State) : (copyStore s).skipLf = s.skipLf := rfl
@[simp] theorem copyStore_skipCr (s : State) : (copyStore s).skipCr = s.skipCr := rfl
@[simp] theorem copyStore_savedCol (s : State) : (copyStore s).savedCol = s.savedCol := rfl
@[simp] theorem copyStore_savedRow (s : State) : (copyStore s).savedRow = s.savedRow := rfl
@[simp] theorem copyStore_savedValid (s : State) : (copyStore s).savedValid = s.savedValid := rfl
@[simp] theorem copyStore_pb (s : State) : (copyStore s).pb = s.pb := rfl
@[simp] theorem copyStore_style (s : State) : (copyStore s).style = s.style := rfl
@[simp] theorem copyStore_curVisible (s : State) : (copyStore s).curVisible = s.curVisible := rfl
@[simp] theorem copyStore_blinkCnt (s : State) : (copyStore s).blinkCnt = s.blinkCnt := rfl
@[simp] theorem copyStore_drawn (s : State) : (copyStore s).drawn = s.drawn := rfl
@[simp] theorem copyStore_ovChar (s : State) : (copyStore s).ovChar = s.ovChar := rfl
@[simp] theorem copyStore_ovFg (s : State) : (copyStore s).ovFg = s.ovFg := rfl
@[simp] theorem copyStore_ovCol (s : State) : (copyStore s).ovCol = s.ovCol := rfl
@[simp] theorem copyStore_ovRow (s : State) : (copyStore s).ovRow = s.ovRow := rfl
@[simp] theorem copyStore_modal (s : State) : (copyStore s).modal = s.modal := rfl
@[simp] theorem copyStore_mdigN (s : State) : (copyStore s).mdigN = s.mdigN := rfl
@[simp] theorem copyStore_mdigV (s : State) : (copyStore s).mdigV = s.mdigV := rfl
@[simp] theorem copyStore_swapReq (s : State) : (copyStore s).swapReq = s.swapReq := rfl
@[simp] theorem copyStore_line (s : State) : (copyStore s).line = s.line := rfl
@[simp] theorem copyStore_blinkPhase (s : State) : (copyStore s).blinkPhase = s.blinkPhase := rfl
@[simp] theorem copyStore_hs (s : State) : (copyStore s).hs = s.hs := rfl
@[simp] theorem copyStore_back (s : State) : (copyStore s).back = s.back := rfl
@[simp] theorem copyStore_front (s : State) : (copyStore s).front = s.back := rfl
@[simp] theorem copyStore_snap (s : State) : (copyStore s).snap = s.snap := rfl
@[simp] theorem copyStore_ring (s : State) : (copyStore s).ring = s.ring := rfl
@[simp] theorem copyStore_pendTick (s : State) : (copyStore s).pendTick = s.pendTick := rfl
@[simp] theorem copyStore_skFree (s : State) : (copyStore s).skFree = s.skFree := rfl
@[simp] theorem copyStore_owned (s : State) : (copyStore s).owned = s.owned := rfl
@[simp] theorem copyStore_submitted (s : State) : (copyStore s).submitted = s.submitted := rfl
@[simp] theorem copyStore_rsu (s : State) : (copyStore s).rsu = s.rsu := rfl
@[simp] theorem copyStore_freeDraws (s : State) : (copyStore s).freeDraws = s.freeDraws := rfl
@[simp] theorem copyStore_wrote (s : State) : (copyStore s).wrote = s.wrote := rfl
@[simp] theorem copyStore_popped (s : State) : (copyStore s).popped = s.popped := rfl
@[simp] theorem copyStore_inputs (s : State) : (copyStore s).inputs = s.inputs := rfl

/-! The forced swap. -/

@[simp] theorem forcedSwap_cfg (s : State) : (forcedSwap s).cfg = s.cfg := rfl
@[simp] theorem forcedSwap_curCol (s : State) : (forcedSwap s).curCol = s.curCol := rfl
@[simp] theorem forcedSwap_curRow (s : State) : (forcedSwap s).curRow = s.curRow := rfl
@[simp] theorem forcedSwap_curFg (s : State) : (forcedSwap s).curFg = s.curFg := rfl
@[simp] theorem forcedSwap_curBg (s : State) : (forcedSwap s).curBg = s.curBg := rfl
@[simp] theorem forcedSwap_escMode (s : State) : (forcedSwap s).escMode = s.escMode := rfl
@[simp] theorem forcedSwap_csiMode (s : State) : (forcedSwap s).csiMode = s.csiMode := rfl
@[simp] theorem forcedSwap_skipLf (s : State) : (forcedSwap s).skipLf = s.skipLf := rfl
@[simp] theorem forcedSwap_skipCr (s : State) : (forcedSwap s).skipCr = s.skipCr := rfl
@[simp] theorem forcedSwap_savedCol (s : State) : (forcedSwap s).savedCol = s.savedCol := rfl
@[simp] theorem forcedSwap_savedRow (s : State) : (forcedSwap s).savedRow = s.savedRow := rfl
@[simp] theorem forcedSwap_savedValid (s : State) : (forcedSwap s).savedValid = s.savedValid := rfl
@[simp] theorem forcedSwap_pb (s : State) : (forcedSwap s).pb = s.pb := rfl
@[simp] theorem forcedSwap_style (s : State) : (forcedSwap s).style = s.style := rfl
@[simp] theorem forcedSwap_curVisible (s : State) : (forcedSwap s).curVisible = s.curVisible := rfl
@[simp] theorem forcedSwap_blinkCnt (s : State) : (forcedSwap s).blinkCnt = s.blinkCnt := rfl
@[simp] theorem forcedSwap_drawn (s : State) : (forcedSwap s).drawn = s.drawn := rfl
@[simp] theorem forcedSwap_ovChar (s : State) : (forcedSwap s).ovChar = s.ovChar := rfl
@[simp] theorem forcedSwap_ovFg (s : State) : (forcedSwap s).ovFg = s.ovFg := rfl
@[simp] theorem forcedSwap_ovCol (s : State) : (forcedSwap s).ovCol = s.ovCol := rfl
@[simp] theorem forcedSwap_ovRow (s : State) : (forcedSwap s).ovRow = s.ovRow := rfl
@[simp] theorem forcedSwap_modal (s : State) : (forcedSwap s).modal = s.modal := rfl
@[simp] theorem forcedSwap_mdigN (s : State) : (forcedSwap s).mdigN = s.mdigN := rfl
@[simp] theorem forcedSwap_mdigV (s : State) : (forcedSwap s).mdigV = s.mdigV := rfl
@[simp] theorem forcedSwap_swapReq (s : State) : (forcedSwap s).swapReq = false := rfl
@[simp] theorem forcedSwap_line (s : State) : (forcedSwap s).line = s.line := rfl
@[simp] theorem forcedSwap_blinkPhase (s : State) : (forcedSwap s).blinkPhase = s.blinkPhase := rfl
@[simp] theorem forcedSwap_hs (s : State) : (forcedSwap s).hs = s.hs := rfl
@[simp] theorem forcedSwap_back (s : State) : (forcedSwap s).back = s.back := rfl
@[simp] theorem forcedSwap_front (s : State) : (forcedSwap s).front = s.back := rfl
@[simp] theorem forcedSwap_snap (s : State) : (forcedSwap s).snap = s.snap := rfl
@[simp] theorem forcedSwap_ring (s : State) : (forcedSwap s).ring = s.ring := rfl
@[simp] theorem forcedSwap_pendTick (s : State) : (forcedSwap s).pendTick = s.pendTick := rfl
@[simp] theorem forcedSwap_skFree (s : State) : (forcedSwap s).skFree = s.skFree := rfl
@[simp] theorem forcedSwap_owned (s : State) : (forcedSwap s).owned = s.owned := rfl
@[simp] theorem forcedSwap_submitted (s : State) : (forcedSwap s).submitted = s.submitted := rfl
@[simp] theorem forcedSwap_rsu (s : State) : (forcedSwap s).rsu = s.rsu := rfl
@[simp] theorem forcedSwap_freeDraws (s : State) : (forcedSwap s).freeDraws = s.freeDraws := rfl
@[simp] theorem forcedSwap_wrote (s : State) : (forcedSwap s).wrote = s.wrote := rfl
@[simp] theorem forcedSwap_popped (s : State) : (forcedSwap s).popped = s.popped := rfl
@[simp] theorem forcedSwap_inputs (s : State) : (forcedSwap s).inputs = s.inputs := rfl

/-! The step-local values cleared. -/

@[simp] theorem clearLocal_cfg (s : State) : (clearLocal s).cfg = s.cfg := rfl
@[simp] theorem clearLocal_curCol (s : State) : (clearLocal s).curCol = s.curCol := rfl
@[simp] theorem clearLocal_curRow (s : State) : (clearLocal s).curRow = s.curRow := rfl
@[simp] theorem clearLocal_curFg (s : State) : (clearLocal s).curFg = s.curFg := rfl
@[simp] theorem clearLocal_curBg (s : State) : (clearLocal s).curBg = s.curBg := rfl
@[simp] theorem clearLocal_escMode (s : State) : (clearLocal s).escMode = s.escMode := rfl
@[simp] theorem clearLocal_csiMode (s : State) : (clearLocal s).csiMode = s.csiMode := rfl
@[simp] theorem clearLocal_skipLf (s : State) : (clearLocal s).skipLf = s.skipLf := rfl
@[simp] theorem clearLocal_skipCr (s : State) : (clearLocal s).skipCr = s.skipCr := rfl
@[simp] theorem clearLocal_savedCol (s : State) : (clearLocal s).savedCol = s.savedCol := rfl
@[simp] theorem clearLocal_savedRow (s : State) : (clearLocal s).savedRow = s.savedRow := rfl
@[simp] theorem clearLocal_savedValid (s : State) : (clearLocal s).savedValid = s.savedValid := rfl
@[simp] theorem clearLocal_pb (s : State) : (clearLocal s).pb = s.pb := rfl
@[simp] theorem clearLocal_style (s : State) : (clearLocal s).style = s.style := rfl
@[simp] theorem clearLocal_curVisible (s : State) : (clearLocal s).curVisible = s.curVisible := rfl
@[simp] theorem clearLocal_blinkCnt (s : State) : (clearLocal s).blinkCnt = s.blinkCnt := rfl
@[simp] theorem clearLocal_drawn (s : State) : (clearLocal s).drawn = s.drawn := rfl
@[simp] theorem clearLocal_ovChar (s : State) : (clearLocal s).ovChar = s.ovChar := rfl
@[simp] theorem clearLocal_ovFg (s : State) : (clearLocal s).ovFg = s.ovFg := rfl
@[simp] theorem clearLocal_ovCol (s : State) : (clearLocal s).ovCol = s.ovCol := rfl
@[simp] theorem clearLocal_ovRow (s : State) : (clearLocal s).ovRow = s.ovRow := rfl
@[simp] theorem clearLocal_modal (s : State) : (clearLocal s).modal = s.modal := rfl
@[simp] theorem clearLocal_mdigN (s : State) : (clearLocal s).mdigN = s.mdigN := rfl
@[simp] theorem clearLocal_mdigV (s : State) : (clearLocal s).mdigV = s.mdigV := rfl
@[simp] theorem clearLocal_swapReq (s : State) : (clearLocal s).swapReq = s.swapReq := rfl
@[simp] theorem clearLocal_line (s : State) : (clearLocal s).line = s.line := rfl
@[simp] theorem clearLocal_blinkPhase (s : State) : (clearLocal s).blinkPhase = s.blinkPhase := rfl
@[simp] theorem clearLocal_hs (s : State) : (clearLocal s).hs = s.hs := rfl
@[simp] theorem clearLocal_back (s : State) : (clearLocal s).back = s.back := rfl
@[simp] theorem clearLocal_front (s : State) : (clearLocal s).front = s.front := rfl
@[simp] theorem clearLocal_snap (s : State) : (clearLocal s).snap = s.snap := rfl
@[simp] theorem clearLocal_ring (s : State) : (clearLocal s).ring = s.ring := rfl
@[simp] theorem clearLocal_pendTick (s : State) : (clearLocal s).pendTick = s.pendTick := rfl
@[simp] theorem clearLocal_skFree (s : State) : (clearLocal s).skFree = s.skFree := rfl
@[simp] theorem clearLocal_owned (s : State) : (clearLocal s).owned = s.owned := rfl
@[simp] theorem clearLocal_submitted (s : State) : (clearLocal s).submitted = s.submitted := rfl
@[simp] theorem clearLocal_rsu (s : State) : (clearLocal s).rsu = s.rsu := rfl
@[simp] theorem clearLocal_freeDraws (s : State) : (clearLocal s).freeDraws = s.freeDraws := rfl
@[simp] theorem clearLocal_wrote (s : State) : (clearLocal s).wrote = false := rfl
@[simp] theorem clearLocal_popped (s : State) : (clearLocal s).popped = none := rfl
@[simp] theorem clearLocal_inputs (s : State) : (clearLocal s).inputs = s.inputs := rfl

end Sys2Proof.Machine
end

