-- ==== Sys2Proof/Laws/Parser.lean ====
section
/-! SUPPORT. The parse buffer: what a finished parameter leaves, and the operands a final byte's rule reads. -/

namespace Sys2Proof.Machine

variable {s : State}

/-- Writing one parameter register and reading another. -/
theorem Params.get_set (ps : Params) (v : Param) {i j : Nat} (hi : i < 4) (hj : j < 4) :
    (ps.set j v).get i = if i = j then v else ps.get i := by
  obtain rfl | rfl | rfl | rfl : i = 0 ∨ i = 1 ∨ i = 2 ∨ i = 3 := by omega
  all_goals obtain rfl | rfl | rfl | rfl : j = 0 ∨ j = 1 ∨ j = 2 ∨ j = 3 := by omega
  all_goals rfl

/-- Every index past the last reads the last register. -/
theorem Params.get_ge (ps : Params) {i : Nat} (hi : 3 ≤ i) : ps.get i = ps.p3 := by
  match i, hi with
  | i + 3, _ => rfl

/-- A finished parameter is kept if fewer than four are, and the accumulator restarts (R76). -/
theorem ParseBuf.finalize_eq (pb : ParseBuf) : pb.finalize = {
    params := if pb.pcount < 4 then pb.params.set pb.pcount pb.acc else pb.params
    pcount := if pb.pcount < 4 then pb.pcount + 1 else pb.pcount, acc := 0, dpend := false } := by
  unfold ParseBuf.finalize
  split <;> simp_all

/-- The number of operands of a CSI command is the count its rule sees (R78). -/
theorem final_pcount (s : State) : s.pb.final.pcount = s.operandCount := by
  unfold ParseBuf.final State.operandCount
  by_cases h : s.pb.dpend = true <;> by_cases h' : s.pb.pcount < 4 <;> simp [h, h', ParseBuf.finalize_eq]

/-- An operand of a CSI command is the parameter its rule reads (R62, R78). -/
theorem final_get (s : State) {i : Nat} (hi : i < 4) : (s.pb.final.params.get i).toNat = s.operand i := by
  unfold ParseBuf.final State.operand
  by_cases h : s.pb.dpend = true <;> by_cases h' : s.pb.pcount < 4 <;> simp [h, h', ParseBuf.finalize_eq]
  rw [Params.get_set _ _ hi h']
  split <;> rfl

/-- arg(i, d) of the finished buffer is the operand or its default. -/
theorem final_arg (s : State) {i : Nat} (hi : i < 4) (d : Nat) : s.pb.final.arg i d = s.operandOr i d := by
  unfold ParseBuf.arg State.operandOr
  rw [final_pcount, final_get s hi]

theorem inRange_pcount (h : s.inRange = true) : s.pb.pcount ≤ 4 := by
  simp only [State.inRange, Bool.and_eq_true, decide_eq_true_eq] at h
  omega

theorem operandCount_le (h : s.inRange = true) : s.operandCount ≤ 4 := by
  have := inRange_pcount h
  unfold State.operandCount
  split <;> omega

/-- A CSI final byte's rule that does not read what the frame writes: the sequence ends (R78) around its effect. -/
theorem csiFinal_eq (f : State → State) (s : State) :
    csiFinal f s = (f { s with pb := s.pb.final }).csiDone := rfl

/-- Every cursor rule, SGR and the saves, on the finished buffer. -/
theorem csiFinal_id (s : State) : csiFinal (fun s => s) s = s.csiDone := rfl

end Sys2Proof.Machine
end

