-- ==== Sys2Proof/Laws/Exec.lean ====
section
/-! SUPPORT. What exec can answer, and the registers that the byte classes, the events and the BYTE step's actions can change. -/

namespace Sys2Proof.Machine

variable {s t : State}

/-- The registers of `t` that a byte class may write, over the rest of `s`. -/
def State.withTerminal (s t : State) : State :=
  { s with
    curCol := t.curCol, curRow := t.curRow, curFg := t.curFg, curBg := t.curBg
    escMode := t.escMode, csiMode := t.csiMode, skipLf := t.skipLf, skipCr := t.skipCr
    savedCol := t.savedCol, savedRow := t.savedRow, savedValid := t.savedValid, pb := t.pb, style := t.style
    modal := t.modal, mdigN := t.mdigN, mdigV := t.mdigV, back := t.back, snap := t.snap, wrote := t.wrote }

/-- The back store and the step-local flag of `t` over the rest of `s`. -/
def State.withBack (s t : State) : State := { s with back := t.back, wrote := t.wrote }

theorem withBack_refl : s = s.withBack s := rfl

/-- A loop of writes to B changes B and the step-local flag alone. -/
theorem loop_withBack (n : Nat) (f : Nat → State → State) (h : ∀ k t, f k t = t.withBack (f k t)) : loop n f s = s.withBack (loop n f s) :=
  loop_keeps (fun t => t = s.withBack t) n f s rfl fun k y _ hy => by
    have h1 := h k y
    generalize f k y = z at h1 ⊢
    rw [h1, hy]
    rfl

theorem blankSpan_withBack (r c0 n : Nat) : blankSpan r c0 n s = s.withBack (blankSpan r c0 n s) :=
  loop_withBack n _ fun _ _ => rfl

theorem blankGrid_withBack : blankGrid s = s.withBack (blankGrid s) := loop_withBack _ _ fun _ _ => blankSpan_withBack _ _ _

theorem overRect_withBack (w h : Nat) (f : Nat → Nat → Nat → State → State) (hf : ∀ i j n t, f i j n t = t.withBack (f i j n t)) :
    overRect w h f s = s.withBack (overRect w h f s) := loop_withBack _ _ fun _ _ => loop_withBack _ _ fun _ _ => hf _ _ _ _

theorem withTerminal_of_withBack (h : t = s.withBack t) : t = s.withTerminal t := by
  rw [h]; rfl

theorem withTerminal_trans {u : State} (h : t = s.withTerminal t) (h' : u = t.withTerminal u) : u = s.withTerminal u := by
  conv_lhs => rw [h']
  conv_lhs => rw [h]
  rfl

theorem lineBreak_withTerminal : lineBreak s = s.withTerminal (lineBreak s) := by
  obtain ⟨bk, w, row, h⟩ := lineBreak_frame s
  rw [h]; rfl

theorem exitModal_withTerminal : exitModal s = s.withTerminal (exitModal s) := by
  unfold exitModal restoreSnap
  cases s.modal with
  | none => rfl
  | some k =>
    refine withTerminal_trans (t := overRect _ _ _ s) (withTerminal_of_withBack (overRect_withBack _ _ _ fun _ _ _ _ => rfl)) rfl

theorem openModal_withTerminal (k : MenuKind) : openModal k s = s.withTerminal (openModal k s) := by
  unfold openModal drawImage
  refine withTerminal_trans (t := takeSnap (s.cfg.menu k) { s with modal := some k, mdigN := false, mdigV := 0 }) rfl ?_
  exact withTerminal_of_withBack (overRect_withBack _ _ _ fun _ _ _ _ => rfl)

theorem csiFinal_withTerminal {f : State → State} (h : ∀ s, f s = s.withTerminal (f s)) : csiFinal f s = s.withTerminal (csiFinal f s) := by
  unfold csiFinal pbReset
  refine withTerminal_trans (t := { s with pb := s.pb.final }) rfl ?_
  exact withTerminal_trans (t := f { s with pb := s.pb.final }) (h _) rfl

theorem sgr_withTerminal : sgrRule s = s.withTerminal (sgrRule s) :=
  loop_keeps (fun t => t = s.withTerminal t) _ _ s rfl fun i y _ hy => withTerminal_trans hy (by unfold sgrParam; split_ifs <;> rfl)

/-- An instruction that a byte can stand for. -/
def isByteClass : Instr → Bool
  | .tick | .line | .deferredCopy | .forcedCopy | .ringPush _ | .ringPop => false
  | _ => true

/-- A byte class writes the terminal's registers, B and SNAP at most. -/
theorem exec_byte_frame {i : Instr} (hi : isByteClass i = true) (h : exec i s = .next t) : t = s.withTerminal t := by
  have hrun : ∀ f : State → State, (∀ s, f s = s.withTerminal (f s)) → run f s = .next t → t = s.withTerminal t := by
    intro f hf hr
    rcases run_cases (f := f) (s := s) with ⟨h1, -⟩ | h1 | h1 <;> rw [h1] at hr <;> cases hr
    exact hf s
  cases i <;> first | (cases hi; done) | unfold exec at h
  all_goals dsimp only at h
  · refine hrun _ (fun s => ?_) h
    unfold crRule; split
    · rfl
    · exact withTerminal_trans lineBreak_withTerminal rfl
  · refine hrun _ (fun s => ?_) h
    unfold lfRule; split
    · rfl
    · exact withTerminal_trans lineBreak_withTerminal rfl
  · exact hrun _ (fun _ => rfl) h
  · exact hrun _ (fun _ => rfl) h
  · exact hrun _ (fun _ => rfl) h
  · exact hrun _ (fun _ => rfl) h
  · exact hrun _ (fun _ => rfl) h
  · refine hrun _ (fun s => ?_) h; exact csiFinal_withTerminal fun _ => rfl
  · refine hrun _ (fun s => ?_) h; exact csiFinal_withTerminal fun _ => rfl
  · refine hrun _ (fun s => ?_) h; exact csiFinal_withTerminal fun _ => rfl
  · refine hrun _ (fun s => ?_) h; exact csiFinal_withTerminal fun _ => rfl
  · refine hrun _ (fun s => ?_) h; exact csiFinal_withTerminal fun _ => rfl
  · refine hrun _ (fun _ => csiFinal_withTerminal fun s => ?_) h
    unfold edRule; split
    · exact withTerminal_trans (withTerminal_of_withBack blankGrid_withBack) rfl
    · rfl
  · refine hrun _ (fun s => ?_) h; exact csiFinal_withTerminal fun s => withTerminal_of_withBack (blankSpan_withBack _ _ _)
  · refine hrun _ (fun s => ?_) h; exact csiFinal_withTerminal fun _ => sgr_withTerminal
  · refine hrun _ (fun s => ?_) h; exact csiFinal_withTerminal fun _ => rfl
  · refine hrun _ (fun _ => csiFinal_withTerminal fun s => ?_) h
    unfold rcpRule; split <;> rfl
  · refine hrun _ (fun s => ?_) h; exact csiFinal_withTerminal fun _ => rfl
  · refine hrun _ (fun s => ?_) h; exact openModal_withTerminal _
  · refine hrun _ (fun s => ?_) h; exact openModal_withTerminal _
  · refine hrun _ (fun s => ?_) h; exact openModal_withTerminal _
  · refine hrun _ (fun s => ?_) h; exact openModal_withTerminal _
  · refine hrun _ (fun s => ?_) h; rfl
  · rename_i b
    refine hrun _ (fun s => ?_) h
    unfold printRule
    simp only
    split
    · exact withTerminal_trans (t := setCell s.curRow s.curCol b s.curFg s.curBg s) rfl (withTerminal_trans lineBreak_withTerminal rfl)
    · rfl
  · refine hrun _ (fun s => ?_) h; exact exitModal_withTerminal
  · rename_i d
    refine hrun _ (fun s => ?_) h
    unfold pickDigitRule pickColour
    split_ifs
    · exact withTerminal_trans (t := { s with curFg := BitVec.ofNat 6 (10 * s.mdigV.toNat + d.toNat) }) rfl exitModal_withTerminal
    · exact withTerminal_trans (t := { s with curBg := BitVec.ofNat 6 (10 * s.mdigV.toNat + d.toNat) }) rfl exitModal_withTerminal
    · rfl
    · rfl
  · refine hrun _ (fun s => ?_) h
    unfold pickBsRule; split <;> rfl
  · refine hrun _ (fun s => ?_) h
    unfold styleRule
    split
    · exact withTerminal_trans (t := { s with style := _ }) rfl exitModal_withTerminal
    · rfl
  · refine hrun _ (fun s => ?_) h
    unfold themeRule
    split
    · exact withTerminal_trans (t := { s with curFg := _, curBg := _ }) rfl exitModal_withTerminal
    · rfl
  · exact hrun _ (fun _ => rfl) h

/-- Every instruction runs in a runnable state, and in no other does it answer a next state. -/
theorem exec_runnable (i : Instr) : (s.runnable = true → ∃ t, exec i s = .next t) ∧ (∀ t, exec i s = .next t → s.runnable = true) := by
  have key : ∀ f : State → State, (s.runnable = true → ∃ t, run f s = .next t) ∧ (∀ t, run f s = .next t → s.runnable = true) := by
    intro f
    refine ⟨fun h => ⟨f s, run_eq h⟩, fun t h => ?_⟩
    rcases run_cases (f := f) (s := s) with ⟨-, h1⟩ | h1 | h1
    · exact h1
    · rw [h1] at h; cases h
    · rw [h1] at h; cases h
  cases i <;> exact key _

end Sys2Proof.Machine
end

