-- ==== Sys2Proof/Laws/PerInstr.lean ====
section
/-! SUPPORT. Statements about every instruction as syntax, one lemma per constructor. -/

namespace Sys2Proof

/-- An instruction that some mode can read is one byte (R56); no mode reads an event (R66). -/
def Laws.OneByte.Statement (i : Instr) : Prop := ∀ (cfg : Config) (m : Mode), i.wfIn cfg m = true → ∃ b, encode cfg i = [b]

theorem Laws.OneByte.cr : Laws.OneByte.Statement .cr := fun _ _ _ => ⟨_, rfl⟩
theorem Laws.OneByte.lf : Laws.OneByte.Statement .lf := fun _ _ _ => ⟨_, rfl⟩
theorem Laws.OneByte.escEntry : Laws.OneByte.Statement .escEntry := fun _ _ _ => ⟨_, rfl⟩
theorem Laws.OneByte.escCsi : Laws.OneByte.Statement .escCsi := fun _ _ _ => ⟨_, rfl⟩
theorem Laws.OneByte.escAbort (x : Byte) : Laws.OneByte.Statement (.escAbort x) := fun _ _ _ => ⟨_, rfl⟩
theorem Laws.OneByte.csiDigit (d : BitVec 4) : Laws.OneByte.Statement (.csiDigit d) := fun _ _ _ => ⟨_, rfl⟩
theorem Laws.OneByte.csiSep : Laws.OneByte.Statement .csiSep := fun _ _ _ => ⟨_, rfl⟩
theorem Laws.OneByte.csiCuu : Laws.OneByte.Statement .csiCuu := fun _ _ _ => ⟨_, rfl⟩
theorem Laws.OneByte.csiCud : Laws.OneByte.Statement .csiCud := fun _ _ _ => ⟨_, rfl⟩
theorem Laws.OneByte.csiCuf : Laws.OneByte.Statement .csiCuf := fun _ _ _ => ⟨_, rfl⟩
theorem Laws.OneByte.csiCub : Laws.OneByte.Statement .csiCub := fun _ _ _ => ⟨_, rfl⟩
theorem Laws.OneByte.csiCup : Laws.OneByte.Statement .csiCup := fun _ _ _ => ⟨_, rfl⟩
theorem Laws.OneByte.csiEd : Laws.OneByte.Statement .csiEd := fun _ _ _ => ⟨_, rfl⟩
theorem Laws.OneByte.csiEl : Laws.OneByte.Statement .csiEl := fun _ _ _ => ⟨_, rfl⟩
theorem Laws.OneByte.csiSgr : Laws.OneByte.Statement .csiSgr := fun _ _ _ => ⟨_, rfl⟩
theorem Laws.OneByte.csiScp : Laws.OneByte.Statement .csiScp := fun _ _ _ => ⟨_, rfl⟩
theorem Laws.OneByte.csiRcp : Laws.OneByte.Statement .csiRcp := fun _ _ _ => ⟨_, rfl⟩
theorem Laws.OneByte.csiUnknown (b : Byte) : Laws.OneByte.Statement (.csiUnknown b) := fun _ _ _ => ⟨_, rfl⟩
theorem Laws.OneByte.openFg : Laws.OneByte.Statement .openFg := fun _ _ _ => ⟨_, rfl⟩
theorem Laws.OneByte.openBg : Laws.OneByte.Statement .openBg := fun _ _ _ => ⟨_, rfl⟩
theorem Laws.OneByte.openStyle : Laws.OneByte.Statement .openStyle := fun _ _ _ => ⟨_, rfl⟩
theorem Laws.OneByte.openTheme : Laws.OneByte.Statement .openTheme := fun _ _ _ => ⟨_, rfl⟩
theorem Laws.OneByte.bs (b : Byte) : Laws.OneByte.Statement (.bs b) := fun _ _ _ => ⟨_, rfl⟩
theorem Laws.OneByte.print (b : Byte) : Laws.OneByte.Statement (.print b) := fun _ _ _ => ⟨_, rfl⟩
theorem Laws.OneByte.modalCancel : Laws.OneByte.Statement .modalCancel := fun _ _ _ => ⟨_, rfl⟩
theorem Laws.OneByte.pickDigit (d : BitVec 4) : Laws.OneByte.Statement (.pickDigit d) := fun _ _ _ => ⟨_, rfl⟩
theorem Laws.OneByte.pickBs (b : Byte) : Laws.OneByte.Statement (.pickBs b) := fun _ _ _ => ⟨_, rfl⟩
theorem Laws.OneByte.styleSelect (d : BitVec 4) : Laws.OneByte.Statement (.styleSelect d) := fun _ _ _ => ⟨_, rfl⟩
theorem Laws.OneByte.themeSelect (d : BitVec 4) : Laws.OneByte.Statement (.themeSelect d) := fun _ _ _ => ⟨_, rfl⟩
theorem Laws.OneByte.modalIgnore (b : Byte) : Laws.OneByte.Statement (.modalIgnore b) := fun _ _ _ => ⟨_, rfl⟩
theorem Laws.OneByte.tick : Laws.OneByte.Statement .tick := fun _ _ h => nomatch h
theorem Laws.OneByte.line : Laws.OneByte.Statement .line := fun _ _ h => nomatch h
theorem Laws.OneByte.deferredCopy : Laws.OneByte.Statement .deferredCopy := fun _ _ h => nomatch h
theorem Laws.OneByte.forcedCopy : Laws.OneByte.Statement .forcedCopy := fun _ _ h => nomatch h
theorem Laws.OneByte.ringPush (b : Byte) : Laws.OneByte.Statement (.ringPush b) := fun _ _ h => nomatch h
theorem Laws.OneByte.ringPop : Laws.OneByte.Statement .ringPop := fun _ _ h => nomatch h

end Sys2Proof
end

