-- ==== Sys2Proof/Laws/Ring.lean ====
section
/-! SUPPORT. The input ring as a queue (R139). -/

namespace Sys2Proof.Machine

variable {n : Nat} {q : Ring}

theorem Ring.inRange_iff : q.inRange n = true ↔ q.buf.length = n ∧ q.head < n ∧ q.tail < n ∧ q.count ≤ n := by
  simp [Ring.inRange, and_assoc]

theorem Ring.linked_iff : q.linked n = true ↔ q.head = (q.tail + q.count) % n := by simp [Ring.linked]

@[simp] theorem Ring.contents_length : (q.contents n).length = q.count := by simp [Ring.contents]

/-- Two slots at different distances below the capacity from one slot are different. -/
theorem slot_ne {t i k : Nat} (hi : i < k) (hk : k < n) : (t + i) % n ≠ (t + k) % n := by
  intro h
  have h1 : (t + i) ≡ (t + k) [MOD n] := h
  have h2 := Nat.ModEq.add_left_cancel' t h1
  have h3 : i % n = k % n := h2
  rw [Nat.mod_eq_of_lt (by omega), Nat.mod_eq_of_lt hk] at h3
  omega

/-- A push into a ring with room appends its byte (R136). -/
theorem Ring.contents_push_room {b : Byte} (h : q.inRange n = true) (hl : q.linked n = true) (hc : q.count ≠ n) :
    (q.push n b).contents n = q.contents n ++ [b] := by
  obtain ⟨h1, h2, h3, h4⟩ := Ring.inRange_iff.1 h
  rw [Ring.linked_iff] at hl
  have hp : q.push n b = { q with buf := q.buf.set q.head b, head := (q.head + 1) % n, count := q.count + 1 } := by
    simp [Ring.push, hc]
  rw [hp]
  unfold Ring.contents
  simp only
  rw [List.range_succ, List.map_append]
  congr 1
  · refine List.map_congr_left fun i hi => ?_
    have hi' := List.mem_range.1 hi
    rw [List.getD_eq_getElem?_getD, List.getD_eq_getElem?_getD, List.getElem?_set_ne]
    rw [hl]
    exact (slot_ne hi' (by omega)).symm
  · simp only [List.map_cons, List.map_nil]
    rw [← hl, List.getD_eq_getElem?_getD, List.getElem?_set_self (by omega)]
    rfl

/-- A push into a full ring keeps its bytes (R136). -/
theorem Ring.contents_push_full {b : Byte} (hc : q.count = n) : (q.push n b).contents n = q.contents n := by
  simp [Ring.push, hc, Ring.contents]

/-- Every push keeps the ring's registers legal and linked. -/
theorem Ring.push_ok {b : Byte} (h : q.inRange n = true) (hl : q.linked n = true) :
    (q.push n b).inRange n = true ∧ (q.push n b).linked n = true := by
  obtain ⟨h1, h2, h3, h4⟩ := Ring.inRange_iff.1 h
  rw [Ring.linked_iff] at hl
  unfold Ring.push
  split
  · exact ⟨h, Ring.linked_iff.2 hl⟩
  · rw [Ring.inRange_iff, Ring.linked_iff]
    refine ⟨⟨by simpa using h1, Nat.mod_lt _ (by omega), h3, by simp only; omega⟩, ?_⟩
    simp only
    rw [hl, Nat.mod_add_mod, Nat.add_assoc]

/-- The ring after a pop from a ring that is not empty, the overflow flag apart. -/
theorem Ring.pop_some (hc : q.count ≠ 0) : q.pop n = (some (q.buf.getD q.tail 0),
    { q with tail := (q.tail + 1) % n, count := q.count - 1
             overflow := q.overflow && decide (4 * (n - (q.count - 1)) ≤ n) }) := by
  unfold Ring.pop
  rw [if_neg hc]
  unfold Ring.relax Ring.advance
  cases h : q.overflow <;> simp
  split <;> simp_all

/-- A pop answers and removes the oldest byte (R137, R139). -/
theorem Ring.contents_pop (h : q.inRange n = true) (hc : q.count ≠ 0) :
    (q.pop n).1 = (q.contents n).head? ∧ (q.pop n).2.contents n = (q.contents n).tail := by
  obtain ⟨h1, h2, h3, h4⟩ := Ring.inRange_iff.1 h
  rw [Ring.pop_some hc]
  obtain ⟨k, hk⟩ := Nat.exists_eq_succ_of_ne_zero hc
  unfold Ring.contents
  simp only [hk, List.range_succ_eq_map, List.map_cons, List.head?_cons, List.tail_cons, List.map_map, Nat.add_zero,
    Nat.mod_eq_of_lt h3, Nat.succ_sub_one]
  refine ⟨trivial, List.map_congr_left fun i _ => ?_⟩
  simp only [Function.comp]
  rw [Nat.mod_add_mod, Nat.succ_eq_add_one, Nat.add_assoc, Nat.add_comm 1 i]

/-- Every pop keeps the ring's registers legal and linked. -/
theorem Ring.pop_ok (h : q.inRange n = true) (hl : q.linked n = true) :
    (q.pop n).2.inRange n = true ∧ (q.pop n).2.linked n = true := by
  obtain ⟨h1, h2, h3, h4⟩ := Ring.inRange_iff.1 h
  by_cases hc : q.count = 0
  · unfold Ring.pop
    rw [if_pos hc]
    exact ⟨h, hl⟩
  · rw [Ring.linked_iff] at hl
    rw [Ring.pop_some hc, Ring.inRange_iff, Ring.linked_iff]
    refine ⟨⟨h1, h2, Nat.mod_lt _ (by omega), by simp only; omega⟩, ?_⟩
    simp only
    rw [hl, Nat.mod_add_mod]
    congr 1
    omega

end Sys2Proof.Machine
end

