-- ==== Sys2Proof/Laws/Reset.lean ====
section
/-! SUPPORT. Laws of the reset unit and of a reset held too short: what it leaves meets the invariant, and any registers that
meet it can be left. -/

namespace Sys2Proof.Machine

section Memory

variable {d : Nat → Byte} {size lo : Nat} {m : Memory}

/-- The addresses from `lo` on, as a list of rising addresses. -/
theorem Memory.canonFrom (n : Nat) : ∀ lo, Memory.wfFrom d (lo + n) lo ((List.range' lo n).filterMap fun a =>
      if Memory.get d m a = d a then none else some (a, Memory.get d m a)) = true ∧
    ∀ a, Memory.get d ((List.range' lo n).filterMap fun a =>
      if Memory.get d m a = d a then none else some (a, Memory.get d m a)) a =
        if lo ≤ a ∧ a < lo + n then Memory.get d m a else d a := by
  induction n with
  | zero => exact fun lo => ⟨rfl, fun a => by simp⟩
  | succ n ih =>
    intro lo
    obtain ⟨h1, h2⟩ := ih (lo + 1)
    have hs : lo + (n + 1) = lo + 1 + n := by omega
    rw [List.range'_succ, List.filterMap_cons]
    split
    · rename_i h3
      have h4 : Memory.get d m lo = d lo := by split at h3 <;> simp_all
      refine ⟨by rw [hs]; exact Memory.wfFrom_mono h1 (by omega), fun a => ?_⟩
      rw [h2 a]
      by_cases ha : a = lo
      · subst ha; rw [if_neg (by omega), if_pos (by omega), h4]
      · exact if_congr (by omega) rfl rfl
    · rename_i x h3
      have h4 : Memory.get d m lo ≠ d lo ∧ x = (lo, Memory.get d m lo) := by split at h3 <;> simp_all
      obtain ⟨h5, rfl⟩ := h4
      refine ⟨by rw [hs, Memory.wfFrom_cons]; exact ⟨by omega, by omega, h5, h1⟩, fun a => ?_⟩
      rw [Memory.get_cons, h2 a]
      by_cases ha : a = lo
      · subst ha; rw [if_pos rfl, if_pos (by omega)]
      · rw [if_neg ha]; exact if_congr (by omega) rfl rfl

/-- The canonical list reads as the list it is made of, below the store's size. -/
theorem Memory.get_canon (a : Nat) : Memory.get d (Memory.canon d size m) a = if a < size then Memory.get d m a else d a := by
  have h := (Memory.canonFrom (d := d) (m := m) size 0).2 a
  rw [← List.range_eq_range', Nat.zero_add] at h
  unfold Memory.canon
  simpa using h

theorem Memory.wf_canon : Memory.wf d size (Memory.canon d size m) = true := by
  have h := (Memory.canonFrom (d := d) (m := m) size 0).1
  rwa [← List.range_eq_range', Nat.zero_add] at h

/-- A canonical list is its own canonical list. -/
theorem Memory.canon_of_wf (h : Memory.wf d size m = true) : Memory.canon d size m = m := by
  refine Memory.ext_from Memory.wf_canon h fun a => ?_
  rw [Memory.get_canon]
  split
  · rfl
  · exact (Memory.get_above h (by omega)).symm

end Memory

theorem Store.wf_canon (cfg : Config) (st : Store) : Store.wf cfg (Store.canon cfg st) = true := by
  rw [Store.wf_iff]; exact ⟨Memory.wf_canon, Memory.wf_canon⟩

theorem Store.canon_of_wf {cfg : Config} {st : Store} (h : Store.wf cfg st = true) : Store.canon cfg st = st := by
  rw [Store.wf_iff] at h
  unfold Store.canon
  rw [Memory.canon_of_wf h.1, Memory.canon_of_wf h.2]

theorem Ring.ranged_ok {n : Nat} (q : Ring) (hn : 1 ≤ n) : (q.ranged n).inRange n = true ∧ (q.ranged n).linked n = true := by
  rw [Ring.inRange_iff, Ring.linked_iff]
  exact ⟨⟨by simp [Ring.ranged], Nat.mod_lt _ hn, Nat.mod_lt _ hn, Nat.le_of_lt_succ (Nat.mod_lt _ (by omega))⟩, rfl⟩

theorem Ring.ranged_of_ok {n : Nat} {q : Ring} (h : q.inRange n = true) (hl : q.linked n = true) : q.ranged n = q := by
  rw [Ring.inRange_iff] at h
  rw [Ring.linked_iff] at hl
  obtain ⟨h1, h2, h3, h4⟩ := h
  have h5 : (List.range n).map (fun i => q.buf.getD i 0) = q.buf := by
    subst h1
    apply List.ext_getElem <;> simp +contextual
  obtain ⟨b, hd, tl, ct, ov⟩ := q
  simp only [Ring.ranged] at *
  rw [h5, Nat.mod_eq_of_lt h3, Nat.mod_eq_of_lt (by omega : ct < n + 1), ← hl]

variable {s x : State}

/-- What a short reset leaves meets the invariant, whatever the registers it is made of (log 26). -/
theorem shortReset_inv (hc : configWf s.cfg = true) (x : State) : (shortReset x s).inv = true := by
  obtain ⟨h1, h2, -, h4, h5, h6⟩ := config_pos hc
  have hring := Ring.ranged_ok x.ring h6
  have hd : (if x.mdigV.toNat ≤ 9 then x.mdigV else 0).toNat ≤ 9 := by split <;> simp_all
  have hcols : ∀ n, n % s.cfg.cols < s.cfg.cols := fun n => Nat.mod_lt _ (by omega)
  have hrows : ∀ n, n % s.cfg.rows < s.cfg.rows := fun n => Nat.mod_lt _ h2
  have hr : (shortReset x s).inRange = true := by
    rw [inRange_iff]
    refine ⟨hcols _, hrows _, ?_, hcols _, hrows _, ?_, Nat.mod_lt _ h5, ?_, ?_, hd, Nat.mod_lt _ h4, rfl, hring.1, rfl⟩
    · show (x.escMode && (x.csiMode && !x.escMode)) = false
      cases x.escMode <;> simp
    · show (if _ then x.pb.pcount % 5 else 0) ≤ 4
      split
      · exact Nat.le_of_lt_succ (Nat.mod_lt _ (by omega))
      · omega
    · simp only [shortReset, State.settledOverlay]
      split <;> exact hcols _
    · simp only [shortReset, State.settledOverlay]
      split <;> exact hrows _
  have hi : (shortReset x s).invariants = true := by
    rw [invariants_iff]
    have hm : (if (x.escMode || x.csiMode && !x.escMode) = true then none else x.modal) ≠ none →
        x.escMode = false ∧ (x.csiMode && !x.escMode) = false := by
      cases x.escMode <;> cases x.csiMode <;> simp
    simp only [shortReset, State.settledOverlay, State.settledModes, State.cursorShown, State.ranged]
    generalize (if (x.escMode || x.csiMode && !x.escMode) = true then none else x.modal) = m at hm ⊢
    refine ⟨by cases x.escMode <;> simp, fun h => ?_, fun h => ?_, by cases x.skipCr <;> simp, fun h => ?_, ?_, fun h => ?_, ?_⟩
    · simp [h]
    · simp [h]
    · refine ⟨(hm h).1, (hm h).2, ?_⟩
      cases m with
      | none => exact absurd rfl h
      | some k => simp
    · trivial
    · rw [if_pos h, if_pos h]
      cases m <;> simp_all
    · cases hn : x.mdigN with
      | false => exact .inr (.inr rfl)
      | true => by_cases h1 : m = some .fgPick <;> by_cases h2 : m = some .bgPick <;> simp [h1, h2]
  have hcan : (shortReset x s).canonical = true := by
    simp only [State.canonical, Bool.and_eq_true]
    exact ⟨⟨Store.wf_canon _ _, Store.wf_canon _ _⟩, Memory.wf_canon⟩
  have hleg : (shortReset x s).legal = true := by
    simp only [State.legal, State.runnable, Bool.and_eq_true]
    exact ⟨⟨hc, hr⟩, hi⟩
  have hord : (shortReset x s).rsu.ordered = true := by
    simp only [shortReset, ResetUnit.settled, ResetUnit.ordered]
    generalize x.rsu.relL.ff1 = a, x.rsu.relL.ff2 = b, x.rsu.relR.ff1 = c, x.rsu.relR.ff2 = e, x.rsu.peerL.ff1 = f, x.rsu.peerL.ff2 = g,
      x.rsu.peerR.ff1 = i, x.rsu.peerR.ff2 = j
    revert a b c e f g i j
    decide
  simp only [State.inv, hleg, hcan, hord, Bool.true_and, Bool.and_true]
  have hl : (shortReset x s).ring.linked (shortReset x s).cfg.ringN = true := hring.2
  rw [hl]
  rfl

theorem State.ranged_of_inRange (h : x.inRange = true) (hk : x.canonical = true) (hl : x.ring.linked x.cfg.ringN = true) : x.ranged = x := by
  obtain ⟨h1, h2, -, h4, h5, h6, h7, h8, h9, h10, h11, h12, h13, h14⟩ := inRange_iff.1 h
  simp only [State.canonical, Bool.and_eq_true] at hk
  have e6 : x.pb.pcount % 5 = x.pb.pcount := Nat.mod_eq_of_lt (by omega)
  simp only [State.ranged, Nat.mod_eq_of_lt, h1, h2, h4, h5, h7, h8, h9, h11, e6, if_pos h10, ← h12, ← h14, Store.canon_of_wf hk.1.1,
    Store.canon_of_wf hk.1.2, Memory.canon_of_wf hk.2, Ring.ranged_of_ok h13 hl]

theorem State.settledModes_of_invariants (h : x.invariants = true) : x.settledModes = x := by
  obtain ⟨h1, h2, h3, h4, h5, -, -, h8⟩ := invariants_iff.1 h
  have e1 : (x.csiMode && !x.escMode) = x.csiMode := by revert h1; cases x.escMode <;> cases x.csiMode <;> decide
  have e2 : (x.skipLf && !x.skipCr) = x.skipLf := by revert h4; cases x.skipLf <;> cases x.skipCr <;> decide
  have e3 : (if (x.escMode || x.csiMode) = true then none else x.modal) = x.modal := by
    by_cases hm : x.modal = none
    · simp [hm]
    · simp [(h5 hm).1, (h5 hm).2.1]
  have e4 : (if x.csiMode = true then x.pb.pcount else 0) = x.pb.pcount := by
    by_cases hx : x.csiMode = true
    · rw [if_pos hx]
    · rw [if_neg hx, (h2 (by simpa using hx)).1]
  have e5 : (x.csiMode && x.pb.dpend) = x.pb.dpend := by
    by_cases hx : x.csiMode = true
    · simp [hx]
    · simp [(h2 (by simpa using hx)).2.2]
  have e6 : (if x.pb.dpend = true then x.pb.acc else 0) = x.pb.acc := by
    by_cases hx : x.pb.dpend = true
    · rw [if_pos hx]
    · rw [if_neg hx, h3 (by simpa using hx)]
  have e7 : (x.mdigN && (decide (x.modal = some .fgPick) || decide (x.modal = some .bgPick))) = x.mdigN := by
    rcases h8 with h | h | h <;> simp [h]
  simp only [State.settledModes, e1, e2, e3, e4, e5, e6, e7]

theorem State.settledOverlay_of_invariants (h : x.invariants = true) : x.settledOverlay = x := by
  obtain ⟨-, -, -, -, -, h6, h7, -⟩ := invariants_iff.1 h
  have e1 : (x.curVisible && (x.modal.isSome || x.cursorShown)) = x.curVisible := by
    by_cases hd : x.drawn = true
    · obtain ⟨-, -, a, b⟩ := h7 hd
      simp [State.cursorShown, a, b]
    · revert h6 hd
      cases x.drawn <;> cases x.curVisible <;> cases x.modal <;> simp
  have e2 : (if x.drawn = true then x.curCol else x.ovCol) = x.ovCol := by
    by_cases hd : x.drawn = true
    · rw [if_pos hd, (h7 hd).1]
    · rw [if_neg hd]
  have e3 : (if x.drawn = true then x.curRow else x.ovRow) = x.ovRow := by
    by_cases hd : x.drawn = true
    · rw [if_pos hd, (h7 hd).2.1]
    · rw [if_neg hd]
  simp only [State.settledOverlay, e1, ← h6, e2, e3]

theorem ResetUnit.settled_of_ordered {u : ResetUnit} (h : u.ordered = true) (hr : u.rst = false) :
    u.settled = { u with heldL := 0, heldR := 0, short := true } := by
  obtain ⟨rst, ⟨a, b⟩, ⟨c, e⟩, ⟨f, g⟩, ⟨i, j⟩, hl, hq, sh⟩ := u
  simp only [ResetUnit.ordered] at h hr
  subst hr
  simp only [ResetUnit.settled, ResetUnit.mk.injEq, Sync2.mk.injEq]
  revert a b c e f g i j
  simp

/-- Any registers that meet the invariant, out of reset, are left by the short reset that draws them: nothing narrower than
the invariant is fixed about the free values (log 26). -/
theorem shortReset_of_inv (hx : x.inv = true) (hc : x.cfg = s.cfg) (hr : x.rsu.rst = false) : shortReset x s = { x with
    skFree := s.skFree, inputs := s.inputs, submitted := [], freeDraws := s.freeDraws + 1
    rsu := { x.rsu with heldL := 0, heldR := 0, short := true } } := by
  have hcfg : ({ x with cfg := s.cfg } : State) = x := by rw [← hc]
  simp only [State.inv, State.legal, State.runnable, Bool.and_eq_true, Bool.not_eq_true', Option.isNone_iff_eq_none] at hx
  obtain ⟨⟨⟨⟨⟨⟨⟨⟨⟨-, h1⟩, h2⟩, h3⟩, h4⟩, -⟩, h5⟩, h6⟩, h7⟩, -⟩ := hx
  simp only [shortReset, hcfg, State.ranged_of_inRange h1 h3 h4, State.settledModes_of_invariants h2, State.settledOverlay_of_invariants h2,
    ResetUnit.settled_of_ordered h7 hr, ← h5, ← h6]

end Sys2Proof.Machine
end

