-- ==== Sys2Proof/Laws/Step.lean ====
section
/-! SUPPORT. What a step can do, said once: the event it takes, the turns of the two agents, and the registers each can change. -/

namespace Sys2Proof.Machine

variable {s t : State}

/-- A step that answers a next state: the state was legal, and it idled or took the first event. -/
theorem step_next_iff : step s = .next t ↔ s.legal = true ∧
    (s.inputs = [] ∧ t = s ∨ ∃ e rest, s.inputs = e :: rest ∧ react e { s with inputs := rest } = .next t) := by
  unfold step guardedStep takeEvent
  have hc : s.legal = true → configWf s.cfg = true := fun h => by simp [State.legal, State.runnable] at h; exact h.1.1
  by_cases h1 : configWf s.cfg = true
  · by_cases h2 : s.legal = true
    · rw [if_pos h1, if_pos h2]
      cases hi : s.inputs with
      | nil =>
        simp [h2]
        exact eq_comm
      | cons e rest => simp [h2]
    · simp [h1, h2]
  · have h2 : ¬s.legal = true := fun h => h1 (hc h)
    simp [h1, h2]

/-- A legal state's step is what its first event does. -/
theorem step_react {e : Event} {rest : List Event} (h : s.legal = true) (hi : s.inputs = e :: rest) :
    step s = react e { s with inputs := rest } := by
  have hc : configWf s.cfg = true := by simp [State.legal, State.runnable] at h; exact h.1.1
  unfold step guardedStep takeEvent
  rw [if_pos hc, if_pos h, hi]

theorem legal_iff : s.legal = true ↔ configWf s.cfg = true ∧ s.inRange = true ∧ s.invariants = true := by
  simp [State.legal, State.runnable, and_assoc]

theorem legal_runnable (h : s.legal = true) : s.runnable = true := by
  simp only [State.legal, Bool.and_eq_true] at h; exact h.1

theorem ite_isByte {c : Prop} [Decidable c] {i j : Instr} (hi : isByteClass i = true) (hj : isByteClass j = true) :
    isByteClass (if c then i else j) = true := by
  split
  · exact hi
  · exact hj

theorem decodeFinal_isByte (b : Byte) : isByteClass (decodeFinal b) = true := by
  unfold decodeFinal
  repeat' first | apply ite_isByte | rfl

theorem decodeMenu_isByte (cfg : Config) (k : MenuKind) (b : Byte) : isByteClass (decodeMenu cfg k b) = true := by
  unfold decodeMenu
  refine ite_isByte rfl ?_
  cases k <;> dsimp only <;> repeat' first | apply ite_isByte | rfl

theorem decodeNormal_isByte (cfg : Config) (b : Byte) : isByteClass (decodeNormal cfg b) = true := by
  unfold decodeNormal
  repeat' first | apply ite_isByte | rfl

/-- The decoded class of a byte is one that a byte can stand for. -/
theorem decode_isByte (cfg : Config) (m : Mode) (b : Byte) : isByteClass (decode cfg m b) = true := by
  unfold decode
  cases m <;> dsimp only
  · exact ite_isByte rfl (ite_isByte rfl (ite_isByte rfl (decodeNormal_isByte cfg b)))
  · exact ite_isByte rfl (ite_isByte rfl (ite_isByte rfl (ite_isByte rfl rfl)))
  · exact ite_isByte rfl (ite_isByte rfl (ite_isByte rfl (ite_isByte rfl (ite_isByte rfl (decodeFinal_isByte b)))))
  · exact decodeMenu_isByte cfg _ b

/-- The registers of `t` that a logic step may write, over the rest of `s`. -/
def State.withLogic (s t : State) : State :=
  { s with
    curCol := t.curCol, curRow := t.curRow, curFg := t.curFg, curBg := t.curBg
    escMode := t.escMode, csiMode := t.csiMode, skipLf := t.skipLf, skipCr := t.skipCr
    savedCol := t.savedCol, savedRow := t.savedRow, savedValid := t.savedValid, pb := t.pb, style := t.style
    curVisible := t.curVisible, blinkCnt := t.blinkCnt, drawn := t.drawn, ovChar := t.ovChar, ovFg := t.ovFg
    ovCol := t.ovCol, ovRow := t.ovRow, modal := t.modal, mdigN := t.mdigN, mdigV := t.mdigV
    swapReq := t.swapReq, back := t.back, front := t.front, snap := t.snap, ring := t.ring, pendTick := t.pendTick
    wrote := t.wrote, popped := t.popped }

theorem withLogic_trans {u : State} (h : t = s.withLogic t) (h' : u = t.withLogic u) : u = s.withLogic u := by
  conv_lhs => rw [h']
  conv_lhs => rw [h]
  rfl

theorem withLogic_of_withTerminal (h : t = s.withTerminal t) : t = s.withLogic t := by
  conv_lhs => rw [h]
  conv_rhs => rw [h]
  rfl

theorem beforeByte_withLogic (i : Instr) : beforeByte i s = s.withLogic (beforeByte i s) := by
  unfold beforeByte liftOverlay overlayRemove skipRule
  split <;> split <;> rfl

/-- The swap action of a logic step: nothing, or what `published` says (R109). -/
theorem swapAfterEdit_published (p : SwapPolicy) (h : s.hs = Handshake.idle) :
    swapAfterEdit p s = if s.wrote then s.published p else s := by
  rw [swapAfterEdit_eq p h]
  rfl

theorem swapAfterEdit_withLogic (p : SwapPolicy) (h : s.hs = Handshake.idle) : swapAfterEdit p s = s.withLogic (swapAfterEdit p s) := by
  rw [swapAfterEdit_published p h]
  unfold State.published
  cases p <;> split <;> rfl

theorem redrawOverlay_withLogic : redrawOverlay s = s.withLogic (redrawOverlay s) := by
  unfold redrawOverlay overlayDraw
  split <;> rfl

/-- The BYTE step after the class's rule, with its three actions said (R67, R109). -/
theorem afterByte_eq (h : s.hs = Handshake.idle) : afterByte s =
    clearLocal (if (redrawOverlay s).wrote then (redrawOverlay s).published s.cfg.swapOnByte else redrawOverlay s) := by
  have h1 : (redrawOverlay s).hs = Handshake.idle := by rw [redrawOverlay_withLogic]; exact h
  have h2 : (redrawOverlay s).cfg = s.cfg := by rw [redrawOverlay_withLogic]; rfl
  unfold afterByte
  simp only
  rw [swapAfterEdit_published _ h1, h2]

theorem afterByte_withLogic (h : s.hs = Handshake.idle) : afterByte s = s.withLogic (afterByte s) := by
  have h1 : (redrawOverlay s).hs = Handshake.idle := by rw [redrawOverlay_withLogic]; exact h
  unfold afterByte
  exact withLogic_trans redrawOverlay_withLogic (withLogic_trans (swapAfterEdit_withLogic _ h1) rfl)

/-- A byte's run that answers a next state: exec of its class between the two halves of the BYTE step. -/
theorem runByte_next_iff (b : Byte) : runByte b s = .next t ↔
    ∃ u, exec (decode s.cfg s.mode b) (beforeByte (decode s.cfg s.mode b) s) = .next u ∧ t = afterByte u := by
  unfold runByte
  rw [andThen_next_iff]
  simp [eq_comm]

theorem runByte_withLogic {b : Byte} (hs : s.hs = Handshake.idle) (h : runByte b s = .next t) : t = s.withLogic t := by
  obtain ⟨u, h1, rfl⟩ := (runByte_next_iff b).1 h
  have h2 := withLogic_of_withTerminal (exec_byte_frame (decode_isByte _ _ _) h1)
  have h3 := withLogic_trans (beforeByte_withLogic _) h2
  exact withLogic_trans h3 (afterByte_withLogic (by rw [h3]; exact hs))

/-- RING_POP's answer (R137). -/
theorem execRingPop_eq (h : s.runnable = true) : exec .ringPop s =
    .next { s with popped := (s.ring.pop s.cfg.ringN).1, ring := (s.ring.pop s.cfg.ringN).2 } := by
  exact run_eq h

theorem runnable_clearLocal : (clearLocal s).runnable = s.runnable := rfl

/-- The state in which a popped byte runs is runnable if the state before the pop was. -/
theorem popped_runnable {q : Option Byte} {w : Bool} (h : s.runnable = true) :
    ({ s with wrote := w, popped := q, ring := (s.ring.pop s.cfg.ringN).2 } : State).runnable = true := by
  obtain ⟨hc, hr⟩ := runnable_iff.1 h
  have hring : s.ring.inRange s.cfg.ringN = true := by
    simp only [State.inRange, Bool.and_eq_true] at hr
    exact hr.1.2
  have hpop : (s.ring.pop s.cfg.ringN).2.inRange s.cfg.ringN = true := by
    obtain ⟨h1, h2, h3, h4⟩ := Ring.inRange_iff.1 hring
    by_cases hz : s.ring.count = 0
    · simp only [Ring.pop, hz, if_true]
      exact hring
    · rw [Ring.pop_some hz, Ring.inRange_iff]
      exact ⟨h1, h2, Nat.mod_lt _ (by omega), by simp only; omega⟩
  refine runnable_iff.2 ⟨hc, ?_⟩
  simp only [State.inRange, Bool.and_eq_true] at hr ⊢
  exact ⟨⟨hr.1.1, hpop⟩, hr.2⟩

/-- A BYTE step from a ring that is not empty runs the byte at the tail on the state after the pop. -/
theorem byteStep_eq (h : s.runnable = true) (hc : s.ring.count ≠ 0) : byteStep s =
    runByte (s.ring.buf.getD s.ring.tail 0)
      { s with wrote := false, popped := some (s.ring.buf.getD s.ring.tail 0), ring := (s.ring.pop s.cfg.ringN).2 } := by
  unfold byteStep
  rw [execRingPop_eq (s := clearLocal s) h]
  simp only [andThen, clearLocal_ring, clearLocal_cfg, Ring.pop_some hc]
  rfl

/-- TICK changes the logic registers alone (R120). -/
theorem tickRule_withLogic (h : s.hs = Handshake.idle) : tickRule s = s.withLogic (tickRule s) := by
  have hb : ∀ t : State, t.hs = Handshake.idle → blinkStep t = t.withLogic (blinkStep t) := by
    intro t _
    unfold blinkStep toggleOverlay overlayDraw overlayRemove
    split_ifs <;> rfl
  unfold tickRule
  simp only
  split
  · rfl
  · have h1 := hb (clearLocal { s with pendTick := false }) h
    have h2 : (blinkStep (clearLocal { s with pendTick := false })).hs = Handshake.idle := by rw [h1]; exact h
    exact withLogic_trans (t := clearLocal { s with pendTick := false }) rfl
      (withLogic_trans h1 (withLogic_trans (swapAfterEdit_withLogic _ h2) rfl))

/-- The logic agent's turn: it idles, ticks, or runs a byte (R140). -/
theorem logicTurn_cases (h : logicTurn s = .next t) (hr : s.runnable = true) :
    t = s ∨ (s.pendTick = true ∧ t = tickRule s) ∨
    (s.pendTick = false ∧ s.ring.count ≠ 0 ∧ runByte (s.ring.buf.getD s.ring.tail 0)
      { s with wrote := false, popped := some (s.ring.buf.getD s.ring.tail 0), ring := (s.ring.pop s.cfg.ringN).2 } = .next t) := by
  unfold logicTurn at h
  split_ifs at h with h1 h2 h3
  · refine .inr (.inl ⟨h2, ?_⟩)
    have h4 : exec .tick s = .next (tickRule s) := run_eq hr
    rw [h4] at h
    cases h; rfl
  · refine .inr (.inr ⟨by simpa using h2, by omega, ?_⟩)
    rwa [byteStep_eq hr (by omega)] at h
  · cases h; exact .inl rfl
  · cases h; exact .inl rfl

/-- The logic agent's turn changes the logic registers alone (R14). -/
theorem logicTurn_withLogic (h : logicTurn s = .next t) (hr : s.runnable = true) : t = s.withLogic t := by
  have hs := inRange_hs (runnable_iff.1 hr).2
  rcases logicTurn_cases h hr with rfl | ⟨-, rfl⟩ | ⟨-, -, h1⟩
  · rfl
  · exact tickRule_withLogic hs
  · exact withLogic_trans (t := { s with
      wrote := false, popped := some (s.ring.buf.getD s.ring.tail 0), ring := (s.ring.pop s.cfg.ringN).2 }) rfl (runByte_withLogic (by exact hs) h1)

/-- What each instruction keeps: the configuration. -/
theorem exec_cfg {i : Instr} (h : exec i s = .next t) : t.cfg = s.cfg := by
  by_cases hb : isByteClass i = true
  · rw [exec_byte_frame hb h]; rfl
  · have hr := (exec_runnable i).2 t h
    have hs := inRange_hs (runnable_iff.1 hr).2
    have key : ∀ f : State → State, (f s).cfg = s.cfg → run f s = .next t → t.cfg = s.cfg := by
      intro f hf h
      rw [run_eq hr] at h
      cases h; exact hf
    cases i <;> first | exact absurd rfl hb | unfold exec at h
    all_goals dsimp only at h
    · exact key _ (by rw [tickRule_withLogic hs]; rfl) h
    · refine key _ ?_ h
      unfold lineRule
      split
      · rfl
      · rename_i id rest _
        rw [lineBody_eq (s := sinkTake id rest s) (b := ⟨id, []⟩) hs rfl]
        split <;> rfl
    · refine key _ ?_ h
      unfold deferredSwap; split <;> rfl
    · exact key _ rfl h
    · exact key _ rfl h
    · exact key _ rfl h

end Sys2Proof.Machine
end

