-- ==== Sys2Proof/Tests/Slice0.lean ====
section
/-! SUPPORT. Tests of one step each, with the expected results of spec/95_test_vectors.md or worked by hand from the rules
named, and a witness for the hypotheses of each obligation. -/

namespace Sys2Proof.Machine.Tests

-- Each test's kernel evaluation would wait in a thread of its own; one at a time they need no more memory than one.
set_option Elab.async false

/-- The configuration TC of 95_test_vectors.md section 1; FONT(ch, gr) = ch for three of the 256 codes. -/
def tc : Config :=
  { Config.default with
    cols := 8, rows := 3, glyphH := 4, frameLines := 12
    font := [0x41, 0x42, 0x80].flatMap fun ch => (List.range 4).map fun gr => ⟨ch * 4 + gr, BitVec.ofNat 8 ch⟩ }

/-- Reset under TC. -/
def start : State := State.resetOf tc

/-- Reset with the cursor moved. -/
def at' (c r : Nat) : State := { start with curCol := c, curRow := r }

/-- A CSI sequence with these parameters kept, and maybe one pending. -/
def typed (s : State) (ps : Params) (n : Nat) (acc : Param) (dpend : Bool) : State :=
  { s with csiMode := true, pb := { params := ps, pcount := n, acc := acc, dpend := dpend } }

/-- A property of the next state; false at a fault or a refusal. -/
def holds (o : Host.Outcome State Fault Refusal) (p : State → Bool) : Bool :=
  match o with
  | .next t => p t
  | _ => false

/-- The answer is this refusal. -/
def refuses (o : Host.Outcome State Fault Refusal) (r : Refusal) : Bool :=
  match o with
  | .refused q => decide (q = r)
  | _ => false

def chr (t : State) (c r : Nat) : Byte := Store.chrAt t.cfg t.back r c

/-! The configuration's conditions (R7), each broken alone. -/

theorem test_tc_well_formed : configWf tc = true := by decide +kernel
theorem test_default_well_formed : configWf Config.default = true := by decide +kernel
theorem test_refuses_cols_4 : configWf { tc with cols := 4 } = false := by decide +kernel
theorem test_refuses_cols_12 : configWf { tc with cols := 12 } = false := by decide +kernel
theorem test_refuses_no_rows : configWf { tc with rows := 0 } = false := by decide +kernel
theorem test_refuses_no_glyph_row : configWf { tc with glyphH := 0, font := [] } = false := by decide +kernel
theorem test_refuses_no_frame_line : configWf { tc with frameLines := 0 } = false := by decide +kernel
theorem test_refuses_mb_esc : configWf { tc with mbTheme := 0x1B } = false := by decide +kernel
theorem test_refuses_equal_mb : configWf { tc with mbStyle := 0x01 } = false := by decide +kernel
theorem test_refuses_bs_cr : configWf { tc with bsCodes := [0x08, 0x0D] } = false := by decide +kernel
theorem test_refuses_bs_mb : configWf { tc with bsCodes := [0x04] } = false := by decide +kernel
theorem test_refuses_menu_outside : configWf { tc with menus := { tc.menus with style := { tc.menus.style with x0 := 5 } } } = false := by
  decide +kernel
theorem test_refuses_short_image : configWf { tc with menus := { tc.menus with theme := { tc.menus.theme with image := [] } } } = false := by
  decide +kernel
theorem test_refuses_no_blink : configWf { tc with blinkTicks := 0 } = false := by decide +kernel
theorem test_refuses_no_ring : configWf { tc with ringN := 0 } = false := by decide +kernel
theorem test_refuses_11_themes : configWf { tc with themes := List.replicate 11 (0, 0) } = false := by decide +kernel
theorem test_refuses_font_outside : configWf { tc with font := [⟨1024, 0⟩] } = false := by decide +kernel
theorem test_refuses_attr_outside : configWf { tc with attr := [⟨3, 0, true, false⟩] } = false := by decide +kernel

/-! Ill-formed instructions, one for each check of WellFormed. -/

theorem test_ill_cr_in_menu : Instr.cr.wfIn tc (.menu .style) = false := by decide +kernel
theorem test_ill_escCsi_in_normal : Instr.escCsi.wfIn tc .normal = false := by decide +kernel
theorem test_ill_escAbort_bracket : (Instr.escAbort 0x5B).wfIn tc .esc = false := by decide +kernel
theorem test_ill_escAbort_esc : (Instr.escAbort 0x1B).wfIn tc .esc = false := by decide +kernel
theorem test_ill_csiDigit_10 : (Instr.csiDigit 10).wfIn tc .csi = false := by decide +kernel
theorem test_ill_csiSgr_in_esc : Instr.csiSgr.wfIn tc .esc = false := by decide +kernel
theorem test_ill_csiUnknown_selector : (Instr.csiUnknown 0x6D).wfIn tc .csi = false := by decide +kernel
theorem test_ill_csiUnknown_digit : (Instr.csiUnknown 0x30).wfIn tc .csi = false := by decide +kernel
theorem test_ill_openFg_in_csi : Instr.openFg.wfIn tc .csi = false := by decide +kernel
theorem test_ill_bs_printable : (Instr.bs 0x41).wfIn tc .normal = false := by decide +kernel
theorem test_ill_print_entry : (Instr.print 0x02).wfIn tc .normal = false := by decide +kernel
theorem test_ill_print_backspace : (Instr.print 0x7F).wfIn tc .normal = false := by decide +kernel
theorem test_ill_modalCancel_in_normal : Instr.modalCancel.wfIn tc .normal = false := by decide +kernel
theorem test_ill_pickDigit_12 : (Instr.pickDigit 12).wfIn tc (.menu .fgPick) = false := by decide +kernel
theorem test_ill_pickDigit_in_style : (Instr.pickDigit 1).wfIn tc (.menu .style) = false := by decide +kernel
theorem test_ill_pickBs_other : (Instr.pickBs 0x41).wfIn tc (.menu .bgPick) = false := by decide +kernel
theorem test_ill_styleSelect_in_theme : (Instr.styleSelect 1).wfIn tc (.menu .theme) = false := by decide +kernel
theorem test_ill_themeSelect_15 : (Instr.themeSelect 15).wfIn tc (.menu .theme) = false := by decide +kernel
theorem test_ill_modalIgnore_esc : (Instr.modalIgnore 0x1B).wfIn tc (.menu .theme) = false := by decide +kernel
theorem test_ill_modalIgnore_backspace : (Instr.modalIgnore 0x08).wfIn tc (.menu .fgPick) = false := by decide +kernel
theorem test_ill_tick : Instr.tick.wfIn tc .normal = false := by decide +kernel
theorem test_ill_wf_csiDigit_10 : (Instr.csiDigit 10).wf tc = false := by decide +kernel
theorem test_wf_ringPush : (Instr.ringPush 0xFF).wf tc = true := by decide +kernel

/-! Every byte class from its word, written out from the table's match column (30_encoding.md). -/

theorem test_word_cr : decode tc .esc 0b00001101 = .cr := by decide +kernel
theorem test_word_lf : decode tc .csi 0b00001010 = .lf := by decide +kernel
theorem test_word_escEntry : decode tc .csi 0b00011011 = .escEntry := by decide +kernel
theorem test_word_escCsi : decode tc .esc 0b01011011 = .escCsi := by decide +kernel
theorem test_word_escAbort : decode tc .esc 0b00001000 = .escAbort 0x08 := by decide +kernel
theorem test_word_csiDigit : decode tc .csi 0b00111001 = .csiDigit 9 := by decide +kernel
theorem test_word_csiSep : decode tc .csi 0b00111011 = .csiSep := by decide +kernel
theorem test_word_csiCuu : decode tc .csi 0b01000001 = .csiCuu := by decide +kernel
theorem test_word_csiCud : decode tc .csi 0b01000010 = .csiCud := by decide +kernel
theorem test_word_csiCuf : decode tc .csi 0b01000011 = .csiCuf := by decide +kernel
theorem test_word_csiCub : decode tc .csi 0b01000100 = .csiCub := by decide +kernel
theorem test_word_csiCup : decode tc .csi 0b01001000 = .csiCup := by decide +kernel
theorem test_word_csiEd : decode tc .csi 0b01001010 = .csiEd := by decide +kernel
theorem test_word_csiEl : decode tc .csi 0b01001011 = .csiEl := by decide +kernel
theorem test_word_csiSgr : decode tc .csi 0b01101101 = .csiSgr := by decide +kernel
theorem test_word_csiScp : decode tc .csi 0b01110011 = .csiScp := by decide +kernel
theorem test_word_csiRcp : decode tc .csi 0b01110101 = .csiRcp := by decide +kernel
theorem test_word_csiUnknown : decode tc .csi 0b01100001 = .csiUnknown 0x61 := by decide +kernel
theorem test_word_openFg : decode tc .normal 0b00000001 = .openFg := by decide +kernel
theorem test_word_openBg : decode tc .normal 0b00000010 = .openBg := by decide +kernel
theorem test_word_openStyle : decode tc .normal 0b00000011 = .openStyle := by decide +kernel
theorem test_word_openTheme : decode tc .normal 0b00000100 = .openTheme := by decide +kernel
theorem test_word_bs : decode tc .normal 0b01111111 = .bs 0x7F := by decide +kernel
theorem test_word_print : decode tc .normal 0b10000000 = .print 0x80 := by decide +kernel
theorem test_word_modalCancel : decode tc (.menu .bgPick) 0b00011011 = .modalCancel := by decide +kernel
theorem test_word_pickDigit : decode tc (.menu .bgPick) 0b00110000 = .pickDigit 0 := by decide +kernel
theorem test_word_pickBs : decode tc (.menu .fgPick) 0b00001000 = .pickBs 0x08 := by decide +kernel
theorem test_word_styleSelect : decode tc (.menu .style) 0b00110101 = .styleSelect 5 := by decide +kernel
theorem test_word_themeSelect : decode tc (.menu .theme) 0b00110001 = .themeSelect 1 := by decide +kernel
theorem test_word_modalIgnore : decode tc (.menu .style) 0b00001101 = .modalIgnore 0x0D := by decide +kernel
theorem test_no_word_for_events : [Instr.tick, .line, .deferredCopy, .forcedCopy, .ringPush 0x41, .ringPop].all (fun i => (encode tc i).isEmpty) = true := by
  decide +kernel
theorem test_decode_rejects_both_modes : Mode.ofFlags none true true = .error .bothModesSet := rfl
theorem test_decode_rejects_no_byte : decodeBytes tc .normal [] = .error .noByte := rfl
theorem test_table_word : decodeTableWord 8 0x5B = some .escCsi := by decide +kernel
theorem test_table_word_too_long : decodeTableWord 16 0x0D0A = none := by decide +kernel

/-! Parser and CSI (vectors N, PA, CS). -/

/-- R70's example: from (5,3) CR moves to (0,4); here from (5,1) to (0,2). -/
theorem test_cr_breaks : holds (exec .cr (at' 5 1)) (fun t => t.curCol == 0 && t.curRow == 2 && t.skipLf && !t.skipCr) = true := by decide +kernel
/-- N1: the CR of an LF CR pair is consumed. -/
theorem test_cr_skipped : holds (exec .cr { at' 5 1 with skipCr := true }) (fun t => t.curCol == 5 && t.curRow == 1 && !t.skipCr) = true := by
  decide +kernel
/-- T2: a line break in the last row scrolls. -/
theorem test_lf_scrolls : holds (execAll [.print 0x61, .lf, .print 0x62, .lf, .print 0x63, .lf] start)
    (fun t => t.curRow == 2 && chr t 0 0 == 0x62 && chr t 0 1 == 0x63 && chr t 0 2 == 0x20) = true := by decide +kernel
theorem test_lf_skipped : holds (exec .lf { at' 5 1 with skipLf := true }) (fun t => t.curRow == 1 && !t.skipLf) = true := by decide +kernel
/-- PA2: ESC abandons a sequence. -/
theorem test_escEntry : holds (exec .escEntry (typed start ⟨0, 0, 0, 0⟩ 0 3 true)) (fun t => t.escMode && !t.csiMode && t.pb == ParseBuf.empty) = true := by
  decide +kernel
theorem test_escCsi : holds (exec .escCsi { start with escMode := true }) (fun t => !t.escMode && t.csiMode) = true := by decide +kernel
/-- PA1: the byte after ESC is discarded. -/
theorem test_escAbort : holds (exec (.escAbort 0x37) { start with escMode := true }) (fun t => !t.escMode && chr t 0 0 == 0x20) = true := by decide +kernel
/-- PA4: the accumulator saturates. -/
theorem test_csiDigit_saturates : holds (exec (.csiDigit 9) (typed start ⟨0, 0, 0, 0⟩ 0 9999 true)) (fun t => t.pb.acc == 65535) = true := by
  decide +kernel
/-- PA3: a fifth parameter is dropped. -/
theorem test_csiSep_drops_fifth : holds (exec .csiSep (typed start ⟨1, 2, 3, 4⟩ 4 5 true))
    (fun t => t.pb.pcount == 4 && t.pb.params.p3 == 4 && t.pb.acc == 0 && !t.pb.dpend) = true := by decide +kernel
theorem test_csiSep_empty_field : holds (exec .csiSep (typed start ⟨0, 0, 0, 0⟩ 0 0 false)) (fun t => t.pb.pcount == 1 && t.pb.params.p0 == 0) = true := by
  decide +kernel
/-- CS1: CUU stops at row 0; CS2: a present 0 moves nothing. -/
theorem test_cuu_clamps : holds (exec .csiCuu (typed (at' 2 1) ⟨0, 0, 0, 0⟩ 0 5 true)) (fun t => t.curRow == 0 && t.curCol == 2 && !t.csiMode) = true := by
  decide +kernel
theorem test_cuu_zero : holds (exec .csiCuu (typed (at' 2 1) ⟨0, 0, 0, 0⟩ 0 0 true)) (fun t => t.curRow == 1) = true := by decide +kernel
/-- CS3, CS4, CS5: the other edges, and the default of 1. -/
theorem test_cud_clamps : holds (exec .csiCud (typed (at' 4 0) ⟨0, 0, 0, 0⟩ 0 9 true)) (fun t => t.curRow == 2 && t.curCol == 4) = true := by decide +kernel
theorem test_cuf_clamps : holds (exec .csiCuf (typed start ⟨0, 0, 0, 0⟩ 0 99 true)) (fun t => t.curCol == 7 && t.curRow == 0) = true := by decide +kernel
theorem test_cub_default : holds (exec .csiCub (typed (at' 3 0) ⟨0, 0, 0, 0⟩ 0 0 false)) (fun t => t.curCol == 2) = true := by decide +kernel
/-- PA8: `ESC [ ; 5 H` sets row 0, column 4; CS8 clamps. -/
theorem test_cup_empty_first : holds (exec .csiCup (typed (at' 7 2) ⟨0, 0, 0, 0⟩ 1 5 true)) (fun t => t.curCol == 4 && t.curRow == 0) = true := by
  decide +kernel
theorem test_cup_clamps : holds (exec .csiCup (typed start ⟨99, 0, 0, 0⟩ 1 99 true)) (fun t => t.curCol == 7 && t.curRow == 2) = true := by decide +kernel
/-- CS11: two operands, no effect; `ESC [ 2 J` erases. -/
theorem test_ed_two_operands : holds (exec .csiEd (typed { start with back := Store.setChr tc ⟨[], []⟩ 0 0 0x61 } ⟨2, 0, 0, 0⟩ 1 0 true))
    (fun t => chr t 0 0 == 0x61) = true := by decide +kernel
theorem test_ed_erases : holds (exec .csiEd (typed { at' 3 1 with back := Store.setChr tc ⟨[], []⟩ 2 7 0x61 } ⟨0, 0, 0, 0⟩ 0 2 true))
    (fun t => chr t 7 2 == 0x20 && t.curCol == 0 && t.curRow == 0 && t.wrote) = true := by decide +kernel
/-- R85's example: the last two cells of the row, the cell before them kept. -/
theorem test_el : holds (exec .csiEl (typed { at' 6 0 with back := Store.setChr tc (Store.setChr tc ⟨[], []⟩ 0 7 0x62) 0 5 0x61 } ⟨0, 0, 0, 0⟩ 0 0 false))
    (fun t => chr t 7 0 == 0x20 && chr t 5 0 == 0x61 && t.curCol == 6) = true := by decide +kernel
/-- CS13: SGR 32;44; CS14: an empty SGR does nothing. -/
theorem test_sgr_colours : holds (exec .csiSgr (typed start ⟨32, 0, 0, 0⟩ 1 44 true)) (fun t => t.curFg == 0x0C && t.curBg == 0x03) = true := by decide +kernel
theorem test_sgr_empty : holds (exec .csiSgr (typed { start with curFg := 0x30 } ⟨0, 0, 0, 0⟩ 0 0 false)) (fun t => t.curFg == 0x30) = true := by decide +kernel
/-- CS19, CS20. -/
theorem test_scp : holds (exec .csiScp (typed (at' 2 1) ⟨0, 0, 0, 0⟩ 0 0 false)) (fun t => t.savedCol == 2 && t.savedRow == 1 && t.savedValid) = true := by
  decide +kernel
theorem test_rcp_none : holds (exec .csiRcp (typed (at' 2 1) ⟨0, 0, 0, 0⟩ 0 0 false)) (fun t => t.curCol == 2 && t.curRow == 1) = true := by decide +kernel
/-- PA6: `?` is an unknown final. -/
theorem test_unknown : holds (exec (.csiUnknown 0x3F) (typed start ⟨7, 0, 0, 0⟩ 1 0 false)) (fun t => !t.csiMode && t.pb.params.p0 == 0 && !t.wrote) = true := by
  decide +kernel

/-! Text and menus (vectors T, M). -/

/-- T1: the last column wraps at once. -/
theorem test_print_wraps : holds (exec (.print 0x48) (at' 7 0)) (fun t => chr t 7 0 == 0x48 && t.curCol == 0 && t.curRow == 1 && !t.skipCr) = true := by
  decide +kernel
/-- W9 and R36: foreground 0x2D and background 0x12 in the three plane words of cell (1,0). -/
theorem test_print_planes : holds (exec (.print 0x41) { at' 1 0 with curFg := 0x2D, curBg := 0x12 })
    (fun t => Store.plAt tc t.back 0 0 0 == 0x33333393 && Store.plAt tc t.back 1 0 0 == 0x33333333 && Store.plAt tc t.back 2 0 0 == 0x33333363) = true := by
  decide +kernel
/-- T3, T4. -/
theorem test_bs : holds (exec (.bs 0x08) { at' 2 0 with back := Store.setChr tc ⟨[], []⟩ 0 1 0x62 }) (fun t => chr t 1 0 == 0x20 && t.curCol == 1) = true := by
  decide +kernel
theorem test_bs_column_0 : holds (exec (.bs 0x7F) { at' 0 1 with back := Store.setChr tc ⟨[], []⟩ 1 0 0x62 }) (fun t => chr t 0 1 == 0x20 && t.curRow == 1) = true := by
  decide +kernel
/-- M2: the menu's row; SNAP holds what was there. -/
theorem test_openFg : holds (exec .openFg { start with back := Store.setChr tc ⟨[], []⟩ 0 4 0x65 })
    (fun t => t.modal == some .fgPick && chr t 4 0 == 0x46 && (snapAt tc t.snap 0).ch == 0x65 && chr t 3 0 == 0x20) = true := by decide +kernel
theorem test_openBg : holds (exec .openBg start) (fun t => t.modal == some .bgPick && chr t 4 0 == 0x42 && !t.mdigN) = true := by decide +kernel
/-- M8, M10. -/
theorem test_openStyle : holds (exec .openStyle start) (fun t => t.modal == some .style && chr t 7 0 == 0x3F) = true := by decide +kernel
theorem test_openTheme : holds (exec .openTheme start) (fun t => t.modal == some .theme && chr t 5 0 == 0x48) = true := by decide +kernel
/-- M5, M12: restored verbatim. -/
theorem test_modalCancel : holds (execAll [.openFg, .modalCancel] { start with back := Store.setChr tc ⟨[], []⟩ 0 5 0x66 })
    (fun t => t.modal == none && chr t 5 0 == 0x66 && chr t 4 0 == 0x20) = true := by decide +kernel
/-- M1: 45 is 0x2D; M2: 64 is ignored. -/
theorem test_pickDigit_completes : holds (exec (.pickDigit 5) { start with modal := some .fgPick, mdigN := true, mdigV := 4 })
    (fun t => t.curFg == 0x2D && t.curBg == 0 && t.modal == none) = true := by decide +kernel
theorem test_pickDigit_64 : holds (exec (.pickDigit 4) { start with modal := some .bgPick, mdigN := true, mdigV := 6 })
    (fun t => t.curBg == 0 && t.modal == some .bgPick && t.mdigV == 6) = true := by decide +kernel
theorem test_pickBs : holds (exec (.pickBs 0x08) { start with modal := some .fgPick, mdigN := true, mdigV := 7 }) (fun t => !t.mdigN && t.mdigV == 0) = true := by
  decide +kernel
/-- M7, M8. -/
theorem test_style_2 : holds (exec (.styleSelect 2) { start with modal := some .style }) (fun t => t.style == .bar && t.modal == none) = true := by decide +kernel
theorem test_style_6 : holds (exec (.styleSelect 6) { start with modal := some .style }) (fun t => t.style == .block && t.modal == some .style) = true := by
  decide +kernel
/-- M9, M10. -/
theorem test_theme_1 : holds (exec (.themeSelect 1) { start with modal := some .theme }) (fun t => t.curFg == 0x3C && t.curBg == 0x03 && t.modal == none) = true := by
  decide +kernel
theorem test_theme_2 : holds (exec (.themeSelect 2) { start with modal := some .theme }) (fun t => t.modal == some .theme && t.curFg == 0x3F) = true := by
  decide +kernel
theorem test_modalIgnore : holds (exec (.modalIgnore 0x0D) { start with modal := some .fgPick }) (fun t => t.modal == some .fgPick && t.curRow == 0) = true := by
  decide +kernel

/-! Events (vectors O, S, E, Q). -/

/-- O1: the first two TICKs. -/
theorem test_tick_counts : holds (exec .tick { start with pendTick := true }) (fun t => t.blinkCnt == 1 && !t.curVisible && !t.pendTick && !t.swapReq) = true := by
  decide +kernel
theorem test_tick_draws : holds (exec .tick { start with blinkCnt := 1 }) (fun t => t.blinkCnt == 0 && t.drawn && chr t 0 0 == 0x80 && t.swapReq && t.ovChar == 0x20) = true := by
  decide +kernel
/-- R133: with no buffer the step waits; at line 0 the pending copy is made and shown. -/
theorem test_line_waits : holds (exec .line start) (fun t => t == start) = true := by decide +kernel
theorem test_line_0 : holds (exec .line { start with back := Store.setChr tc ⟨[], []⟩ 0 0 0x41, swapReq := true, skFree := [3] })
    (fun t => t.line == 1 && !t.swapReq && Store.chrAt tc t.front 0 0 == 0x41 && t.skFree == [] && t.submitted.map (fun b => (b.id, b.words.length)) == [(3, 96)]) = true := by
  decide +kernel
/-- R125's example, and E: cell 'A' = 0x41 in white on black at line 0: pixels 0 and 6 set. -/
theorem test_lut_example : lutWord tc 3 5 0 = 0x1003 ∧ lutWord tc 3 5 1 = 0x1003 := by decide +kernel
theorem test_encode_A : encodeCell tc (Store.setChr tc ⟨[], []⟩ 0 0 0x41) 0 0 0 0 false = [0x1003, 0x1000, 0x1000, 0x1003] := by decide +kernel
/-- R127: both overrides, the blink one last. -/
theorem test_override : glyphPattern tc 0x41 3 true false false = 0xFF ∧ glyphPattern tc 0x41 3 true true false = 0x00 := by decide +kernel
theorem test_deferredCopy_none : holds (exec .deferredCopy { start with back := Store.setChr tc ⟨[], []⟩ 0 0 0x41 }) (fun t => Store.chrAt tc t.front 0 0 == 0x20) = true := by
  decide +kernel
theorem test_forcedCopy : holds (exec .forcedCopy { start with back := Store.setChr tc ⟨[], []⟩ 0 0 0x41, swapReq := true })
    (fun t => Store.chrAt tc t.front 0 0 == 0x41 && !t.swapReq) = true := by decide +kernel

/-- A full ring of TC, its overflow flag raised (W7 after the fifth push). -/
def full : Ring := { buf := [0x61, 0x62, 0x63, 0x64], head := 0, tail := 0, count := 4, overflow := true }

/-- W7: the fifth push is dropped; the flag stays after one pop and falls after two. -/
theorem test_ringPush_full : holds (exec (.ringPush 0x65) { start with ring := { full with overflow := false } }) (fun t => t.ring == full) = true := by
  decide +kernel
theorem test_ringPop : holds (execAll [.ringPop, .ringPop] { start with ring := full }) (fun t => t.popped == some 0x62 && !t.ring.overflow && t.ring.count == 2) = true := by
  decide +kernel

/-! The step. -/

/-- R67's example: the cursor drawn over 'x' at (0,0); byte A. -/
theorem test_step_moves_cursor :
    holds (step { start with
      curVisible := true, drawn := true, ovChar := 0x78, ovFg := 0x3F, back := Store.setFg tc ⟨[], []⟩ 0 0 0x80 0x3F
      ring := { Ring.empty 4 with buf := [0x41, 0, 0, 0], head := 1, count := 1 }, inputs := [.logic] })
    (fun t => chr t 0 0 == 0x41 && chr t 1 0 == 0x80 && t.curCol == 1 && t.drawn && t.ovChar == 0x20 && t.swapReq && t.ring.count == 0) = true := by
  decide +kernel
theorem test_fetch_runs : holds (step (State.reset.withFetchWord 8 0x41)) (fun t => !t.csiMode && t.ring.count == 0) = true := by decide +kernel
theorem test_reset_inv : State.reset.inv = true := by decide +kernel
theorem test_step_refuses_mode_pair : refuses (step { start with escMode := true, csiMode := true }) .illegalState = true := by decide +kernel

/-! Witnesses: for each obligation with hypotheses a state and operands that meet them, at the boundaries of its clauses. -/

/-- A state whose next event is the logic agent's turn with one byte waiting. -/
def oneByte (b : Byte) : State :=
  { start with ring := { Ring.empty 4 with buf := [b, 0, 0, 0], head := 1, count := 1 }, inputs := [.logic] }

/-- Reset held for `l` cycles of clk_l and `r` of clk_r. -/
def heldState (l r : Nat) (es : List Event) : State :=
  { start with
    rsu := { ResetUnit.asserted with heldL := l, heldR := r }
    inputs := es }

theorem witness_FinalSelectorTable : ¬(0x30 ≤ (0x3A : Byte).toNat ∧ (0x3A : Byte).toNat ≤ 0x39) ∧ (0x3A : Byte) ≠ 0x3B ∧ (0x3A : Byte) ≠ 0x0D ∧
    (0x3A : Byte) ≠ 0x0A ∧ (0x3A : Byte) ≠ 0x1B ∧ (0x3A : Byte) ∉ ([0x41, 0x42, 0x43, 0x44, 0x48, 0x4A, 0x4B, 0x6D, 0x73, 0x75] : List Byte) := by decide
theorem witness_DecodeOfEncode : configWf tc = true ∧ (Instr.csiDigit 9).wfIn tc .csi = true := by decide +kernel
theorem witness_EveryByteHasOneClass : configWf tc = true ∧ (Instr.print 0x00).wfIn tc .normal = true ∧ encode tc (.print 0x00) = [0x00] := by decide +kernel
theorem witness_MenuRoutingFirst : configWf start.cfg = true ∧ start.modal = none := by decide +kernel
theorem witness_MenuRoutingFirst_menu : configWf { start with modal := some .theme }.cfg = true ∧ { start with modal := some MenuKind.theme }.modal = some .theme ∧
    ¬(0x30 ≤ (0x2F : Byte).toNat ∧ (0x2F : Byte).toNat ≤ 0x39) ∧ (0x2F : Byte) ≠ 0x1B ∧ (0x2F : Byte) ∉ tc.bsCodes := by decide +kernel
theorem witness_StepRunsDecodedByte : (oneByte 0x41).legal = true ∧ (oneByte 0x41).inputs = .logic :: [] ∧ logicRuns (oneByte 0x41) = true ∧
    (oneByte 0x41).pendTick = false ∧ 0 < (oneByte 0x41).ring.count := by decide +kernel
theorem witness_ByteStepOrder : (oneByte 0x0D).legal = true ∧ (oneByte 0x0D).inputs = .logic :: [] ∧ logicRuns (oneByte 0x0D) = true ∧
    (oneByte 0x0D).pendTick = false ∧ 0 < (oneByte 0x0D).ring.count := by decide +kernel
theorem witness_LogicAgentTurn_tick : { oneByte 0x41 with pendTick := true }.legal = true ∧ { oneByte 0x41 with pendTick := true }.inputs = .logic :: [] ∧
    logicRuns { oneByte 0x41 with pendTick := true } = true ∧ { oneByte 0x41 with pendTick := true }.pendTick = true := by decide +kernel
theorem witness_LogicAgentTurn_idle : { start with inputs := [.logic] }.legal = true ∧ logicRuns { start with inputs := [.logic] } = true ∧
    { start with inputs := [.logic] }.pendTick = false ∧ { start with inputs := [.logic] }.ring.count = 0 := by decide +kernel
theorem witness_EverythingCompletes : start.runnable = true := by decide +kernel
theorem witness_EverythingCompletes_step : { start with inputs := [.sinkFree 15, .rst false] }.legal = true ∧ 15 < 2 ^ tc.skw ∧
    holds (step { start with inputs := [.sinkFree 15, .rst false] }) (fun t => t.skFree == [15]) = true := by decide +kernel
theorem witness_IllFormedConfigRefused : ¬(8 ≤ ({ tc with cols := 0 } : Config).cols) := by decide
theorem witness_IllFormedConfigRefused_step : refuses (step { start with cfg := { tc with bsCodes := [0x01] } }) .illFormedConfig = true := by decide +kernel
theorem witness_IllegalStateRefused : configWf { start with escMode := true, csiMode := true }.cfg = true ∧ { start with curCol := 8 }.inRange = false ∧
    { start with skipCr := true, skipLf := true }.inRange = true ∧ { start with skipCr := true, skipLf := true }.invariants = false := by decide +kernel
theorem witness_StepKeepsInvariant : (oneByte 0x41).inv = true ∧ holds (step (oneByte 0x41)) (fun t => t.inv && chr t 0 0 == 0x41) = true := by decide +kernel
theorem witness_RunsKeepBlockInvariants : configWf tc = true ∧
    holds (Host.Core.run Sys2Proof.core 2 ({ State.resetOf tc with inputs := [.push 0x41, .logic] } : State)) (fun t => t.curCol == 1) = true := by decide +kernel
theorem witness_StepKeepsConfiguration : holds (step (oneByte 0x41)) (fun t => t.cfg == tc) = true := by decide +kernel
theorem witness_CarriageReturn : (at' 7 1).runnable = true ∧ (at' 7 1).skipCr = false ∧ (at' 7 1).curRow ≠ (at' 7 1).cfg.rows - 1 ∧
    { at' 7 1 with skipCr := true }.runnable = true := by decide +kernel
theorem witness_CarriageReturn_scroll : (at' 0 2).runnable = true ∧ (at' 0 2).skipCr = false ∧ (at' 0 2).curRow = (at' 0 2).cfg.rows - 1 ∧
    Store.wf (at' 0 2).cfg (at' 0 2).back = true := by decide +kernel
theorem witness_LineFeed : (at' 7 1).runnable = true ∧ (at' 7 1).skipLf = false ∧ (at' 7 1).curRow ≠ (at' 7 1).cfg.rows - 1 ∧
    { at' 7 1 with skipLf := true }.runnable = true := by decide +kernel
theorem witness_LineFeed_scroll : (at' 0 2).runnable = true ∧ (at' 0 2).skipLf = false ∧ (at' 0 2).curRow = (at' 0 2).cfg.rows - 1 ∧
    Store.wf (at' 0 2).cfg (at' 0 2).back = true := by decide +kernel
theorem witness_LineEndingPairsCountOnce : (at' 5 2).runnable = true ∧ (at' 5 2).skipCr = false ∧ (at' 5 2).skipLf = false := by decide +kernel
theorem witness_EscapeModes : { start with escMode := true }.runnable = true := by decide +kernel
theorem witness_CsiDigitAndSeparator : (typed start ⟨1, 2, 3, 0⟩ 3 4 true).runnable = true ∧ (typed start ⟨1, 2, 3, 0⟩ 3 4 true).pb.pcount < 4 ∧
    (typed start ⟨1, 2, 3, 4⟩ 4 5 true).runnable = true ∧ ¬(typed start ⟨1, 2, 3, 4⟩ 4 5 true).pb.pcount < 4 := by decide +kernel
theorem witness_CsiOperandsAssembled : { start with csiMode := true }.runnable = true ∧ { start with csiMode := true }.pb = ParseBuf.empty ∧
    ∀ f ∈ ([[9, 9, 9, 9, 9], []] : List (List (BitVec 4))), ∀ d ∈ f, digitOk d = true := by decide +kernel
theorem witness_CursorMoves : (typed (at' 7 2) ⟨0, 65535, 0, 0⟩ 2 0 false).runnable = true := by decide +kernel
theorem witness_SaveAndRestoreCursor : (typed (at' 2 1) ⟨0, 0, 0, 0⟩ 0 0 false).runnable = true ∧
    { typed (at' 2 1) ⟨0, 0, 0, 0⟩ 0 0 false with savedValid := true, savedCol := 7, savedRow := 2 }.runnable = true := by decide +kernel
theorem witness_SgrSelectsColours : (typed start ⟨30, 37, 40, 47⟩ 4 0 false).runnable = true := by decide +kernel
theorem witness_EraseDisplay : (typed (at' 3 1) ⟨0, 0, 0, 0⟩ 0 2 true).runnable = true ∧ (typed (at' 3 1) ⟨0, 0, 0, 0⟩ 0 2 true).operandCount = 1 ∧
    (typed (at' 3 1) ⟨0, 0, 0, 0⟩ 0 2 true).operand 0 = 2 ∧ Store.wf tc (at' 3 1).back = true := by decide +kernel
theorem witness_EraseDisplay_none : (typed start ⟨2, 0, 0, 0⟩ 1 0 true).runnable = true ∧
    ¬((typed start ⟨2, 0, 0, 0⟩ 1 0 true).operandCount = 1 ∧ (typed start ⟨2, 0, 0, 0⟩ 1 0 true).operand 0 = 2) := by decide +kernel
theorem witness_EraseLine : (typed (at' 7 2) ⟨0, 0, 0, 0⟩ 0 0 false).runnable = true ∧ Store.wf tc (at' 7 2).back = true := by decide +kernel
theorem witness_UnknownFinalDiscarded : (typed start ⟨7, 0, 0, 0⟩ 1 0 false).runnable = true := by decide +kernel
theorem witness_PrintWritesCell : (at' 6 2).runnable = true ∧ Store.wf tc (at' 6 2).back = true ∧ (at' 6 2).curCol + 1 < tc.cols := by decide +kernel
theorem witness_PrintWritesCell_wrap : (at' 7 1).runnable = true ∧ (at' 7 1).curCol + 1 = tc.cols ∧ (at' 7 1).curRow ≠ tc.rows - 1 := by decide +kernel
theorem witness_PrintWritesCell_scroll : (at' 7 2).runnable = true ∧ (at' 7 2).curCol + 1 = tc.cols ∧ (at' 7 2).curRow = tc.rows - 1 := by decide +kernel
theorem witness_BackspaceBlanks : (at' 0 2).runnable = true ∧ Store.wf tc (at' 0 2).back = true := by decide +kernel
theorem witness_PrintedRowWraps : (at' 0 1).runnable = true ∧ Store.wf tc (at' 0 1).back = true ∧ (at' 0 1).curCol = 0 ∧ (at' 0 1).curRow + 1 < tc.rows ∧
    (List.replicate 8 (0x41 : Byte)).length = tc.cols := by decide +kernel
theorem witness_MenuOpens : start.runnable = true ∧ start.canonical = true ∧
    (Instr.openTheme, MenuKind.theme) ∈ [(Instr.openFg, MenuKind.fgPick), (.openBg, .bgPick), (.openStyle, .style), (.openTheme, .theme)] := by decide +kernel
theorem witness_MenuCancels : { start with modal := some .bgPick }.runnable = true ∧ { start with modal := some .bgPick }.canonical = true ∧
    { start with modal := some MenuKind.bgPick }.modal = some .bgPick := by decide +kernel
theorem witness_OpenThenCancelRestores : (at' 7 0).runnable = true ∧ (at' 7 0).canonical = true ∧ (at' 7 0).modal = none ∧
    Instr.openStyle ∈ [Instr.openFg, .openBg, .openStyle, .openTheme] := by decide +kernel
theorem witness_PickDigitPicks : { start with modal := some .bgPick, mdigN := true, mdigV := 6 }.runnable = true ∧
    { start with modal := some .bgPick, mdigN := true, mdigV := 6 }.canonical = true ∧
    10 * (6 : BitVec 4).toNat + (3 : BitVec 4).toNat ≤ 63 ∧ 64 ≤ 10 * (6 : BitVec 4).toNat + (4 : BitVec 4).toNat ∧
    { start with modal := some .fgPick }.runnable = true ∧ { start with modal := some .fgPick }.mdigN = false := by decide +kernel
theorem witness_PickBackspaceAndIgnore : { start with modal := some .fgPick, mdigN := true, mdigV := 9 }.runnable = true ∧
    { start with modal := some .fgPick }.runnable = true ∧ { start with modal := some .fgPick }.mdigN = false := by decide +kernel
theorem witness_StyleSelected : { start with modal := some .style }.runnable = true ∧ { start with modal := some .style }.canonical = true ∧
    [CursorStyle.block, .underline, .bar, .custom, .shaded, .arrow][(5 : BitVec 4).toNat]? = some .arrow ∧ 6 ≤ (6 : BitVec 4).toNat := by decide +kernel
theorem witness_ThemeSelected : { start with modal := some .theme }.runnable = true ∧ { start with modal := some .theme }.canonical = true ∧
    tc.themes[(1 : BitVec 4).toNat]? = some (0x3C, 0x03) ∧ tc.themes.length ≤ (2 : BitVec 4).toNat := by decide +kernel
theorem witness_MenuHoldsTheTerminal : { oneByte 0x1B with modal := some .style }.modal ≠ none ∧ { oneByte 0x1B with modal := some .style }.rsu.rst = false ∧
    inGrid tc 0 3 ∧ Store.wf tc start.back = true ∧ { oneByte 0x1B with modal := some .style }.inputs.head? ≠ some (.rst true) ∧
    holds (step { oneByte 0x1B with modal := some .style }) (fun t => t.modal == none && !t.escMode) = true := by decide +kernel
theorem witness_SwapCopies : { start with swapReq := true }.runnable = true ∧ start.swapReq = false ∧ start.front = start.back := by decide +kernel
theorem witness_FrameStoreWriters_short : (heldState 1 2 [.rst false]).rsu.rst = true ∧ (heldState 1 2 [.rst false]).rsu.heldL < 2 := by decide +kernel
theorem witness_FrameStoreWriters : holds (step { start with
      back := Store.setChr tc ⟨[], []⟩ 0 0 0x41, swapReq := true, skFree := [1], inputs := [.render] }) (fun t => !(t.front == start.front)) = true ∧
    holds (step (oneByte 0x41)) (fun t => !(t.back == start.back)) = true := by decide +kernel
theorem witness_EditsArePublished : (oneByte 0x41).inputs = .logic :: [] ∧ holds (step (oneByte 0x41)) (fun t => !(t.back == start.back) && t.swapReq) = true ∧
    holds (step { oneByte 0x41 with cfg := { tc with swapOnByte := .forced } }) (fun t => !(t.back == start.back) && t.front == t.back) = true := by decide +kernel
theorem witness_DeferredFrameIsStable : tc.swapOnByte = .deferred ∧ tc.swapOnBlink = .deferred ∧
    holds (Host.Core.run Sys2Proof.core 2 ({ oneByte 0x41 with line := 11, skFree := [1], inputs := [.logic, .render] } : State)) (fun t => t.line == 0 && t.swapReq) = true ∧
    11 + ([Event.logic, .render].take 2).count .render ≤ tc.frameLines ∧ (oneByte 0x41).rsu.rst = false := by decide +kernel
theorem witness_OverlayNonDestructive : (at' 7 2).runnable = true ∧ Store.wf tc (at' 7 2).back = true := by decide +kernel
theorem witness_TickStep : { start with modal := some .fgPick }.runnable = true ∧ start.runnable = true ∧ start.blinkCnt + 1 < tc.blinkTicks ∧
    { start with blinkCnt := 1 }.runnable = true ∧ tc.blinkTicks ≤ { start with blinkCnt := 1 }.blinkCnt + 1 ∧ start.curVisible = false ∧ start.drawn = false ∧
    { start with blinkCnt := 1, curVisible := true, drawn := true }.runnable = true ∧ { start with blinkCnt := 1, curVisible := true }.runnable = true ∧
    { start with blinkCnt := 1, curVisible := true }.curVisible ≠ { start with blinkCnt := 1, curVisible := true }.drawn := by decide +kernel
theorem witness_BlinkPeriod : { start with blinkCnt := 1 }.runnable = true ∧ { start with blinkCnt := 1 }.modal = none := by decide +kernel
theorem witness_LineStep : start.runnable = true ∧ start.skFree = [] ∧ { start with line := 11, skFree := [15] }.runnable = true := by decide +kernel
theorem witness_ScanlineLayout : configWf tc = true ∧ 2 < 3 ∧ 31 < 4 * tc.cols := by decide +kernel
theorem witness_EncodedPixels : configWf tc = true ∧ 2 < 3 ∧ 31 < 4 * tc.cols := by decide +kernel
theorem witness_LineReadsOnlyFront : { start with line := 5, skFree := [1] }.runnable = true ∧ { at' 3 1 with line := 5, skFree := [2, 3] }.runnable = true ∧
    start.cfg = (at' 3 1).cfg ∧ start.front = (at' 3 1).front ∧ start.blinkPhase = (at' 3 1).blinkPhase ∧ (5 : Nat) ≠ 0 := by decide +kernel
theorem witness_RingPush : { start with ring := full }.runnable = true ∧ full.count = tc.ringN ∧
    { start with ring := { full with count := 3, head := 3 } }.runnable = true ∧ (3 : Nat) ≠ tc.ringN := by decide +kernel
theorem witness_RingPop : { start with ring := full }.runnable = true ∧ full.count ≠ 0 ∧ start.ring.count = 0 := by decide +kernel
theorem witness_RingIsQueue : { start with ring := full }.runnable = true ∧ full.linked tc.ringN = true := by decide +kernel
theorem witness_SameCyclePopThenPush : { start with ring := full, inputs := [.logicPush 0x65] }.inv = true ∧ logicRuns { start with ring := full, inputs := [.logicPush 0x65] } = true ∧
    { start with ring := full, inputs := [.logicPush 0x65] }.pendTick = false ∧ full.count = tc.ringN := by decide +kernel
/-- R139, R140: with a tick pending the turn is the TICK step, and the byte of the same cycle is pushed after it. -/
theorem witness_SameCyclePopThenPush_tick : { start with pendTick := true, inputs := [.logicPush 0x65] }.inv = true ∧
    holds (step { start with pendTick := true, inputs := [.logicPush 0x65] })
      (fun t => !t.pendTick && t.blinkCnt == 1 && t.ring.contents 4 == [0x65]) = true := by decide +kernel
theorem witness_SameCyclePopThenPush_reset : (heldState 1 0 [.logicPush 0x65]).inv = true ∧ portsRun (heldState 1 0 [.logicPush 0x65]) = false := by decide +kernel
theorem witness_TicksMerge : { start with inputs := [.tickPulse, .tickPulse] }.legal = true ∧ portsRun { start with inputs := [.tickPulse, .tickPulse] } = true := by decide +kernel
theorem witness_HostPorts : { start with inputs := [.push 0x41] }.legal = true ∧ portsRun start = true ∧ renderRuns { start with inputs := [.render] } = true ∧
    15 < 2 ^ tc.skw ∧ 2 ^ tc.skw ≤ 16 := by decide +kernel
theorem witness_ResetValuesHold : configWf tc = true ∧ { oneByte 0x41 with inputs := [.rst true] }.legal = true ∧ (oneByte 0x41).rsu.rst = false := by decide +kernel

/-- R158: released after two cycles of each clock, both agents may step once each has seen the other out of reset. -/
theorem test_release : holds (Host.Core.run Sys2Proof.core 9
      (heldState 2 2 [.rst false, .clkL, .clkR, .clkL, .clkR, .clkL, .clkR, .clkL, .clkR])) (fun t => logicRuns t && renderRuns t) = true := by decide +kernel
theorem witness_ResetValuesHold_held : (heldState 1 0 []).inv = true ∧ (heldState 1 0 []).rsu.rst = true := by decide +kernel
/-- 93 section 1: a reset held too short ends, and the block goes on. -/
theorem test_short_release : holds (step (heldState 2 1 [.rst false])) (fun t => !t.rsu.rst && t.rsu.short && t.cfg == tc) = true := by decide +kernel
/-- R158: the logic agent waits while the render domain is in reset. -/
theorem test_waits_for_partner : holds (step { oneByte 0x41 with rsu := { ResetUnit.released with relR := ⟨true, false⟩, peerL := ⟨false, false⟩ } })
    (fun t => t.ring.count == 1) = true := by decide +kernel
theorem witness_ResetSequencing_partner : { oneByte 0x41 with rsu := { ResetUnit.released with relR := ⟨true, false⟩, peerL := ⟨false, false⟩ } }.inv = true := by
  decide +kernel
theorem witness_ResetSequencing_release : (heldState 2 2 [.rst false]).legal = true ∧ (heldState 2 2 [.rst false]).rsu.rst = true ∧
    { start with inputs := [.clkL, .clkR, .clkL, .clkR, .clkL, .clkR, .clkL, .clkR, .logic] }.legal = true ∧ start.rsu.rst = false := by decide +kernel
theorem witness_ResetSequencing : (heldState 2 1 [.rst false]).legal = true ∧ (heldState 2 1 [.rst false]).rsu.heldR < 2 ∧
    holds (step (heldState 0 0 [.push 0x41])) (fun t => t.ring.count == 0) = true ∧ start.inv = true ∧ logicRuns start = true ∧ renderRuns start = true := by decide +kernel
theorem witness_MemReadElements : configWf start.cfg = true ∧ inGrid tc 2 7 ∧ ¬((1 : Nat) = 1 ∧ 24 < tc.rows * tc.cols) := by decide +kernel
theorem witness_MemWriteReadsBack : start.canonical = true ∧ Space.has tc .backPl 32 4 = true ∧ Space.has tc .backPl 33 4 = false ∧ Space.has tc .lut 2044 4 = true := by
  decide +kernel

end Sys2Proof.Machine.Tests
end

section
/-! PROOFS. Scope (00_scope.md): every instruction and every step refuses a configuration that breaks R7 (O10). -/

namespace Sys2Proof.Machine

variable {s : State} {cfg : Config}

/-- The bytes that R7 keeps apart from each other and from every backspace code. -/
def Config.reservedBytes (cfg : Config) : List Byte :=
  [Ascii.cr, Ascii.lf, Ascii.esc, cfg.mbFg, cfg.mbBg, cfg.mbStyle, cfg.mbTheme]

theorem config_reserved_distinct (h : configWf cfg = true) : (Config.reservedBytes cfg).Pairwise (· ≠ ·) := by
  simp only [configWf, Bool.and_eq_true, decide_eq_true_eq] at h
  unfold Config.reservedBytes
  tauto

theorem config_reserved_not_bs (h : configWf cfg = true) : ∀ b ∈ Config.reservedBytes cfg, b ∉ cfg.bsCodes := by
  simp only [configWf, Config.isBs, Bool.and_eq_true, Bool.not_eq_true', List.contains_eq_mem, decide_eq_false_iff_not] at h
  simp only [Config.reservedBytes, List.forall_mem_cons]
  tauto

/-- R7's disjoint byte classes: each reserved byte alone, and the backspace codes together. -/
theorem config_classes_disjoint (h : configWf cfg = true) :
    ([[0x0D], [0x0A], [0x1B], cfg.bsCodes, [cfg.mbFg], [cfg.mbBg], [cfg.mbStyle], [cfg.mbTheme]] : List (List Byte)).Pairwise
      List.Disjoint := by
  have hreserved : ((Config.reservedBytes cfg).map fun b => [b]).Pairwise List.Disjoint := by
    rw [List.pairwise_map]
    exact (config_reserved_distinct h).imp fun hne => by simpa using hne.symm
  have hbs : ∀ l ∈ (Config.reservedBytes cfg).map (fun b => [b]), List.Disjoint cfg.bsCodes l := by
    simpa using config_reserved_not_bs h
  exact (List.pairwise_middle (l₁ := [[0x0D], [0x0A], [0x1B]]) List.Disjoint.symm).mpr (List.pairwise_cons.mpr ⟨hbs, hreserved⟩)

theorem config_themes_le (h : configWf cfg = true) : cfg.themes.length ≤ 10 := by
  simp only [configWf, Bool.and_eq_true, decide_eq_true_eq] at h
  tauto

/-- Every instruction is some meaning under the guard `run`, the same one in every state. -/
theorem exec_eq_run (i : Instr) : ∃ f : State → State, ∀ s, exec i s = run f s := by
  cases i <;> exact ⟨_, fun _ => rfl⟩

theorem run_illFormed {f : State → State} (h : ¬configWf s.cfg = true) : run f s = .refused .illFormedConfig := if_neg h

theorem exec_illFormed (i : Instr) (h : ¬configWf s.cfg = true) : exec i s = .refused .illFormedConfig := by
  obtain ⟨f, hf⟩ := exec_eq_run i
  rw [hf, run_illFormed h]

theorem step_illFormed (h : ¬configWf s.cfg = true) : step s = .refused .illFormedConfig := if_neg h

/-- Settles O10: a configuration that `configWf` accepts meets every condition of R7, and all others are refused. -/
theorem illFormedConfigRefused : Obligations.IllFormedConfigRefused := by
  unfold Obligations.IllFormedConfigRefused
  intro i s hbad
  have hill : ¬configWf s.cfg = true := by
    intro hc
    obtain ⟨hcols, hrows, hglyph, hlines, hblink, hring⟩ := config_pos hc
    have hmenus : ∀ k, (s.cfg.menu k).x0 + (s.cfg.menu k).w ≤ s.cfg.cols ∧ (s.cfg.menu k).y0 + (s.cfg.menu k).h ≤ s.cfg.rows := by
      intro k
      obtain ⟨hx, hy, -⟩ := config_menu hc k
      exact ⟨hx, hy⟩
    exact hbad ⟨hcols, config_cols8 hc, hrows, hglyph, hlines, config_classes_disjoint hc, hmenus, hblink, hring, config_themes_le hc⟩
  exact ⟨exec_illFormed i hill, step_illFormed hill⟩

end Sys2Proof.Machine
end

section
/-! PROOFS. Scope (00_scope.md): what MemWrite does to one element of one store and leaves of all else (O60). A store's
memory is named by its space; MemRead and MemWrite are then one element read and one element write of that memory. -/

namespace Sys2Proof.Machine

variable {s : State} {sp sp' : Space} {cfg : Config} {d : Nat → Byte} {m : Memory} {a a' n : Nat} {v : Word}

/-- The element of `n` bytes at `a`, zero-extended: a plane word, else a byte (R45, R46). -/
def Memory.readElement (d : Nat → Byte) (n : Nat) (m : Memory) (a : Nat) : Word :=
  if n = 4 then Memory.getWord d m a else (Memory.get d m a).setWidth 32

/-- The element of `n` bytes at `a` replaced: a plane word, else a byte (R45, R46). -/
def Memory.writeElement (d : Nat → Byte) (n : Nat) (m : Memory) (a : Nat) (v : Word) : Memory :=
  if n = 4 then Memory.setWord d m a v else Memory.set d m a (v.setWidth 8)

/-- The memory of a store; the two ROMs are configuration and have none. -/
def State.memory (s : State) : Space → Memory
  | .backChr => s.back.chr
  | .backPl => s.back.pl
  | .frontChr => s.front.chr
  | .frontPl => s.front.pl
  | .snap => s.snap
  | .font | .lut => []

/-- A store's memory replaced, which for B sets the step-local flag (R29). -/
def State.withMemory (s : State) (sp : Space) (m : Memory) : State :=
  match sp with
  | .backChr => s.putBack { s.back with chr := m }
  | .backPl => s.putBack { s.back with pl := m }
  | .frontChr => { s with front := { s.front with chr := m } }
  | .frontPl => { s with front := { s.front with pl := m } }
  | .snap => { s with snap := m }
  | .font | .lut => s

/-- The state that a write of an element leaves. -/
def State.poke (s : State) (sp : Space) (a n : Nat) (v : Word) : State :=
  s.withMemory sp (Memory.writeElement (unlisted s.cfg sp) n (s.memory sp) a v)

@[simp] theorem withMemory_cfg : (s.withMemory sp m).cfg = s.cfg := by cases sp <;> rfl

@[simp] theorem poke_cfg : (s.poke sp a n v).cfg = s.cfg := withMemory_cfg

theorem memory_withMemory_same (hf : sp ≠ .font) (hl : sp ≠ .lut) : (s.withMemory sp m).memory sp = m := by
  cases sp with
  | font => exact absurd rfl hf
  | lut => exact absurd rfl hl
  | _ => rfl

theorem memory_withMemory_other (h : sp' ≠ sp) : (s.withMemory sp m).memory sp' = s.memory sp' := by
  cases sp <;> cases sp' <;> first | rfl | exact absurd rfl h

/-- All that a store's memory replaced changes: that store and, for B, the step-local flag. -/
theorem withMemory_frame {t : State} (ht : t = s.withMemory sp m) :
    t = { s with
      back := { chr := if sp = .backChr then t.back.chr else s.back.chr, pl := if sp = .backPl then t.back.pl else s.back.pl }
      front := { chr := if sp = .frontChr then t.front.chr else s.front.chr, pl := if sp = .frontPl then t.front.pl else s.front.pl }
      snap := if sp = .snap then t.snap else s.snap
      wrote := s.wrote || decide (sp = .backChr ∨ sp = .backPl) } := by
  subst ht
  cases sp <;> simp [State.withMemory, State.putBack]

/-- The canonical form of the state is that of every store's memory. -/
theorem canonical_iff : s.canonical = true ↔ ∀ sp, Memory.wf (unlisted s.cfg sp) (sp.size s.cfg) (s.memory sp) = true := by
  simp only [State.canonical, Bool.and_eq_true, Store.wf_iff]
  constructor
  · rintro ⟨⟨⟨hbc, hbp⟩, hfc, hfp⟩, hs⟩ sp
    cases sp with
    | backChr => exact hbc
    | backPl => exact hbp
    | frontChr => exact hfc
    | frontPl => exact hfp
    | snap => exact hs
    | font => exact Memory.wf_nil
    | lut => exact Memory.wf_nil
  · intro h
    exact ⟨⟨⟨h .backChr, h .backPl⟩, h .frontChr, h .frontPl⟩, h .snap⟩

/-- R45's map has bytes and aligned words, and a word lies in its store whole. -/
theorem has_cases (h : sp.has cfg a n = true) :
    (n = 1 ∧ sp.width = 1 ∧ a < sp.size cfg) ∨ (n = 4 ∧ sp.width = 4 ∧ a % 4 = 0 ∧ a + 3 < sp.size cfg) := by
  simp only [Space.has, Bool.and_eq_true, decide_eq_true_eq] at h
  obtain ⟨⟨hn, hal⟩, hlt⟩ := h
  have hsize : sp.width = 1 ∨ sp.width = 4 ∧ sp.size cfg % 4 = 0 := by
    cases sp <;> simp only [Space.width, Space.size] <;> grind
  rcases hsize with hw | ⟨hw, hmul⟩
  · exact .inl ⟨by omega, hw, hlt⟩
  · rw [hw] at hal
    exact .inr ⟨by omega, hw, hal, by omega⟩

theorem wf_writeElement (hm : Memory.wf d (sp.size cfg) m = true) (h : sp.has cfg a n = true) :
    Memory.wf d (sp.size cfg) (Memory.writeElement d n m a v) = true := by
  rcases has_cases h with ⟨rfl, -, ha⟩ | ⟨rfl, -, -, ha⟩
  · exact Memory.wf_set hm ha
  · exact Memory.wf_setWord hm ha

theorem readElement_writeElement_same (hm : Memory.wf d (sp.size cfg) m = true) (h : sp.has cfg a n = true) :
    Memory.readElement d n (Memory.writeElement d n m a v) a = if n = 4 then v else (v.setWidth 8).setWidth 32 := by
  rcases has_cases h with ⟨rfl, -, -⟩ | ⟨rfl, -, -, ha⟩
  · simp [Memory.readElement, Memory.writeElement, Memory.get_set hm]
  · exact Memory.getWord_setWord_same hm ha

theorem readElement_writeElement_other (hm : Memory.wf d (sp.size cfg) m = true) (h : sp.has cfg a n = true)
    (h' : sp.has cfg a' n = true) (hne : a' ≠ a) :
    Memory.readElement d n (Memory.writeElement d n m a v) a' = Memory.readElement d n m a' := by
  rcases has_cases h with ⟨rfl, -, -⟩ | ⟨rfl, hw, hal, ha⟩
  · simp [Memory.readElement, Memory.writeElement, Memory.get_set hm, hne]
  · have hal' : a' % 4 = 0 := by
      rcases has_cases h' with ⟨h4, -⟩ | ⟨-, -, hal', -⟩
      · cases h4
      · exact hal'
    exact Memory.getWord_setWord_other hm ha (by omega)

/-- MemRead where R45's map has an element of a store. -/
theorem memRead_eq (hf : sp ≠ .font) (hl : sp ≠ .lut) (h : sp.has s.cfg a n = true) :
    memRead s sp a n = .ok (Memory.readElement (unlisted s.cfg sp) n (s.memory sp) a) := by
  unfold memRead
  rw [if_pos h]
  obtain rfl : n = sp.width := by rcases has_cases h with ⟨hn, hw, -⟩ | ⟨hn, hw, -⟩ <;> omega
  cases sp with
  | font => exact absurd rfl hf
  | lut => exact absurd rfl hl
  | _ => rfl

theorem memRead_outside (h : ¬sp.has s.cfg a n = true) : memRead s sp a n = .error (.noSuchAddress sp a) := if_neg h

/-- MemWrite where R45's map has an element of a store. -/
theorem memWrite_eq (hf : sp ≠ .font) (hl : sp ≠ .lut) (h : sp.has s.cfg a n = true) : memWrite s sp a n v = .ok (s.poke sp a n v) := by
  unfold memWrite
  rw [if_pos h]
  obtain rfl : n = sp.width := by rcases has_cases h with ⟨hn, hw, -⟩ | ⟨hn, hw, -⟩ <;> omega
  cases sp with
  | font => exact absurd rfl hf
  | lut => exact absurd rfl hl
  | _ => rfl

theorem memWrite_rom (h : sp.has s.cfg a n = true) (hrom : sp = .font ∨ sp = .lut) : memWrite s sp a n v = .error (.readOnlyStore sp) := by
  unfold memWrite
  rw [if_pos h]
  rcases hrom with rfl | rfl <;> rfl

theorem poke_canonical (hc : s.canonical = true) (h : sp.has s.cfg a n = true) : (s.poke sp a n v).canonical = true := by
  rw [canonical_iff] at hc ⊢
  intro sp'
  rw [poke_cfg]
  by_cases hsp : sp' = sp
  · subst hsp
    by_cases hrom : sp' = .font ∨ sp' = .lut
    · rcases hrom with rfl | rfl <;> exact Memory.wf_nil
    · rw [not_or] at hrom
      rw [State.poke, memory_withMemory_same hrom.1 hrom.2]
      exact wf_writeElement (hc sp') h
  · rw [State.poke, memory_withMemory_other hsp]
    exact hc sp'

theorem memRead_poke_same (hf : sp ≠ .font) (hl : sp ≠ .lut) (hc : s.canonical = true) (h : sp.has s.cfg a n = true) :
    memRead (s.poke sp a n v) sp a n = .ok (if n = 4 then v else (v.setWidth 8).setWidth 32) := by
  rw [memRead_eq hf hl (by rwa [poke_cfg]), poke_cfg, State.poke, memory_withMemory_same hf hl,
    readElement_writeElement_same (canonical_iff.mp hc sp) h]

theorem memRead_poke_other (hf : sp ≠ .font) (hl : sp ≠ .lut) (hc : s.canonical = true) (h : sp.has s.cfg a n = true) (hne : a' ≠ a) :
    memRead (s.poke sp a n v) sp a' n = memRead s sp a' n := by
  by_cases h' : sp.has s.cfg a' n = true
  · rw [memRead_eq hf hl (by rwa [poke_cfg]), memRead_eq hf hl h', poke_cfg, State.poke, memory_withMemory_same hf hl,
      readElement_writeElement_other (canonical_iff.mp hc sp) h h' hne]
  · rw [memRead_outside (by rwa [poke_cfg]), memRead_outside h']

/-- Settles O60: a write is one element write of one store's memory, by the laws of the canonical memory. -/
theorem memWriteReadsBack : Obligations.MemWriteReadsBack := by
  unfold Obligations.MemWriteReadsBack
  intro s sp a n v hc h
  refine ⟨memWrite_rom h, fun hf hl => ⟨s.poke sp a n v, memWrite_eq hf hl h, poke_canonical hc h, memRead_poke_same hf hl hc h, ?_, ?_⟩⟩
  · exact fun a' hne => memRead_poke_other hf hl hc h hne
  · exact withMemory_frame rfl

end Sys2Proof.Machine
end

section
/-! PROOFS. State (10_state.md): the invariant of the block in parts, cut by which steps write what they speak of. -/

namespace Sys2Proof.Machine

variable {s : State}

/-- The part of the invariant over what a byte class may write: R32 (1) to (6) and (10), the saved cursor,
the parameter count and the menu digit at legal values, B and SNAP canonical. -/
structure TerminalOk (s : State) : Prop where
  config : configWf s.cfg = true
  cursor : inGrid s.cfg s.curRow s.curCol
  saved : inGrid s.cfg s.savedRow s.savedCol
  oneMode : (s.escMode && s.csiMode) = false
  operands : s.pb.pcount ≤ 4
  outsideCsi : s.csiMode = false → s.pb.pcount = 0 ∧ s.pb.acc = 0 ∧ s.pb.dpend = false
  pending : s.pb.dpend = false → s.pb.acc = 0
  oneSkip : (s.skipCr && s.skipLf) = false
  menuModes : s.modal ≠ none → s.escMode = false ∧ s.csiMode = false
  digit : s.mdigV.toNat ≤ 9
  digitHeld : s.modal = some .fgPick ∨ s.modal = some .bgPick ∨ s.mdigN = false
  back : Store.wf s.cfg s.back = true
  snap : Memory.wf (unlisted s.cfg .snap) (Space.size s.cfg .snap) s.snap = true

/-- The part over the cursor overlay and its blink: R32 (7), (8) and (9), and its record inside the grid. -/
structure OverlayOk (s : State) : Prop where
  blink : s.blinkCnt < s.cfg.blinkTicks
  place : inGrid s.cfg s.ovRow s.ovCol
  shown : s.drawn = (s.curVisible && s.modal.isNone)
  atCursor : s.drawn = true → s.ovCol = s.curCol ∧ s.ovRow = s.curRow ∧
    Store.chrAt s.cfg s.back s.curRow s.curCol = glyphOf s.cfg s.style ∧ Store.fgOf s.cfg s.back s.curRow s.curCol = s.curFg

/-- The part over all that a logic step may write: with the above, F canonical and the ring in order (R135, R139). -/
structure LogicOk (s : State) : Prop where
  terminal : TerminalOk s
  overlay : OverlayOk s
  front : Store.wf s.cfg s.front = true
  range : s.ring.inRange s.cfg.ringN = true
  linked : s.ring.linked s.cfg.ringN = true

/-- The part over the render agent and the sink: one buffer submitted per line counted since a reset held long enough. -/
structure RenderOk (s : State) : Prop where
  line : s.line < s.cfg.frameLines
  idle : s.hs = Handshake.idle
  unowned : s.owned = none
  counted : s.rsu.short = true ∨ s.submitted.length % s.cfg.frameLines = s.line

/-- The part over the reset unit and the values held in reset (R157, R158). -/
structure ResetOk (s : State) : Prop where
  ordered : s.rsu.ordered = true
  held : s.heldInReset = true

/-- No step-local value is left over (R29). -/
structure LocalClear (s : State) : Prop where
  wrote : s.wrote = false
  popped : s.popped = none

/-- The invariant is its parts. -/
theorem inv_iff : s.inv = true ↔ LogicOk s ∧ RenderOk s ∧ ResetOk s ∧ LocalClear s := by
  simp only [State.inv, State.canonical, Bool.and_eq_true, Bool.or_eq_true, Bool.not_eq_true', decide_eq_true_eq,
    Option.isNone_iff_eq_none, legal_iff, inRange_iff, invariants_iff]
  constructor
  · rintro ⟨⟨⟨⟨⟨⟨⟨⟨hc, ⟨hcol, hrow, hmode, hscol, hsrow, hp, hblink, hocol, horow, hdig, hline, hhs, hring, hown⟩,
      -, hcsi, hpend, hskip, hmenu, hshown, hat, hheld⟩, ⟨hback, hfront⟩, hsnap⟩, hlink⟩, hcount⟩, hwrote⟩, hpop⟩, hord⟩, hres⟩
    have hterm : TerminalOk s := ⟨hc, ⟨hrow, hcol⟩, ⟨hsrow, hscol⟩, hmode, hp, hcsi, hpend, hskip,
      fun h => (hmenu h).imp_right And.left, hdig, hheld, hback, hsnap⟩
    exact ⟨⟨hterm, ⟨hblink, ⟨horow, hocol⟩, hshown, hat⟩, hfront, hring, hlink⟩, ⟨hline, hhs, hown, hcount⟩, ⟨hord, hres⟩,
      ⟨hwrote, hpop⟩⟩
  · rintro ⟨⟨term, ov, hfront, hring, hlink⟩, ren, res, loc⟩
    have hundrawn : s.modal ≠ none → s.drawn = false := fun h => by
      rw [ov.shown, Option.isNone_eq_false_iff.mpr (Option.isSome_iff_ne_none.mpr h), Bool.and_false]
    exact ⟨⟨⟨⟨⟨⟨⟨⟨term.config, ⟨term.cursor.2, term.cursor.1, term.oneMode, term.saved.2, term.saved.1, term.operands, ov.blink,
      ov.place.2, ov.place.1, term.digit, ren.line, ren.idle, hring, ren.unowned⟩, term.oneMode, term.outsideCsi, term.pending,
      term.oneSkip, fun h => ⟨(term.menuModes h).1, (term.menuModes h).2, hundrawn h⟩, ov.shown, ov.atCursor, term.digitHeld⟩,
      ⟨term.back, hfront⟩, term.snap⟩, hlink⟩, ren.counted⟩, loc.wrote⟩, loc.popped⟩, res.ordered⟩, res.held⟩

theorem TerminalOk.withColours (h : TerminalOk s) (fg bg : Colour) : TerminalOk { s with curFg := fg, curBg := bg } := { h with }

end Sys2Proof.Machine
end

section
/-! PROOFS. State (10_state.md): every byte class keeps the terminal's part of the invariant. -/

namespace Sys2Proof.Machine

variable {s t : State} {cfg : Config}

/-! The shared operations. -/

theorem setCell_terminalOk (h : TerminalOk s) {r c : Nat} (hi : inGrid s.cfg r c) (ch : Byte) (fg bg : Colour) :
    TerminalOk (setCell r c ch fg bg s) :=
  { h with back := (Store.setCell_spec h.back (config_cols8 h.config) hi.1 hi.2).1 }

theorem setFg_terminalOk (h : TerminalOk s) {r c : Nat} (hi : inGrid s.cfg r c) (ch : Byte) (fg : Colour) :
    TerminalOk (setFg r c ch fg s) :=
  { h with back := (Store.setFg_spec h.back (config_cols8 h.config) hi.1 hi.2).1 }

theorem blankSpan_terminalOk (h : TerminalOk s) {r c0 n : Nat} (hr : r < s.cfg.rows) (hn : c0 + n ≤ s.cfg.cols) :
    TerminalOk (blankSpan r c0 n s) := by
  obtain ⟨bk, heq, hedit⟩ := blankSpan_spec h.back (config_cols8 h.config) hr hn
  rw [heq]
  exact { h with back := hedit.canonical }

theorem blankGrid_terminalOk (h : TerminalOk s) : TerminalOk (blankGrid s) := by
  obtain ⟨bk, heq, hedit⟩ := blankGrid_spec h.back h.config
  rw [heq]
  exact { h with back := hedit.canonical }

theorem setCursor_terminalOk (h : TerminalOk s) {col row : Nat} (hi : inGrid s.cfg row col) : TerminalOk (s.setCursor col row) :=
  { h with cursor := hi }

theorem lineBreak_terminalOk (h : TerminalOk s) : TerminalOk (lineBreak s) := by
  obtain ⟨hrow, hcol⟩ := h.cursor
  by_cases hlast : s.curRow = s.cfg.rows - 1
  · obtain ⟨bk, heq, hedit⟩ := lineBreak_last h.back h.config hlast
    rw [heq]
    exact { h with cursor := ⟨hrow, Nat.zero_lt_of_lt hcol⟩, back := hedit.canonical }
  · rw [lineBreak_above hlast]
    exact { h with cursor := ⟨show s.curRow + 1 < s.cfg.rows by omega, Nat.zero_lt_of_lt hcol⟩ }

theorem clearSkips_terminalOk (h : TerminalOk s) : TerminalOk (clearSkips s) := { h with oneSkip := rfl }

theorem skipRule_terminalOk (h : TerminalOk s) (i : Instr) : TerminalOk (skipRule i s) := by
  cases i with
  | cr | lf => exact h
  | _ => exact clearSkips_terminalOk h

theorem exitModal_terminalOk (h : TerminalOk s) : TerminalOk (exitModal s) := by
  cases hm : s.modal with
  | none =>
    rw [exitModal_none hm]
    exact { h with digit := Nat.zero_le 9, digitHeld := .inr (.inr rfl) }
  | some k =>
    obtain ⟨bk, heq, hedit⟩ := exitModal_spec hm h.back h.config
    rw [heq]
    exact { h with
      menuModes := fun hne => absurd rfl hne, digit := Nat.zero_le 9, digitHeld := .inr (.inr rfl), back := hedit.canonical }

/-! Parser. -/

theorem crRule_terminalOk (h : TerminalOk s) : TerminalOk (crRule s) := by
  unfold crRule
  split
  · exact clearSkips_terminalOk h
  · exact { lineBreak_terminalOk h with oneSkip := rfl }

theorem lfRule_terminalOk (h : TerminalOk s) : TerminalOk (lfRule s) := by
  unfold lfRule
  split
  · exact clearSkips_terminalOk h
  · exact { lineBreak_terminalOk h with oneSkip := rfl }

/-- A parser mode entered outside every menu with an empty buffer. -/
theorem enterMode_terminalOk (h : TerminalOk s) (hm : s.modal = none) {esc csi : Bool} (hone : (esc && csi) = false) :
    TerminalOk (pbReset (setModes esc csi s)) :=
  { h with
    oneMode := hone, operands := Nat.zero_le 4, outsideCsi := fun _ => ⟨rfl, rfl, rfl⟩, pending := fun _ => rfl
    menuModes := fun hne => absurd hm hne }

theorem escAbortRule_terminalOk (h : TerminalOk s) : TerminalOk (escAbortRule s) :=
  { h with oneMode := rfl, menuModes := fun hne => ⟨rfl, (h.menuModes hne).2⟩ }

theorem csiDigitRule_terminalOk (h : TerminalOk s) (hcsi : s.csiMode = true) (d : BitVec 4) : TerminalOk (csiDigitRule d s) :=
  { h with outsideCsi := fun hn => absurd hn (by simp [csiDigitRule, hcsi]), pending := fun hn => nomatch hn }

/-- A parameter finished in CSI mode (R76). -/
theorem finalize_terminalOk (h : TerminalOk s) (hcsi : s.csiMode = true) : TerminalOk { s with pb := s.pb.finalize } where
  __ := h
  operands := by
    rw [ParseBuf.finalize_eq]
    have := h.operands
    dsimp only
    split <;> omega
  outsideCsi := fun hn => absurd hn (by simp [hcsi])
  pending := fun _ => by rw [ParseBuf.finalize_eq]

/-- Digits are pending in CSI mode only (R32). -/
theorem TerminalOk.csiMode_of_dpend (h : TerminalOk s) (hd : s.pb.dpend = true) : s.csiMode = true := by
  by_contra hcsi
  have hnone := (h.outsideCsi (Bool.not_eq_true _ ▸ hcsi)).2.2
  rw [hd] at hnone
  cases hnone

/-! CSI commands. -/

/-- Every final byte keeps what its own rule keeps: R78's frame empties the buffer and leaves CSI mode. -/
theorem csiFinal_terminalOk (h : TerminalOk s) {f : State → State} (hf : ∀ u, TerminalOk u → TerminalOk (f u)) :
    TerminalOk (csiFinal f s) := by
  have hfinal : TerminalOk { s with pb := s.pb.final } := by
    unfold ParseBuf.final
    split
    · exact finalize_terminalOk h (h.csiMode_of_dpend (by assumption))
    · exact h
  have hrule := hf _ hfinal
  exact { hrule with
    oneMode := Bool.and_false _, operands := Nat.zero_le 4, outsideCsi := fun _ => ⟨rfl, rfl, rfl⟩, pending := fun _ => rfl
    menuModes := fun hne => ⟨(hrule.menuModes hne).1, rfl⟩ }

theorem clamp_lt {v : Int} {n : Nat} (hn : 1 ≤ n) : clamp v 0 ((n : Int) - 1) < n := by unfold clamp; omega

theorem cuuRule_terminalOk (h : TerminalOk s) : TerminalOk (cuuRule s) := by
  obtain ⟨hrow, hcol⟩ := h.cursor
  exact { h with cursor := ⟨by simp only [cuuRule]; omega, hcol⟩ }

theorem cudRule_terminalOk (h : TerminalOk s) : TerminalOk (cudRule s) := by
  obtain ⟨hrow, hcol⟩ := h.cursor
  exact { h with cursor := ⟨by simp only [cudRule]; omega, hcol⟩ }

theorem cufRule_terminalOk (h : TerminalOk s) : TerminalOk (cufRule s) := by
  obtain ⟨hrow, hcol⟩ := h.cursor
  exact { h with cursor := ⟨hrow, by simp only [cufRule]; omega⟩ }

theorem cubRule_terminalOk (h : TerminalOk s) : TerminalOk (cubRule s) := by
  obtain ⟨hrow, hcol⟩ := h.cursor
  exact { h with cursor := ⟨hrow, by simp only [cubRule]; omega⟩ }

theorem cupRule_terminalOk (h : TerminalOk s) : TerminalOk (cupRule s) := by
  obtain ⟨hcols, hrows, -⟩ := config_pos h.config
  exact { h with cursor := ⟨clamp_lt hrows, clamp_lt (by omega)⟩ }

theorem edRule_terminalOk (h : TerminalOk s) : TerminalOk (edRule s) := by
  unfold edRule
  split
  · have hgrid := blankGrid_terminalOk h
    obtain ⟨hcols, hrows, -⟩ := config_pos hgrid.config
    exact setCursor_terminalOk hgrid ⟨by omega, by omega⟩
  · exact h

theorem elRule_terminalOk (h : TerminalOk s) : TerminalOk (elRule s) := by
  obtain ⟨hrow, hcol⟩ := h.cursor
  exact blankSpan_terminalOk h hrow (by omega)

theorem sgrParam_terminalOk (h : TerminalOk s) (v : Nat) : TerminalOk (sgrParam v s) := by
  unfold sgrParam
  split_ifs
  · exact h.withColours _ _
  · exact h.withColours _ _
  · exact h.withColours _ _
  · exact h

theorem sgrRule_terminalOk (h : TerminalOk s) : TerminalOk (sgrRule s) :=
  loop_keeps TerminalOk _ _ s h fun _ _ _ hu => sgrParam_terminalOk hu _

theorem scpRule_terminalOk (h : TerminalOk s) : TerminalOk (scpRule s) := { h with saved := h.cursor }

theorem rcpRule_terminalOk (h : TerminalOk s) : TerminalOk (rcpRule s) := by
  unfold rcpRule
  split
  · exact setCursor_terminalOk h h.saved
  · exact h

/-! Text editing. -/

theorem bsRule_terminalOk (h : TerminalOk s) : TerminalOk (bsRule s) := by
  obtain ⟨hrow, hcol⟩ := h.cursor
  have hleft : inGrid s.cfg s.curRow (s.curCol - 1) := ⟨hrow, by omega⟩
  exact setCell_terminalOk (s := { s with curCol := s.curCol - 1 }) { h with cursor := hleft } hleft _ _ _

/-- A printed byte may set `skip_cr` at the last column, and finds `skip_lf` cleared (R69, R90). -/
theorem printRule_terminalOk (h : TerminalOk s) (hskip : s.skipLf = false) (b : Byte) : TerminalOk (printRule b s) := by
  have hcell := setCell_terminalOk h h.cursor b s.curFg s.curBg
  unfold printRule
  dsimp only
  split
  · refine { lineBreak_terminalOk hcell with oneSkip := ?_ }
    obtain ⟨bk, w, row, heq⟩ := lineBreak_frame (setCell s.curRow s.curCol b s.curFg s.curBg s)
    rw [heq]
    exact (congrArg _ hskip).trans (Bool.and_false _)
  · obtain ⟨hrow, hcol⟩ := h.cursor
    exact { hcell with cursor := ⟨hrow, show s.curCol + 1 < s.cfg.cols by omega⟩ }

/-! Menus. -/

theorem openModal_terminalOk (h : TerminalOk s) (hesc : s.escMode = false) (hcsi : s.csiMode = false) (k : MenuKind) :
    TerminalOk (openModal k s) := by
  obtain ⟨bk, sn, heq, hsnap, -, -, hedit⟩ := openModal_spec k h.back h.config h.snap
  rw [heq]
  exact { h with
    menuModes := fun _ => ⟨hesc, hcsi⟩, digit := Nat.zero_le 9, digitHeld := .inr (.inr rfl), back := hedit.canonical, snap := hsnap }

theorem pickColour_terminalOk (h : TerminalOk s) (v : Colour) : TerminalOk (pickColour v s) := by
  unfold pickColour
  split
  · exact h.withColours _ _
  · exact h.withColours _ _

theorem pickDigitRule_terminalOk (h : TerminalOk s) {d : BitVec 4} (hm : s.modal = some .fgPick ∨ s.modal = some .bgPick)
    (hd : d.toNat ≤ 9) : TerminalOk (pickDigitRule d s) := by
  unfold pickDigitRule
  split_ifs
  · exact exitModal_terminalOk (pickColour_terminalOk h _)
  · exact h
  · exact { h with digit := hd, digitHeld := hm.imp_right .inl }

theorem pickBsRule_terminalOk (h : TerminalOk s) : TerminalOk (pickBsRule s) := by
  unfold pickBsRule
  split
  · exact { h with digit := Nat.zero_le 9, digitHeld := .inr (.inr rfl) }
  · exact h

theorem styleRule_terminalOk (h : TerminalOk s) (d : BitVec 4) : TerminalOk (styleRule d s) := by
  unfold styleRule
  split
  · exact exitModal_terminalOk { h with }
  · exact h

theorem themeRule_terminalOk (h : TerminalOk s) (d : BitVec 4) : TerminalOk (themeRule d s) := by
  unfold themeRule
  split
  · exact exitModal_terminalOk (h.withColours _ _)
  · exact h

/-! The class of a byte in its mode. -/

theorem mode_eq_menu_iff {k : MenuKind} : s.mode = .menu k ↔ s.modal = some k := by
  unfold State.mode
  split
  · simp [*]
  · split_ifs <;> simp [*]

theorem mode_eq_normal_iff : s.mode = .normal ↔ s.modal = none ∧ s.escMode = false ∧ s.csiMode = false := by
  unfold State.mode
  split
  · simp [*]
  · split_ifs <;> simp [*]

theorem mode_eq_esc_iff : s.mode = .esc ↔ s.modal = none ∧ s.escMode = true := by
  unfold State.mode
  split
  · simp [*]
  · split_ifs <;> simp [*]

theorem mode_eq_csi_iff : s.mode = .csi ↔ s.modal = none ∧ s.escMode = false ∧ s.csiMode = true := by
  unfold State.mode
  split
  · simp [*]
  · split_ifs <;> simp [*]

theorem digitOk_digitOf {b : Byte} (h : isDigit b = true) : digitOk (digitOf b) = true := by
  simp only [isDigit, digitOk, digitOf, decide_eq_true_eq, BitVec.toNat_setWidth] at h ⊢
  omega

theorem isEarly_eq_false_iff {b : Byte} : isEarly b = false ↔ b ≠ Ascii.cr ∧ b ≠ Ascii.lf ∧ b ≠ Ascii.esc := by
  simp only [isEarly, Bool.or_eq_false_iff, beq_eq_false_iff_ne, and_assoc]

/-- Steps 1 and 2 of R60, and what comes after them for any other byte. -/
theorem earlyFirst_wfIn {b : Byte} {m : Mode} {i : Instr} (hm : m = .normal ∨ m = .esc ∨ m = .csi)
    (hi : isEarly b = false → i.wfIn cfg m = true) :
    (if b = Ascii.cr then Instr.cr else if b = Ascii.lf then .lf else if b = Ascii.esc then .escEntry else i).wfIn cfg m = true := by
  have hearly : (m == .normal || m == .esc || m == .csi) = true := by rcases hm with rfl | rfl | rfl <;> rfl
  split_ifs with hcr hlf hesc
  · exact hearly
  · exact hearly
  · exact hearly
  · exact hi (isEarly_eq_false_iff.mpr ⟨hcr, hlf, hesc⟩)

theorem decodeNormal_wfIn {b : Byte} (hb : isEarly b = false) : (decodeNormal cfg b).wfIn cfg .normal = true := by
  unfold decodeNormal
  split_ifs with hfg hbg hstyle htheme hbs
  · rfl
  · rfl
  · rfl
  · rfl
  · exact hbs
  · simp [Instr.wfIn, printable, Config.isEntry, hb, hfg, hbg, hstyle, htheme, hbs]

theorem decodeEsc_wfIn {b : Byte} (hb : isEarly b = false) : (decodeEsc b).wfIn cfg .esc = true := by
  unfold decodeEsc
  split_ifs with hbracket
  · rfl
  · have hne : (b == Ascii.bracket) = false := beq_eq_false_iff_ne.mpr hbracket
    simp only [Instr.wfIn, aborts, hb, hne]
    rfl

theorem decodeFinal_wfIn {b : Byte} (hb : b ∉ Ascii.selectors → unknownFinal b = true) : (decodeFinal b).wfIn cfg .csi = true := by
  unfold decodeFinal
  split_ifs
  case neg =>
    refine hb ?_
    simp only [Ascii.selectors, List.mem_cons, List.not_mem_nil, or_false, not_or]
    tauto
  all_goals rfl

theorem decodeCsi_wfIn {b : Byte} (hb : isEarly b = false) : (decodeCsi b).wfIn cfg .csi = true := by
  unfold decodeCsi
  split_ifs with hdigit hsep
  · exact digitOk_digitOf hdigit
  · rfl
  · refine decodeFinal_wfIn fun hsel => ?_
    have hne : ¬b = 59#8 := hsep
    simp [unknownFinal, hb, hdigit, hne, hsel]

theorem decodeMenu_wfIn (k : MenuKind) (b : Byte) : (decodeMenu cfg k b).wfIn cfg (.menu k) = true := by
  unfold decodeMenu
  by_cases hesc : b = Ascii.esc
  · rw [if_pos hesc]; rfl
  · rw [if_neg hesc]
    have hne : ¬b = 27#8 := hesc
    by_cases hdigit : isDigit b = true
    · cases k <;> simp [Instr.wfIn, hdigit, digitOk_digitOf hdigit]
    · cases k with
      | fgPick | bgPick => by_cases hbs : cfg.isBs b = true <;> simp [Instr.wfIn, ignoredBy, hne, hdigit, hbs]
      | style | theme => simp [Instr.wfIn, ignoredBy, hne, hdigit]

/-- A byte's class is one that its mode admits (R60). -/
theorem decode_wfIn (cfg : Config) (m : Mode) (b : Byte) : (decode cfg m b).wfIn cfg m = true := by
  cases m with
  | normal => exact earlyFirst_wfIn (.inl rfl) decodeNormal_wfIn
  | esc => exact earlyFirst_wfIn (.inr (.inl rfl)) decodeEsc_wfIn
  | csi => exact earlyFirst_wfIn (.inr (.inr rfl)) decodeCsi_wfIn
  | menu k => exact decodeMenu_wfIn k b

/-- What holds of a meaning's effect holds of the state that `run` answers. -/
theorem run_keeps {P : State → Prop} {f : State → State} (hx : run f s = .next t) (hf : P (f s)) : P t := by
  rcases run_cases (f := f) (s := s) with ⟨h, -⟩ | h | h
  · rw [h] at hx; cases hx; exact hf
  · rw [h] at hx; cases hx
  · rw [h] at hx; cases hx

/-- Every byte class, run in a mode that admits it and after the skip rule, keeps the terminal's part of the invariant. -/
theorem exec_terminalOk {i : Instr} (h : TerminalOk s) (hw : i.wfIn s.cfg s.mode = true)
    (hskip : ∀ b, i = .print b → s.skipLf = false) (hx : exec i s = .next t) : TerminalOk t := by
  cases i with
  | cr => exact run_keeps hx (crRule_terminalOk h)
  | lf => exact run_keeps hx (lfRule_terminalOk h)
  | escEntry =>
    have hm : s.modal = none := by
      simp only [Instr.wfIn, Bool.or_eq_true, beq_iff_eq, mode_eq_normal_iff, mode_eq_esc_iff, mode_eq_csi_iff] at hw
      tauto
    exact run_keeps hx (enterMode_terminalOk h hm rfl)
  | escCsi =>
    obtain ⟨hm, -⟩ := mode_eq_esc_iff.mp (beq_iff_eq.mp hw)
    exact run_keeps hx (enterMode_terminalOk h hm rfl)
  | escAbort x => exact run_keeps hx (escAbortRule_terminalOk h)
  | csiDigit d =>
    simp only [Instr.wfIn, Bool.and_eq_true, beq_iff_eq, mode_eq_csi_iff] at hw
    obtain ⟨⟨-, -, hcsi⟩, -⟩ := hw
    exact run_keeps hx (csiDigitRule_terminalOk h hcsi d)
  | csiSep =>
    obtain ⟨-, -, hcsi⟩ := mode_eq_csi_iff.mp (beq_iff_eq.mp hw)
    exact run_keeps hx (finalize_terminalOk h hcsi)
  | csiCuu => exact run_keeps hx (csiFinal_terminalOk h fun _ => cuuRule_terminalOk)
  | csiCud => exact run_keeps hx (csiFinal_terminalOk h fun _ => cudRule_terminalOk)
  | csiCuf => exact run_keeps hx (csiFinal_terminalOk h fun _ => cufRule_terminalOk)
  | csiCub => exact run_keeps hx (csiFinal_terminalOk h fun _ => cubRule_terminalOk)
  | csiCup => exact run_keeps hx (csiFinal_terminalOk h fun _ => cupRule_terminalOk)
  | csiEd => exact run_keeps hx (csiFinal_terminalOk h fun _ => edRule_terminalOk)
  | csiEl => exact run_keeps hx (csiFinal_terminalOk h fun _ => elRule_terminalOk)
  | csiSgr => exact run_keeps hx (csiFinal_terminalOk h fun _ => sgrRule_terminalOk)
  | csiScp => exact run_keeps hx (csiFinal_terminalOk h fun _ => scpRule_terminalOk)
  | csiRcp => exact run_keeps hx (csiFinal_terminalOk h fun _ => rcpRule_terminalOk)
  | csiUnknown b => exact run_keeps hx (csiFinal_terminalOk h fun _ hu => hu)
  | openFg | openBg | openStyle | openTheme =>
    obtain ⟨-, hesc, hcsi⟩ := mode_eq_normal_iff.mp (beq_iff_eq.mp hw)
    exact run_keeps hx (openModal_terminalOk h hesc hcsi _)
  | bs b => exact run_keeps hx (bsRule_terminalOk h)
  | print b => exact run_keeps hx (printRule_terminalOk h (hskip b rfl) b)
  | modalCancel => exact run_keeps hx (exitModal_terminalOk h)
  | pickDigit d =>
    simp only [Instr.wfIn, digitOk, Bool.and_eq_true, Bool.or_eq_true, beq_iff_eq, decide_eq_true_eq, mode_eq_menu_iff] at hw
    exact run_keeps hx (pickDigitRule_terminalOk h hw.1 hw.2)
  | pickBs b => exact run_keeps hx (pickBsRule_terminalOk h)
  | styleSelect d => exact run_keeps hx (styleRule_terminalOk h d)
  | themeSelect d => exact run_keeps hx (themeRule_terminalOk h d)
  | modalIgnore b => exact run_keeps hx h
  | tick | line | deferredCopy | forcedCopy | ringPush b | ringPop => cases hw

end Sys2Proof.Machine
end

section
/-! PROOFS. State (10_state.md): the BYTE step and the TICK step keep the logic agent's part of the invariant. -/

namespace Sys2Proof.Machine

variable {s t : State}

/-- What holds inside a BYTE step, from the overlay's removal to its redrawing (R67). -/
structure MidByteOk (s : State) : Prop where
  terminal : TerminalOk s
  blink : s.blinkCnt < s.cfg.blinkTicks
  place : inGrid s.cfg s.ovRow s.ovCol
  undrawn : s.drawn = false
  front : Store.wf s.cfg s.front = true
  range : s.ring.inRange s.cfg.ringN = true
  linked : s.ring.linked s.cfg.ringN = true

theorem clearLocal_logicOk (h : LogicOk s) : LogicOk (clearLocal s) :=
  { h with terminal := { h.terminal with }, overlay := { h.overlay with } }

theorem swapAfterEdit_logicOk (h : LogicOk s) (hs : s.hs = Handshake.idle) (p : SwapPolicy) :
    LogicOk (swapAfterEdit p s) := by
  obtain ⟨fr, q, heq, hfr⟩ := swapAfterEdit_frame p hs
  rw [heq]
  have hfront : Store.wf s.cfg fr = true := by
    rcases hfr with rfl | rfl
    · exact h.front
    · exact h.terminal.back
  exact { h with terminal := { h.terminal with }, overlay := { h.overlay with }, front := hfront }

/-- Drawing the overlay of a visible cursor outside every menu makes its part of the invariant hold (R117, R32 (7), (8)). -/
theorem overlayDraw_ok (h : TerminalOk s) (hb : s.blinkCnt < s.cfg.blinkTicks) (hv : s.curVisible = true) (hm : s.modal = none) :
    TerminalOk (overlayDraw s) ∧ OverlayOk (overlayDraw s) := by
  obtain ⟨bk, heq, hedit⟩ := overlayDraw_spec h.back h.config h.cursor
  have hcell := hedit.written s.curRow s.curCol ⟨rfl, rfl⟩
  rw [heq]
  refine ⟨{ h with back := hedit.canonical }, hb, h.cursor, ?_, fun _ => ⟨rfl, rfl, ?_, ?_⟩⟩
  · simp [hv, hm]
  · exact congrArg GridCell.ch hcell
  · exact congrArg GridCell.fg hcell

theorem overlayRemove_terminalOk (h : TerminalOk s) (hi : inGrid s.cfg s.ovRow s.ovCol) : TerminalOk (overlayRemove s) :=
  { setFg_terminalOk h hi s.ovChar s.ovFg with }

theorem liftOverlay_mid (h : LogicOk s) : MidByteOk (liftOverlay s) := by
  have hov := h.overlay
  unfold liftOverlay
  split_ifs with hc
  · exact ⟨overlayRemove_terminalOk h.terminal hov.place, hov.blink, hov.place, rfl, h.front, h.range, h.linked⟩
  · refine ⟨h.terminal, hov.blink, hov.place, ?_, h.front, h.range, h.linked⟩
    have hshown := hov.shown
    revert hc hshown
    cases s.drawn <;> cases s.modal <;> simp

theorem skipRule_logicOk (h : LogicOk s) (i : Instr) : LogicOk (skipRule i s) := by
  have hterm := skipRule_terminalOk h.terminal i
  cases i with
  | cr | lf => exact h
  | _ => exact { h with terminal := hterm, overlay := { h.overlay with } }

theorem beforeByte_mid (h : LogicOk s) (i : Instr) : MidByteOk (beforeByte i s) := liftOverlay_mid (skipRule_logicOk h i)

theorem liftOverlay_mode : (liftOverlay s).mode = s.mode := by
  unfold liftOverlay
  split <;> rfl

theorem beforeByte_mode (i : Instr) : (beforeByte i s).mode = s.mode := by
  refine liftOverlay_mode.trans ?_
  cases i <;> rfl

theorem beforeByte_print_skipLf (b : Byte) : (beforeByte (.print b) s).skipLf = false := by
  unfold beforeByte liftOverlay
  split <;> rfl

theorem exec_mid {i : Instr} (h : MidByteOk s) (hi : isByteClass i = true) (hw : i.wfIn s.cfg s.mode = true)
    (hskip : ∀ b, i = .print b → s.skipLf = false) (hx : exec i s = .next t) : MidByteOk t := by
  have hterm := exec_terminalOk h.terminal hw hskip hx
  have hframe := exec_byte_frame hi hx
  rw [hframe] at hterm ⊢
  exact { h with terminal := hterm }

theorem redrawOverlay_logicOk (h : MidByteOk s) : LogicOk (redrawOverlay s) := by
  unfold redrawOverlay
  split_ifs with hc
  · simp only [Bool.and_eq_true, Option.isNone_iff_eq_none] at hc
    obtain ⟨⟨hm, hv⟩, -⟩ := hc
    obtain ⟨hterm, hov⟩ := overlayDraw_ok h.terminal h.blink hv hm
    exact ⟨hterm, hov, h.front, h.range, h.linked⟩
  · have hshown : (s.curVisible && s.modal.isNone) = false := by
      rw [h.undrawn, Bool.not_false, Bool.and_true, Bool.not_eq_true, Bool.and_comm] at hc
      exact hc
    exact ⟨h.terminal, ⟨h.blink, h.place, h.undrawn.trans hshown.symm, fun hd => by rw [h.undrawn] at hd; cases hd⟩,
      h.front, h.range, h.linked⟩

theorem redrawOverlay_hs : (redrawOverlay s).hs = s.hs := by
  rw [redrawOverlay_withLogic]; rfl

theorem afterByte_logicOk (h : MidByteOk s) (hs : s.hs = Handshake.idle) : LogicOk (afterByte s) :=
  clearLocal_logicOk (swapAfterEdit_logicOk (redrawOverlay_logicOk h) (redrawOverlay_hs.trans hs) _)

/-- The BYTE step (R67): the overlay off, the byte's class, the overlay on, the swap action. -/
theorem runByte_logicOk {b : Byte} (h : LogicOk s) (hs : s.hs = Handshake.idle) (hx : runByte b s = .next t) :
    LogicOk t ∧ LocalClear t := by
  obtain ⟨u, hu, rfl⟩ := (runByte_next_iff b).mp hx
  have hwf : ∀ i : Instr, i.wfIn s.cfg s.mode = true → i.wfIn (beforeByte i s).cfg (beforeByte i s).mode = true := by
    intro i hi
    rw [beforeByte_mode, beforeByte_withLogic]
    exact hi
  have hbyte := decode_isByte s.cfg s.mode b
  have hmid := exec_mid (beforeByte_mid h _) hbyte (hwf _ (decode_wfIn _ _ _))
    (fun c hc => by rw [hc]; exact beforeByte_print_skipLf c) hu
  have hidle : u.hs = Handshake.idle := by
    rw [exec_byte_frame hbyte hu, beforeByte_withLogic]
    exact hs
  exact ⟨afterByte_logicOk hmid hidle, rfl, rfl⟩

/-- The cursor shown or hidden after its visibility toggled outside every menu (R120). -/
theorem toggleOverlay_ok (h : TerminalOk s) (hb : s.blinkCnt < s.cfg.blinkTicks) (hp : inGrid s.cfg s.ovRow s.ovCol)
    (hm : s.modal = none) (hd : s.drawn = !s.curVisible) : TerminalOk (toggleOverlay s) ∧ OverlayOk (toggleOverlay s) := by
  unfold toggleOverlay
  cases hv : s.curVisible with
  | true =>
    rw [hv] at hd
    rw [if_pos rfl, if_neg (by simp [hd])]
    exact overlayDraw_ok h hb hv hm
  | false =>
    rw [hv] at hd
    rw [if_neg (by decide), if_pos (show s.drawn = true from hd)]
    refine ⟨overlayRemove_terminalOk h hp, hb, hp, ?_, fun hn => nomatch hn⟩
    show false = (s.curVisible && _)
    rw [hv]
    rfl

theorem blinkStep_ok (h : TerminalOk s) (ho : OverlayOk s) (hm : s.modal = none) :
    TerminalOk (blinkStep s) ∧ OverlayOk (blinkStep s) := by
  unfold blinkStep
  split_ifs with hc
  · have hd : s.drawn = !!s.curVisible := by rw [ho.shown, hm]; simp
    exact toggleOverlay_ok (s := { s with blinkCnt := 0, curVisible := !s.curVisible }) { h with } (Nat.zero_lt_of_lt ho.blink)
      ho.place hm hd
  · exact ⟨{ h with }, { ho with blink := Nat.lt_of_not_le hc }⟩

/-- What a blink leaves of the rest of the logic agent's registers, and of the handshakes. -/
theorem blinkStep_frame : (blinkStep s).cfg = s.cfg ∧ (blinkStep s).front = s.front ∧ (blinkStep s).ring = s.ring ∧
    (blinkStep s).hs = s.hs := by
  unfold blinkStep toggleOverlay
  split_ifs <;> exact ⟨rfl, rfl, rfl, rfl⟩

theorem blinkStep_logicOk (h : LogicOk s) (hm : s.modal = none) : LogicOk (blinkStep s) := by
  obtain ⟨hterm, hov⟩ := blinkStep_ok h.terminal h.overlay hm
  obtain ⟨hcfg, hfront, hring, -⟩ := blinkStep_frame (s := s)
  exact ⟨hterm, hov, by rw [hcfg, hfront]; exact h.front, by rw [hcfg, hring]; exact h.range, by rw [hcfg, hring]; exact h.linked⟩

/-- The TICK step (R120). -/
theorem tickRule_logicOk (h : LogicOk s) (hs : s.hs = Handshake.idle) : LogicOk (tickRule s) ∧ LocalClear (tickRule s) := by
  have hstart : LogicOk (clearLocal { s with pendTick := false }) :=
    { h with terminal := { h.terminal with }, overlay := { h.overlay with } }
  unfold tickRule
  dsimp only
  split_ifs with hm
  · exact ⟨hstart, rfl, rfl⟩
  · have hnone : s.modal = none := Option.not_isSome_iff_eq_none.mp hm
    obtain ⟨-, -, -, hhs⟩ := blinkStep_frame (s := clearLocal { s with pendTick := false })
    exact ⟨clearLocal_logicOk (swapAfterEdit_logicOk (blinkStep_logicOk hstart hnone) (hhs.trans hs) _), rfl, rfl⟩

end Sys2Proof.Machine
end

section
/-! PROOFS. State (10_state.md): the invariant at reset (O12), over every step (O13) and every run (O14), the configuration that no
step changes (O15), and the states refused (O11). -/

namespace Sys2Proof.Machine

variable {s t : State} {cfg : Config}

/-! The reset unit and the values held in reset. -/

theorem heldInReset_iff : s.heldInReset = true ↔ (s.rsu.rst = true →
    s.rsu = { ResetUnit.asserted with heldL := s.rsu.heldL, heldR := s.rsu.heldR } ∧
    s = { State.resetOf s.cfg with skFree := s.skFree, inputs := s.inputs, rsu := s.rsu, freeDraws := s.freeDraws }) := by
  unfold State.heldInReset
  cases s.rsu.rst <;> simp

theorem heldInReset_of_released (h : s.rsu.rst = false) : s.heldInReset = true := by
  simp [State.heldInReset, h]

/-- What the host and the clocks may change while rst is 1: the events, the free buffers and the cycle counts. -/
theorem heldInReset_host (h : s.heldInReset = true) (fs : List Nat) (es : List Event) (l r : Nat) :
    ({ s with skFree := fs, inputs := es, rsu := { s.rsu with heldL := l, heldR := r } } : State).heldInReset = true := by
  rw [heldInReset_iff] at h ⊢
  intro hrst
  obtain ⟨hunit, hregs⟩ := h hrst
  exact ⟨congrArg (fun u : ResetUnit => { u with heldL := l, heldR := r }) hunit,
    congrArg (fun x : State => { x with skFree := fs, inputs := es, rsu := { s.rsu with heldL := l, heldR := r } }) hregs⟩

theorem ordered_iff {u : ResetUnit} : u.ordered = true ↔
    (u.relL.ff2 = true → u.relL.ff1 = true) ∧ (u.relR.ff2 = true → u.relR.ff1 = true) ∧
    (u.peerL.ff1 = true ∨ u.peerL.ff2 = true → u.relR.ff2 = true) ∧ (u.peerR.ff1 = true ∨ u.peerR.ff2 = true → u.relL.ff2 = true) := by
  have himp : ∀ a b : Bool, (!a || b) = true ↔ (a = true → b = true) := by decide
  simp only [ResetUnit.ordered, Bool.and_eq_true, himp, Bool.or_eq_true, and_assoc]

/-- An edge of clk_l out of reset: the release moves on, and the view of the other domain is what that domain was (R158). -/
theorem clockL_ordered {u : ResetUnit} (h : u.ordered = true) : (clockL u).ordered = true := by
  unfold clockL
  split_ifs
  · exact h
  · obtain ⟨hrelL, hrelR, hpeerL, hpeerR⟩ := ordered_iff.mp h
    exact ordered_iff.mpr ⟨fun _ => rfl, hrelR, fun hp => hp.elim id fun hff1 => hpeerL (.inl hff1), fun hp => hrelL (hpeerR hp)⟩

theorem clockR_ordered {u : ResetUnit} (h : u.ordered = true) : (clockR u).ordered = true := by
  unfold clockR
  split_ifs
  · exact h
  · obtain ⟨hrelL, hrelR, hpeerL, hpeerR⟩ := ordered_iff.mp h
    exact ordered_iff.mpr ⟨hrelL, fun _ => rfl, fun hp => hrelR (hpeerL hp), fun hp => hp.elim id fun hff1 => hpeerR (.inl hff1)⟩

/-! Reset. -/

theorem Ring.empty_ok {n : Nat} (hn : 1 ≤ n) : (Ring.empty n).inRange n = true ∧ (Ring.empty n).linked n = true := by
  rw [Ring.inRange_iff, Ring.linked_iff]
  exact ⟨⟨List.length_replicate, hn, hn, Nat.zero_le n⟩, (Nat.zero_mod n).symm⟩

theorem resetOf_logicOk (h : configWf cfg = true) : LogicOk (State.resetOf cfg) := by
  obtain ⟨hcols, hrows, -, -, hblink, hring⟩ := config_pos h
  have hgrid : inGrid cfg 0 0 := ⟨hrows, by omega⟩
  obtain ⟨hrange, hlinked⟩ := Ring.empty_ok hring
  have hterm : TerminalOk (State.resetOf cfg) :=
    { config := h, cursor := hgrid, saved := hgrid, oneMode := rfl, operands := Nat.zero_le 4, outsideCsi := fun _ => ⟨rfl, rfl, rfl⟩
      pending := fun _ => rfl, oneSkip := rfl, menuModes := fun hne => absurd rfl hne, digit := Nat.zero_le 9
      digitHeld := .inr (.inr rfl), back := rfl, snap := rfl }
  exact ⟨hterm, ⟨hblink, hgrid, rfl, fun hd => nomatch hd⟩, rfl, hrange, hlinked⟩

/-- The reset values meet the invariant with any reset unit in order that is out of reset or has just been asserted. -/
theorem resetOf_inv (h : configWf cfg = true) (fs : List Nat) (es : List Event) (n : Nat) {u : ResetUnit} (ho : u.ordered = true)
    (hu : u.rst = true → u = ResetUnit.asserted) :
    ({ State.resetOf cfg with skFree := fs, inputs := es, freeDraws := n, rsu := u } : State).inv = true := by
  obtain ⟨-, -, -, hlines, -⟩ := config_pos h
  have hlog := resetOf_logicOk h
  refine inv_iff.mpr ⟨{ hlog with terminal := { hlog.terminal with }, overlay := { hlog.overlay with } },
    ⟨hlines, rfl, rfl, .inr (Nat.zero_mod _)⟩, ⟨ho, heldInReset_iff.mpr fun hrst => ⟨?_, rfl⟩⟩, ⟨rfl, rfl⟩⟩
  obtain rfl := hu hrst
  rfl

/-- Settles O12: the reset values meet each part of the invariant under every well-formed configuration. -/
theorem resetInvariant : Obligations.ResetInvariant := by
  unfold Obligations.ResetInvariant
  have hreset : ∀ cfg : Config, configWf cfg = true → (State.resetOf cfg).inv = true :=
    fun cfg h => resetOf_inv h [] [] 0 (u := ResetUnit.released) (by decide) (fun hrst => nomatch hrst)
  exact ⟨hreset Config.default (by decide), hreset⟩

/-! The events. -/

/-- A logic step, a push or a tick pulse out of reset: the rest of the invariant is over registers that it does not write. -/
theorem inv_of_withLogic (h : s.inv = true) (hrst : s.rsu.rst = false) (ht : t = s.withLogic t) (hlog : LogicOk t)
    (hloc : LocalClear t) : t.inv = true := by
  obtain ⟨-, hren, hres, -⟩ := inv_iff.mp h
  refine inv_iff.mpr ⟨hlog, ?_, ?_, hloc⟩
  · rw [ht]
    exact { hren with }
  · rw [ht]
    exact ⟨hres.ordered, heldInReset_of_released hrst⟩

theorem inv_runnable (h : s.inv = true) : s.runnable = true := by
  simp only [State.inv, Bool.and_eq_true] at h
  exact legal_runnable (by tauto)

theorem portsRun_released (h : portsRun s = true) : s.rsu.rst = false := by
  simp only [portsRun, Bool.and_eq_true, Bool.not_eq_true'] at h
  exact h.1

theorem logicRuns_released (h : logicRuns s = true) : s.rsu.rst = false := by
  simp only [logicRuns, Bool.and_eq_true, Bool.not_eq_true'] at h
  exact h.1.1

theorem renderRuns_released (h : renderRuns s = true) : s.rsu.rst = false := by
  simp only [renderRuns, Bool.and_eq_true, Bool.not_eq_true'] at h
  exact h.1.1

theorem pushPort_inv {b : Byte} (h : s.inv = true) (hx : pushPort b s = .next t) : t.inv = true := by
  unfold pushPort at hx
  split_ifs at hx with hp
  · obtain ⟨hlog, -, -, hloc⟩ := inv_iff.mp h
    obtain ⟨hrange, hlinked⟩ := Ring.push_ok (b := b) hlog.range hlog.linked
    have hpush : LogicOk (pushRule b s) :=
      { hlog with terminal := { hlog.terminal with }, overlay := { hlog.overlay with }, range := hrange, linked := hlinked }
    exact run_keeps (P := fun u => u.inv = true) hx (inv_of_withLogic h (portsRun_released hp) rfl hpush { hloc with })
  · cases hx; exact h

theorem tickPort_inv (h : s.inv = true) : (tickPort s).inv = true := by
  unfold tickPort
  split_ifs with hp
  · obtain ⟨hlog, -, -, hloc⟩ := inv_iff.mp h
    exact inv_of_withLogic h (portsRun_released hp) rfl
      { hlog with terminal := { hlog.terminal with }, overlay := { hlog.overlay with } } { hloc with }
  · exact h

/-- The state in which a popped byte runs. -/
theorem popped_logicOk (h : LogicOk s) (b : Option Byte) :
    LogicOk { s with wrote := false, popped := b, ring := (s.ring.pop s.cfg.ringN).2 } := by
  obtain ⟨hrange, hlinked⟩ := Ring.pop_ok h.range h.linked
  exact { h with terminal := { h.terminal with }, overlay := { h.overlay with }, range := hrange, linked := hlinked }

theorem logicTurn_inv (h : s.inv = true) (hx : logicTurn s = .next t) : t.inv = true := by
  obtain ⟨hlog, hren, -, hloc⟩ := inv_iff.mp h
  have hrun := inv_runnable h
  by_cases hr : logicRuns s = true
  · have hparts : LogicOk t ∧ LocalClear t := by
      rcases logicTurn_cases hx hrun with rfl | ⟨-, rfl⟩ | ⟨-, -, hbyte⟩
      · exact ⟨hlog, hloc⟩
      · exact tickRule_logicOk hlog hren.idle
      · exact runByte_logicOk (popped_logicOk hlog _) hren.idle hbyte
    exact inv_of_withLogic h (logicRuns_released hr) (logicTurn_withLogic hx hrun) hparts.1 hparts.2
  · unfold logicTurn at hx
    rw [if_neg hr] at hx
    cases hx; exact h

/-- The LINE step (R133): it waits, or a buffer is filled and submitted and the line counted. -/
theorem lineRule_cases (hs : s.hs = Handshake.idle) : lineRule s = s ∨ ∃ rest fr q ph buf, (fr = s.front ∨ fr = s.back) ∧
    lineRule s = { s with
      skFree := rest, front := fr, swapReq := q, blinkPhase := ph, owned := none, submitted := buf :: s.submitted
      line := (s.line + 1) % s.cfg.frameLines } := by
  unfold lineRule
  split
  · exact .inl rfl
  · rename_i id rest _
    right
    rw [lineBody_eq (s := sinkTake id rest s) (b := ⟨id, []⟩) hs rfl]
    split_ifs
    · exact ⟨rest, _, _, _, _, .inr rfl, rfl⟩
    · exact ⟨rest, _, _, _, _, .inl rfl, rfl⟩
    · exact ⟨rest, _, _, _, _, .inl rfl, rfl⟩

theorem lineRule_inv (h : s.inv = true) (hrst : s.rsu.rst = false) : (lineRule s).inv = true := by
  obtain ⟨hlog, hren, hres, hloc⟩ := inv_iff.mp h
  rcases lineRule_cases hren.idle with heq | ⟨rest, fr, q, ph, buf, hfr, heq⟩
  · rw [heq]; exact h
  · have hfront : Store.wf s.cfg fr = true := by
      rcases hfr with rfl | rfl
      · exact hlog.front
      · exact hlog.terminal.back
    rw [heq]
    refine inv_iff.mpr ⟨{ hlog with terminal := { hlog.terminal with }, overlay := { hlog.overlay with }, front := hfront },
      ⟨Nat.mod_lt _ (Nat.zero_lt_of_lt hren.line), hren.idle, rfl, hren.counted.imp_right fun hcount => ?_⟩,
      ⟨hres.ordered, heldInReset_of_released hrst⟩, { hloc with }⟩
    show (s.submitted.length + 1) % s.cfg.frameLines = (s.line + 1) % s.cfg.frameLines
    rw [← hcount, Nat.mod_add_mod]

theorem renderTurn_inv (h : s.inv = true) (hx : renderTurn s = .next t) : t.inv = true := by
  unfold renderTurn at hx
  split_ifs at hx with hr
  · exact run_keeps (P := fun u => u.inv = true) hx (lineRule_inv h (renderRuns_released hr))
  · cases hx; exact h

/-- What the host and the clocks of the reset unit change at most keeps the invariant. -/
theorem inv_host (h : s.inv = true) (fs : List Nat) (es : List Event) {u : ResetUnit} (ho : u.ordered = true)
    (hshort : u.short = s.rsu.short)
    (hu : u.rst = true → u = { s.rsu with heldL := u.heldL, heldR := u.heldR }) :
    ({ s with skFree := fs, inputs := es, rsu := u } : State).inv = true := by
  obtain ⟨hlog, hren, hres, hloc⟩ := inv_iff.mp h
  have hheld : ({ s with skFree := fs, inputs := es, rsu := u } : State).heldInReset = true := by
    cases hrst : u.rst with
    | false => exact heldInReset_of_released hrst
    | true =>
      rw [hu hrst]
      exact heldInReset_host hres.held fs es _ _
  refine inv_iff.mpr ⟨{ hlog with terminal := { hlog.terminal with }, overlay := { hlog.overlay with } },
    { hren with counted := hren.counted.imp_left hshort.trans }, ⟨ho, hheld⟩, { hloc with }⟩

/-- The reset input (R157): rst rises, falls in time, falls too soon (log 26), or does not change. -/
theorem resetPin_inv (h : s.inv = true) (v : Bool) : (resetPin v s).inv = true := by
  obtain ⟨hlog, hren, hres, hloc⟩ := inv_iff.mp h
  unfold resetPin
  split_ifs with hv hrst hrst hlong
  · exact h
  · exact resetOf_inv hlog.terminal.config s.skFree s.inputs s.freeDraws (by decide) fun _ => rfl
  · exact inv_host h s.skFree s.inputs hres.ordered rfl (fun hn => nomatch hn)
  · exact shortReset_inv hlog.terminal.config _
  · exact h

theorem clockL_inv (h : s.inv = true) : ({ s with rsu := clockL s.rsu } : State).inv = true := by
  obtain ⟨-, -, hres, -⟩ := inv_iff.mp h
  refine inv_host h s.skFree s.inputs (clockL_ordered hres.ordered) ?_ ?_
  · unfold clockL; split_ifs <;> rfl
  · unfold clockL; split_ifs with hrst
    · exact fun _ => rfl
    · exact fun hn => absurd hn hrst

theorem clockR_inv (h : s.inv = true) : ({ s with rsu := clockR s.rsu } : State).inv = true := by
  obtain ⟨-, -, hres, -⟩ := inv_iff.mp h
  refine inv_host h s.skFree s.inputs (clockR_ordered hres.ordered) ?_ ?_
  · unfold clockR; split_ifs <;> rfl
  · unfold clockR; split_ifs with hrst
    · exact fun _ => rfl
    · exact fun hn => absurd hn hrst

theorem react_inv {e : Event} (h : s.inv = true) (hx : react e s = .next t) : t.inv = true := by
  cases e with
  | push b => exact pushPort_inv h hx
  | tickPulse => cases hx; exact tickPort_inv h
  | logic => exact logicTurn_inv h hx
  | logicPush b =>
    obtain ⟨u, hu, ht⟩ := andThen_next_iff.mp hx
    exact pushPort_inv (logicTurn_inv h hu) ht
  | render => exact renderTurn_inv h hx
  | sinkFree id =>
    obtain ⟨-, -, hres, -⟩ := inv_iff.mp h
    simp only [react, sinkOffer] at hx
    split_ifs at hx
    cases hx
    exact inv_host h _ s.inputs hres.ordered rfl fun _ => rfl
  | rst v => cases hx; exact resetPin_inv h v
  | clkL => cases hx; exact clockL_inv h
  | clkR => cases hx; exact clockR_inv h

theorem step_inv (h : s.inv = true) (hx : step s = .next t) : t.inv = true := by
  obtain ⟨-, ⟨-, rfl⟩ | ⟨e, rest, -, he⟩⟩ := step_next_iff.mp hx
  · exact h
  · obtain ⟨-, -, hres, -⟩ := inv_iff.mp h
    exact react_inv (inv_host h s.skFree rest hres.ordered rfl fun _ => rfl) he

/-- Settles O13, by the event that the step takes: each keeps the parts of the invariant that it writes. -/
theorem stepKeepsInvariant : Obligations.StepKeepsInvariant := by
  unfold Obligations.StepKeepsInvariant
  exact fun s t => step_inv

/-! The configuration. -/

theorem logicTurn_cfg (hr : s.runnable = true) (hx : logicTurn s = .next t) : t.cfg = s.cfg := by
  rw [logicTurn_withLogic hx hr]; rfl

theorem pushPort_cfg {b : Byte} (hx : pushPort b s = .next t) : t.cfg = s.cfg := by
  unfold pushPort at hx
  split_ifs at hx
  · exact exec_cfg hx
  · cases hx; rfl

theorem renderTurn_cfg (hx : renderTurn s = .next t) : t.cfg = s.cfg := by
  unfold renderTurn at hx
  split_ifs at hx
  · exact exec_cfg hx
  · cases hx; rfl

theorem resetPin_cfg (v : Bool) : (resetPin v s).cfg = s.cfg := by
  unfold resetPin
  split_ifs <;> rfl

theorem react_cfg {e : Event} (hr : s.runnable = true) (hx : react e s = .next t) : t.cfg = s.cfg := by
  cases e with
  | push b => exact pushPort_cfg hx
  | tickPulse =>
    cases hx
    unfold tickPort
    split_ifs <;> rfl
  | logic => exact logicTurn_cfg hr hx
  | logicPush b =>
    obtain ⟨u, hu, ht⟩ := andThen_next_iff.mp hx
    exact (pushPort_cfg ht).trans (logicTurn_cfg hr hu)
  | render => exact renderTurn_cfg hx
  | sinkFree id =>
    simp only [react, sinkOffer] at hx
    split_ifs at hx
    cases hx; rfl
  | rst v => cases hx; exact resetPin_cfg v
  | clkL | clkR => cases hx; rfl

theorem step_cfg (hx : step s = .next t) : t.cfg = s.cfg := by
  obtain ⟨hleg, ⟨-, rfl⟩ | ⟨e, rest, -, he⟩⟩ := step_next_iff.mp hx
  · rfl
  · exact react_cfg (s := { s with inputs := rest }) (legal_runnable hleg) he

/-- The ROMs are configuration: what a read of one answers is a function of it. -/
theorem memRead_rom_congr {sp : Space} (hrom : sp = .font ∨ sp = .lut) (h : t.cfg = s.cfg) (a n : Nat) :
    memRead t sp a n = memRead s sp a n := by
  unfold memRead peek
  rcases hrom with rfl | rfl <;> dsimp only <;> rw [h]

/-- Settles O15: every event's turn keeps the configuration, which is all that a read of a ROM reads. -/
theorem stepKeepsConfiguration : Obligations.StepKeepsConfiguration := by
  unfold Obligations.StepKeepsConfiguration
  intro s t hx
  have hcfg := step_cfg hx
  exact ⟨hcfg, fun a n => ⟨memRead_rom_congr (.inl rfl) hcfg a n, memRead_rom_congr (.inr rfl) hcfg a n⟩⟩

/-! Runs. -/

/-- What each step keeps holds after any run. -/
theorem run_induct {P : State → Prop} (hstep : ∀ s t, P s → step s = .next t → P t) (n : Nat) (h0 : P s)
    (hx : Host.Core.run Sys2Proof.core n s = .next t) : P t := by
  induction n generalizing s with
  | zero => cases hx; exact h0
  | succ n ih =>
    simp only [Host.Core.run] at hx
    split at hx
    · rename_i u hu
      exact ih (hstep s u h0 hu) hx
    · cases hx
    · cases hx

/-- Settles O14: the invariant holds after the run, by O12 and O13, and its parts are R32. -/
theorem runsKeepBlockInvariants : Obligations.RunsKeepBlockInvariants := by
  unfold Obligations.RunsKeepBlockInvariants
  intro cfg es n t hwf hx
  have hstart : ({ State.resetOf cfg with inputs := es } : State).inv = true :=
    resetOf_inv hwf [] es 0 (u := ResetUnit.released) (by decide) (fun hrst => nomatch hrst)
  obtain ⟨hinv, hcfg⟩ := run_induct (P := fun u => u.inv = true ∧ u.cfg = cfg)
    (fun s t hs hst => ⟨step_inv hs.1 hst, (step_cfg hst).trans hs.2⟩) n ⟨hstart, rfl⟩ hx
  subst hcfg
  obtain ⟨⟨term, ov, -, -, -⟩, -, -, -⟩ := inv_iff.mp hinv
  have hpair : ∀ {a b : Bool}, (a && b) = false → ¬(a = true ∧ b = true) := by decide
  have hdrawn : t.drawn = true ↔ t.curVisible = true ∧ t.modal = none := by
    rw [ov.shown, Bool.and_eq_true, Option.isNone_iff_eq_none]
  exact ⟨⟨term.cursor.2, term.cursor.1⟩, hpair term.oneMode, term.outsideCsi, term.pending, hpair term.oneSkip,
    fun hm => ⟨(term.menuModes hm).1, (term.menuModes hm).2, Bool.eq_false_iff.mpr fun hd => hm (hdrawn.mp hd).2⟩, hdrawn,
    ov.atCursor, ov.blink, term.digitHeld⟩

/-! Refusals. -/

theorem exec_illegal (i : Instr) (hc : configWf s.cfg = true) (h : s.inRange = false) : exec i s = .refused .illegalState := by
  obtain ⟨f, hf⟩ := exec_eq_run i
  rw [hf, run, if_pos hc, if_neg (Bool.eq_false_iff.mp h)]

theorem step_illegal (hc : configWf s.cfg = true) (h : s.legal = false) : step s = .refused .illegalState := by
  rw [step, guardedStep, if_pos hc, if_neg (Bool.eq_false_iff.mp h)]

theorem legal_false_of_inRange (h : s.inRange = false) : s.legal = false := by
  simp [State.legal, State.runnable, h]

theorem legal_false_of_invariants (h : s.invariants = false) : s.legal = false := by
  simp [State.legal, h]

theorem inRange_false_of_bothModes (hesc : s.escMode = true) (hcsi : s.csiMode = true) : s.inRange = false := by
  simp [State.inRange, hesc, hcsi]

/-- Settles O11: the guards of `exec` and `step` read the legal values, of which the mode pair (1,1) is not one, and `step`
reads R32 too. -/
theorem illegalStateRefused : Obligations.IllegalStateRefused := by
  unfold Obligations.IllegalStateRefused
  intro i s hc
  have hrefused : s.inRange = false → exec i s = .refused .illegalState ∧ step s = .refused .illegalState :=
    fun h => ⟨exec_illegal i hc h, step_illegal hc (legal_false_of_inRange h)⟩
  exact ⟨fun hesc hcsi => hrefused (inRange_false_of_bothModes hesc hcsi), hrefused,
    fun h => step_illegal hc (legal_false_of_invariants h)⟩

end Sys2Proof.Machine
end

section
/-! PROOFS. Memory (20_memory.md): the LINE step with a free buffer, and what its output reads (O50). -/

namespace Sys2Proof.Machine

variable {s t : State} {cfg : Config}

/-- F as a LINE step encodes it: at line 0 after the deferred swap (R133). -/
def State.lineFront (s : State) : Store := if s.line = 0 ∧ s.swapReq = true then s.back else s.front

/-- The blink phase as a LINE step encodes it: sampled at line 0 (R133). -/
def State.linePhase (s : State) : Bool := if s.line = 0 then s.curVisible else s.blinkPhase

/-- The words a LINE step submits (R133). -/
def State.lineWords (s : State) : List Word :=
  encodeLine s.cfg s.lineFront (lineRow s.cfg s.line) (lineGlyphRow s.cfg s.line) s.linePhase

theorem lineFront_past (h : s.line ≠ 0) : s.lineFront = s.front := if_neg fun hn => h hn.1

theorem linePhase_past (h : s.line ≠ 0) : s.linePhase = s.blinkPhase := if_neg h

/-- With no free buffer LINE waits (R113, R142). -/
theorem lineRule_wait (hf : s.skFree = []) : lineRule s = s := by
  unfold lineRule
  rw [hf]

/-- With a free buffer LINE fills and submits it and counts the line (R133). -/
theorem lineRule_free {id : Nat} {rest : List Nat} (hs : s.hs = Handshake.idle) (hf : s.skFree = id :: rest) : lineRule s = { s with
    skFree := rest, owned := none, front := s.lineFront, blinkPhase := s.linePhase
    swapReq := s.swapReq && decide (s.line ≠ 0)
    submitted := ⟨id, s.lineWords⟩ :: s.submitted, line := (s.line + 1) % s.cfg.frameLines } := by
  have htake : lineRule s = lineBody (sinkTake id rest s) := by
    unfold lineRule
    rw [hf]
  rw [htake, lineBody_eq (s := sinkTake id rest s) (b := ⟨id, []⟩) hs rfl]
  by_cases hl : s.line = 0
  · simp [sinkTake, State.lineWords, State.lineFront, State.linePhase, hl]
  · simp [sinkTake, State.lineWords, lineFront_past hl, linePhase_past hl, hl]

/-- A scanline is three lanes of 4*COLS words (R132). -/
theorem encodeLine_length (h8 : cfg.cols % 8 = 0) (f : Store) (row gr : Nat) (phase : Bool) :
    (encodeLine cfg f row gr phase).length = 12 * cfg.cols := by
  simp only [encodeLine, List.length_append, (encodePlane_spec h8).1]
  omega

/-- LINE's execution with a free buffer submits `lineWords`. -/
theorem exec_line_submits {id : Nat} {rest : List Nat} (h : s.runnable = true) (hf : s.skFree = id :: rest) :
    ∃ t, exec .line s = .next t ∧ t.submitted = ⟨id, s.lineWords⟩ :: s.submitted :=
  ⟨lineRule s, run_eq h, by rw [lineRule_free (inRange_hs (runnable_iff.mp h).2) hf]⟩

/-- Past line 0 the words are a function of the configuration, F, the line and the blink phase. -/
theorem lineWords_congr (hc : s.cfg = t.cfg) (hf : s.front = t.front) (hl : s.line = t.line) (hp : s.blinkPhase = t.blinkPhase)
    (h0 : s.line ≠ 0) : s.lineWords = t.lineWords := by
  have h0' : t.line ≠ 0 := hl ▸ h0
  rw [State.lineWords, State.lineWords, lineFront_past h0, lineFront_past h0', linePhase_past h0, linePhase_past h0', hc, hf, hl, hp]

/-- Settles O50: both states submit their `lineWords`, which past line 0 read nothing in which the states may differ. -/
theorem lineReadsOnlyFront : Obligations.LineReadsOnlyFront := by
  unfold Obligations.LineReadsOnlyFront
  intro s s' id id' rest rest' hr hr' hc hf hl hp h0 hfree hfree'
  obtain ⟨t, hx, hsub⟩ := exec_line_submits hr hfree
  obtain ⟨t', hx', hsub'⟩ := exec_line_submits hr' hfree'
  rw [← lineWords_congr hc hf hl hp h0] at hsub'
  exact ⟨t, t', s.lineWords, hx, hx', hsub, hsub', encodeLine_length (config_cols8 (runnable_iff.mp hr).1) _ _ _ _⟩

end Sys2Proof.Machine
end

section
/-! PROOFS. Memory (20_memory.md): which step writes which frame store (O40), and F within a frame under DEFERRED (O42). -/

namespace Sys2Proof.Machine

variable {s t u : State}

/-! The logic agent. -/

/-- From `s` to `t` F is left alone, or, where `forced` holds, ends as a copy of B. -/
def CopiedIf (forced : Prop) (s t : State) : Prop := t.front = s.front ∨ forced ∧ t.front = t.back

theorem CopiedIf.imp {P Q : Prop} (h : CopiedIf P s t) (hPQ : P → Q) : CopiedIf Q s t := Or.imp_right (And.imp_left hPQ) h

/-- The swap action that ends a logic step writes F under FORCED only, and then with the step's B (R109, R110). -/
theorem swapAfterEdit_front (p : SwapPolicy) (hs : u.hs = Handshake.idle) (hu : u.front = s.front) :
    CopiedIf (p = .forced) s (clearLocal (swapAfterEdit p u)) := by
  rw [swapAfterEdit_eq p hs]
  split_ifs
  · cases p with
    | deferred => exact .inl hu
    | forced => exact .inr ⟨rfl, rfl⟩
  · exact .inl hu

theorem tickRule_front (hs : s.hs = Handshake.idle) : CopiedIf (s.cfg.swapOnBlink = .forced) s (tickRule s) := by
  obtain ⟨-, hfront, -, hhs⟩ := blinkStep_frame (s := clearLocal { s with pendTick := false })
  unfold tickRule
  dsimp only
  split_ifs
  · exact .inl rfl
  · exact swapAfterEdit_front _ (hhs.trans hs) hfront

theorem beforeByte_keeps (i : Instr) : (beforeByte i s).front = s.front ∧ (beforeByte i s).hs = s.hs ∧ (beforeByte i s).cfg = s.cfg := by
  unfold beforeByte liftOverlay skipRule
  split_ifs <;> split <;> exact ⟨rfl, rfl, rfl⟩

theorem redrawOverlay_keeps : (redrawOverlay s).front = s.front ∧ (redrawOverlay s).cfg = s.cfg := by
  unfold redrawOverlay
  split_ifs <;> exact ⟨rfl, rfl⟩

theorem afterByte_front (hs : s.hs = Handshake.idle) : CopiedIf (s.cfg.swapOnByte = .forced) s (afterByte s) := by
  obtain ⟨hfront, hcfg⟩ := redrawOverlay_keeps (s := s)
  rw [← hcfg]
  exact swapAfterEdit_front _ (redrawOverlay_hs.trans hs) hfront

/-- A byte's class writes no F, so the BYTE step does what its swap action does (R67). -/
theorem runByte_front {b : Byte} (hs : s.hs = Handshake.idle) (hx : runByte b s = .next t) : CopiedIf (s.cfg.swapOnByte = .forced) s t := by
  obtain ⟨u, hu, rfl⟩ := (runByte_next_iff b).mp hx
  obtain ⟨hfront, hhs, hcfg⟩ := beforeByte_keeps (s := s) (decode s.cfg s.mode b)
  have hu' := exec_byte_frame (decode_isByte _ _ _) hu
  have hufront : u.front = s.front := by rw [hu']; exact hfront
  have hucfg : u.cfg = s.cfg := by rw [hu']; exact hcfg
  have huhs : u.hs = Handshake.idle := by rw [hu']; exact hhs.trans hs
  have h := afterByte_front huhs
  rwa [hucfg, CopiedIf, hufront] at h

/-- One of the two policies is FORCED. -/
def Config.anyForced (cfg : Config) : Prop := cfg.swapOnByte = .forced ∨ cfg.swapOnBlink = .forced

theorem logicTurn_front (hr : s.runnable = true) (hx : logicTurn s = .next t) : CopiedIf (Config.anyForced s.cfg) s t := by
  have hs := inRange_hs (runnable_iff.mp hr).2
  rcases logicTurn_cases hx hr with rfl | ⟨-, rfl⟩ | ⟨-, -, hbyte⟩
  · exact .inl rfl
  · exact (tickRule_front hs).imp .inr
  · have hfront := runByte_front (by exact hs) hbyte
    exact CopiedIf.imp hfront .inl

/-! The other events. -/

theorem pushPort_frame {b : Byte} (hx : pushPort b s = .next t) : t = { s with ring := t.ring } := by
  unfold pushPort at hx
  split_ifs at hx
  · exact run_keeps (P := fun u => u = { s with ring := u.ring }) hx rfl
  · cases hx; rfl

/-- The render agent's turn: nothing, or a LINE step with a free buffer (R133). -/
theorem renderTurn_cases (hr : s.runnable = true) (hx : renderTurn s = .next t) : t = s ∨ ∃ rest bufs, t = { s with
    skFree := rest, owned := none, front := s.lineFront, blinkPhase := s.linePhase
    swapReq := s.swapReq && decide (s.line ≠ 0), submitted := bufs, line := (s.line + 1) % s.cfg.frameLines } := by
  have hline : exec .line s = .next (lineRule s) := run_eq hr
  unfold renderTurn at hx
  split_ifs at hx
  · rw [hline] at hx
    cases hx
    cases hf : s.skFree with
    | nil => exact .inl (lineRule_wait hf)
    | cons id rest => exact .inr ⟨rest, _, lineRule_free (inRange_hs (runnable_iff.mp hr).2) hf⟩
  · cases hx; exact .inl rfl

/-- The reset input writes the stores when rst rises and when it falls too soon; else it writes the reset unit alone (R157, R158). -/
theorem resetPin_cases (v : Bool) :
    (v = true ∧ resetPin v s = assertReset s) ∨
    (v = false ∧ s.rsu.rst = true ∧ (s.rsu.heldL < 2 ∨ s.rsu.heldR < 2) ∧ resetPin v s = shortReset (Config.freeState s.freeDraws) s) ∨
    ∃ unit, resetPin v s = { s with rsu := unit } ∧ (s.rsu.rst = false → unit.rst = false) := by
  unfold resetPin
  split_ifs with hv hrst hrst hlong
  · exact .inr (.inr ⟨s.rsu, rfl, id⟩)
  · exact .inl ⟨hv, rfl⟩
  · exact .inr (.inr ⟨_, rfl, fun _ => rfl⟩)
  · exact .inr (.inl ⟨Bool.eq_false_iff.mpr hv, hrst, by omega, rfl⟩)
  · exact .inr (.inr ⟨s.rsu, rfl, id⟩)

/-- What a port, the sink or a clock edge may write. -/
def HostEffect (s t : State) : Prop :=
  t = { s with ring := t.ring, pendTick := t.pendTick, skFree := t.skFree, rsu := t.rsu } ∧ t.rsu.rst = s.rsu.rst

/-- All that an event can do, by who acts: the logic agent, the render agent, the reset input, or another input. -/
theorem react_cases {e : Event} (hr : s.runnable = true) (hx : react e s = .next t) :
    ((e = .logic ∨ ∃ b, e = .logicPush b) ∧ t = s.withLogic t ∧ CopiedIf (Config.anyForced s.cfg) s t) ∨
    (e = .render ∧ renderTurn s = .next t) ∨ (∃ v, e = .rst v ∧ t = resetPin v s) ∨ HostEffect s t := by
  cases e with
  | push b =>
    have ht := pushPort_frame hx
    exact .inr (.inr (.inr ⟨by rw [ht], by rw [ht]⟩))
  | tickPulse =>
    cases hx
    refine .inr (.inr (.inr ?_))
    unfold tickPort
    split_ifs <;> exact ⟨rfl, rfl⟩
  | logic => exact .inl ⟨.inl rfl, logicTurn_withLogic hx hr, logicTurn_front hr hx⟩
  | logicPush b =>
    obtain ⟨u, hu, ht⟩ := andThen_next_iff.mp hx
    have htu := pushPort_frame ht
    have hfront : t.front = u.front := by rw [htu]
    have hback : t.back = u.back := by rw [htu]
    refine .inl ⟨.inr ⟨b, rfl⟩, withLogic_trans (logicTurn_withLogic hu hr) (by rw [htu]; rfl), ?_⟩
    rw [CopiedIf, hfront, hback]
    exact logicTurn_front hr hu
  | render => exact .inr (.inl ⟨rfl, hx⟩)
  | sinkFree id =>
    simp only [react, sinkOffer] at hx
    split_ifs at hx
    cases hx
    exact .inr (.inr (.inr ⟨rfl, rfl⟩))
  | rst v => cases hx; exact .inr (.inr (.inl ⟨v, rfl, rfl⟩))
  | clkL =>
    cases hx
    refine .inr (.inr (.inr ⟨rfl, ?_⟩))
    simp only [clockL]
    split_ifs <;> rfl
  | clkR =>
    cases hx
    refine .inr (.inr (.inr ⟨rfl, ?_⟩))
    simp only [clockR]
    split_ifs <;> rfl

/-! Who writes which store. -/

/-- B's writers: the logic agent, and a reset as it begins or ends too soon (log 26). -/
theorem back_writers {e : Event} (hr : s.runnable = true) (hx : react e s = .next t) (hne : t.back ≠ s.back) :
    e = .logic ∨ (∃ b, e = .logicPush b) ∨ e = .rst true ∨ e = .rst false ∧ s.rsu.rst = true ∧ (s.rsu.heldL < 2 ∨ s.rsu.heldR < 2) := by
  rcases react_cases hr hx with ⟨he, -, -⟩ | ⟨-, ht⟩ | ⟨v, rfl, rfl⟩ | ⟨ht, -⟩
  · exact or_assoc.mp (.inl he)
  · rcases renderTurn_cases hr ht with rfl | ⟨rest, bufs, rfl⟩ <;> exact absurd rfl hne
  · rcases resetPin_cases (s := s) v with ⟨rfl, -⟩ | ⟨rfl, hrst, hheld, -⟩ | ⟨unit, heq, -⟩
    · exact .inr (.inr (.inl rfl))
    · exact .inr (.inr (.inr ⟨rfl, hrst, hheld⟩))
    · exact absurd (by rw [heq]) hne
  · exact absurd (by rw [ht]) hne

/-- F's writers, with what each leaves in F. -/
theorem front_writers {e : Event} (hr : s.runnable = true) (hx : react e s = .next t) (hne : t.front ≠ s.front) :
    e = .render ∧ s.line = 0 ∧ s.swapReq = true ∧ t.front = s.back ∧ t.back = s.back ∨
    (e = .logic ∨ ∃ b, e = .logicPush b) ∧ (s.cfg.swapOnByte = .forced ∨ s.cfg.swapOnBlink = .forced) ∧ t.front = t.back ∨
    e = .rst true ∧ t.front = (State.resetOf s.cfg).front ∨
    e = .rst false ∧ s.rsu.rst = true ∧ (s.rsu.heldL < 2 ∨ s.rsu.heldR < 2) := by
  rcases react_cases hr hx with ⟨he, -, hfront⟩ | ⟨rfl, ht⟩ | ⟨v, rfl, rfl⟩ | ⟨ht, -⟩
  · exact .inr (.inl ⟨he, hfront.resolve_left hne⟩)
  · rcases renderTurn_cases hr ht with rfl | ⟨rest, bufs, rfl⟩
    · exact absurd rfl hne
    · by_cases hswap : s.line = 0 ∧ s.swapReq = true
      · exact .inl ⟨rfl, hswap.1, hswap.2, if_pos hswap, rfl⟩
      · exact absurd (if_neg hswap) hne
  · rcases resetPin_cases (s := s) v with ⟨rfl, heq⟩ | ⟨rfl, hrst, hheld, -⟩ | ⟨unit, heq, -⟩
    · exact .inr (.inr (.inl ⟨rfl, by rw [heq]; rfl⟩))
    · exact .inr (.inr (.inr ⟨rfl, hrst, hheld⟩))
    · exact absurd (by rw [heq]) hne
  · exact absurd (by rw [ht]) hne

/-- Settles O40: a step idles or takes its first event, and an event writes B or F as `back_writers` and `front_writers` say. -/
theorem frameStoreWriters : Obligations.FrameStoreWriters := by
  unfold Obligations.FrameStoreWriters
  intro s t hx
  obtain ⟨hleg, ⟨-, rfl⟩ | ⟨e, rest, hi, he⟩⟩ := step_next_iff.mp hx
  · exact ⟨absurd rfl, absurd rfl⟩
  · have hr : ({ s with inputs := rest } : State).runnable = true := legal_runnable hleg
    exact ⟨fun hne => ⟨e, rest, hi, back_writers (s := { s with inputs := rest }) hr he hne⟩,
      fun hne => ⟨e, rest, hi, front_writers (s := { s with inputs := rest }) hr he hne⟩⟩

/-! A frame under DEFERRED. -/

theorem inRange_line (h : s.inRange = true) : s.line < s.cfg.frameLines := by
  simp only [State.inRange, Bool.and_eq_true, decide_eq_true_eq] at h
  omega

theorem react_inputs {e : Event} (hr : s.runnable = true) (hx : react e s = .next t) : t.inputs = s.inputs := by
  rcases react_cases hr hx with ⟨-, ht, -⟩ | ⟨-, ht⟩ | ⟨v, -, rfl⟩ | ⟨ht, -⟩
  · rw [ht]; rfl
  · rcases renderTurn_cases hr ht with rfl | ⟨rest, bufs, rfl⟩ <;> rfl
  · rcases resetPin_cases (s := s) v with ⟨-, heq⟩ | ⟨-, -, -, heq⟩ | ⟨unit, heq, -⟩ <;> rw [heq] <;> rfl
  · rw [ht]

/-- Out of reset an event other than the rise of rst stays out of reset, and only the render agent counts a line. -/
theorem react_released {e : Event} (hr : s.runnable = true) (hx : react e s = .next t) (hrst : s.rsu.rst = false) (he : e ≠ .rst true) :
    t.rsu.rst = false ∧ (t.line = s.line ∨ e = .render ∧ t.line = (s.line + 1) % s.cfg.frameLines) := by
  rcases react_cases hr hx with ⟨-, ht, -⟩ | ⟨rfl, ht⟩ | ⟨v, rfl, rfl⟩ | ⟨ht, hkept⟩
  · rw [ht]; exact ⟨hrst, .inl rfl⟩
  · rcases renderTurn_cases hr ht with rfl | ⟨rest, bufs, rfl⟩
    · exact ⟨hrst, .inl rfl⟩
    · exact ⟨hrst, .inr ⟨rfl, rfl⟩⟩
  · rcases resetPin_cases (s := s) v with ⟨rfl, -⟩ | ⟨-, hheld, -⟩ | ⟨unit, heq, hunit⟩
    · exact absurd rfl he
    · rw [hrst] at hheld; cases hheld
    · rw [heq]; exact ⟨hunit hrst, .inl rfl⟩
  · exact ⟨hkept.trans hrst, .inl (by rw [ht])⟩

/-- The next `n` events hold no reset and stay within the frame whose line 0 is past: once the line counter has come round to
0, no LINE event is left among them. -/
structure WithinFrame (n : Nat) (s : State) : Prop where
  onByte : s.cfg.swapOnByte = .deferred
  onBlink : s.cfg.swapOnBlink = .deferred
  released : s.rsu.rst = false
  noReset : .rst true ∉ s.inputs.take n
  lines : s.line + (s.inputs.take n).count .render ≤ s.cfg.frameLines
  comeRound : s.line = 0 → (s.inputs.take n).count .render = 0

/-- No step within the frame writes F: of its writers under DEFERRED only the LINE step of line 0 is left, and it is not to come. -/
theorem WithinFrame.step_front {n : Nat} (h : WithinFrame (n + 1) s) (hx : step s = .next t) : t.front = s.front := by
  by_contra hne
  obtain ⟨e, rest, hi, hwriter⟩ := (frameStoreWriters s t hx).2 hne
  have hmem : e ∈ s.inputs.take (n + 1) := by simp [hi]
  rcases hwriter with ⟨rfl, hline, -⟩ | ⟨-, hforced, -⟩ | ⟨rfl, -⟩ | ⟨-, hrst, -⟩
  · exact List.count_eq_zero.mp (h.comeRound hline) hmem
  · simp [h.onByte, h.onBlink] at hforced
  · exact h.noReset hmem
  · simp [h.released] at hrst

theorem WithinFrame.step {n : Nat} (h : WithinFrame (n + 1) s) (hx : step s = .next t) : WithinFrame n t := by
  have hcfg := step_cfg hx
  obtain ⟨hleg, ⟨hi, rfl⟩ | ⟨e, rest, hi, he⟩⟩ := step_next_iff.mp hx
  · exact { h with
      noReset := by simp [hi]
      lines := by simpa [hi] using h.lines
      comeRound := by simp [hi] }
  · obtain ⟨onByte, onBlink, released, noReset, lines, comeRound⟩ := h
    have hr : ({ s with inputs := rest } : State).runnable = true := legal_runnable hleg
    have hinputs : t.inputs = rest := react_inputs hr he
    simp only [hi, List.take_succ_cons, List.mem_cons, not_or, List.count_cons] at noReset lines comeRound
    obtain ⟨hrst, hline⟩ := react_released hr he released (Ne.symm noReset.1)
    have hlt : s.line < s.cfg.frameLines := inRange_line (runnable_iff.mp hr).2
    have hcount : t.line + (rest.take n).count .render ≤ s.cfg.frameLines ∧ (t.line = 0 → (rest.take n).count .render = 0) := by
      rcases hline with hline | ⟨rfl, hline⟩
      · have hline : t.line = s.line := hline
        exact ⟨by omega, fun h0 => by omega⟩
      · have hline : t.line = (s.line + 1) % s.cfg.frameLines := hline
        simp only [beq_self_eq_true, if_true] at lines
        rcases Nat.lt_or_ge (s.line + 1) s.cfg.frameLines with hmore | hlast
        · rw [Nat.mod_eq_of_lt hmore] at hline
          exact ⟨by omega, fun h0 => by omega⟩
        · rw [show s.line + 1 = s.cfg.frameLines by omega, Nat.mod_self] at hline
          exact ⟨by omega, fun _ => by omega⟩
    rw [← hinputs, ← hcfg] at hcount
    exact ⟨hcfg ▸ onByte, hcfg ▸ onBlink, hrst, hinputs ▸ noReset.2, hcount.1, hcount.2⟩

theorem WithinFrame.run_front {n : Nat} (h : WithinFrame n s) (hx : Host.Core.run Sys2Proof.core n s = .next t) : t.front = s.front := by
  induction n generalizing s with
  | zero => cases hx; rfl
  | succ n ih =>
    simp only [Host.Core.run] at hx
    split at hx
    · rename_i u hu
      exact (ih (h.step hu) hx).trans (h.step_front hu)
    · cases hx
    · cases hx

/-- Settles O42: each step within the frame leaves F and keeps `WithinFrame`. -/
theorem deferredFrameIsStable : Obligations.DeferredFrameIsStable := by
  unfold Obligations.DeferredFrameIsStable
  intro n s t onByte onBlink hline released noReset lines hx
  exact WithinFrame.run_front ⟨onByte, onBlink, released, noReset, lines, fun h0 => absurd h0 hline⟩ hx

end Sys2Proof.Machine
end

section
/-! PROOFS. Memory (20_memory.md): the linear addresses of R45 (O59). -/

namespace Sys2Proof.Machine

variable {s : State} {sp : Space} {cfg : Config} {a n : Nat}

/-- R45's map: elements of one width, aligned, inside the store. -/
theorem has_iff : sp.has cfg a n = true ↔ n = sp.width ∧ a % sp.width = 0 ∧ a < sp.size cfg := by
  simp only [Space.has, Bool.and_eq_true, decide_eq_true_eq, and_assoc]

theorem has_byte (hw : sp.width = 1) (ha : a < sp.size cfg) : sp.has cfg a 1 = true :=
  has_iff.mpr ⟨hw.symm, by rw [hw, Nat.mod_one], ha⟩

theorem has_word (hw : sp.width = 4) (hal : 4 ∣ a) (ha : a < sp.size cfg) : sp.has cfg a 4 = true :=
  has_iff.mpr ⟨hw.symm, by rw [hw]; exact Nat.mod_eq_zero_of_dvd hal, ha⟩

/-! The elements. -/

theorem memRead_chr {r c : Nat} (h : inGrid s.cfg r c) :
    memRead s .backChr (chrAddr s.cfg r c) 1 = .ok ((Store.chrAt s.cfg s.back r c).setWidth 32) ∧
    memRead s .frontChr (chrAddr s.cfg r c) 1 = .ok ((Store.chrAt s.cfg s.front r c).setWidth 32) := by
  have hlt := chrAddr_lt h.1 h.2
  exact ⟨memRead_eq (by decide) (by decide) (has_byte rfl hlt), memRead_eq (by decide) (by decide) (has_byte rfl hlt)⟩

theorem memRead_pl {p r w : Nat} (hp : p < 3) (hr : r < s.cfg.rows) (hw : w < s.cfg.wpr) :
    memRead s .backPl (plAddr s.cfg p r w) 4 = .ok (Store.plAt s.cfg s.back p r w) ∧
    memRead s .frontPl (plAddr s.cfg p r w) 4 = .ok (Store.plAt s.cfg s.front p r w) := by
  have hlt : plAddr s.cfg p r w < Space.size s.cfg .backPl := Nat.lt_of_le_of_lt (Nat.le_add_right _ 3) (plAddr_lt hp hr hw)
  have hal : 4 ∣ plAddr s.cfg p r w := Nat.dvd_mul_right 4 _
  exact ⟨memRead_eq (by decide) (by decide) (has_word rfl hal hlt), memRead_eq (by decide) (by decide) (has_word rfl hal hlt)⟩

theorem memRead_font (ch : Byte) {gr : Nat} (hgr : gr < s.cfg.glyphH) :
    memRead s .font (ch.toNat * s.cfg.glyphH + gr) 1 = .ok ((fontAt s.cfg ch gr).setWidth 32) := by
  have hdiv : (ch.toNat * s.cfg.glyphH + gr) / s.cfg.glyphH = ch.toNat := by
    rw [Nat.mul_comm, Nat.mul_add_div (by omega), Nat.div_eq_of_lt hgr, Nat.add_zero]
  have hmod : (ch.toNat * s.cfg.glyphH + gr) % s.cfg.glyphH = gr := by
    rw [Nat.mul_comm, Nat.mul_add_mod, Nat.mod_eq_of_lt hgr]
  rw [memRead, if_pos (has_byte rfl (mul_add_lt ch.isLt hgr)), peek, hdiv, hmod, BitVec.ofNat_toNat, BitVec.setWidth_eq]

theorem memRead_lut (cn fn : Nibble) {k : Nat} (hk : k < 2) :
    memRead s .lut (4 * (2 * (16 * cn.toNat + fn.toNat) + k)) 4 = .ok (lutWord s.cfg cn fn k) := by
  have hcn := cn.isLt
  have hfn := fn.isLt
  have hlt : 4 * (2 * (16 * cn.toNat + fn.toNat) + k) < Space.size s.cfg .lut := by
    show _ < 2048
    omega
  rw [memRead, if_pos (has_word rfl (Nat.dvd_mul_right 4 _) hlt), peek,
    show 4 * (2 * (16 * cn.toNat + fn.toNat) + k) / 8 / 16 = cn.toNat by omega,
    show 4 * (2 * (16 * cn.toNat + fn.toNat) + k) / 8 % 16 = fn.toNat by omega,
    show 4 * (2 * (16 * cn.toNat + fn.toNat) + k) / 4 % 2 = k by omega]
  simp only [BitVec.ofNat_toNat, BitVec.setWidth_eq]

/-- Byte i of the three of a snapshot cell (R43, R45). -/
theorem memRead_snap {m : MenuKind} {j i : Nat} (hj : j < (s.cfg.menu m).w * (s.cfg.menu m).h) (hi : i < 3) :
    memRead s .snap (3 * j + i) 1 = .ok ((Memory.get (unlisted s.cfg .snap) s.snap (3 * j + i)).setWidth 32) := by
  have hlt := snap_addr_lt hj
  exact memRead_eq (by decide) (by decide) (has_byte rfl (by omega))

/-! No other address. -/

/-- SNAP ends with the largest of the four menus. -/
theorem snapCells_eq_area (cfg : Config) : ∃ m, snapCells cfg = (cfg.menu m).w * (cfg.menu m).h := by
  unfold snapCells
  rcases max_choice (max (cfg.menus.fgPick.w * cfg.menus.fgPick.h) (cfg.menus.bgPick.w * cfg.menus.bgPick.h))
    (max (cfg.menus.style.w * cfg.menus.style.h) (cfg.menus.theme.w * cfg.menus.theme.h)) with h | h <;> rw [h]
  · rcases max_choice (cfg.menus.fgPick.w * cfg.menus.fgPick.h) (cfg.menus.bgPick.w * cfg.menus.bgPick.h) with h | h <;> rw [h]
    · exact ⟨.fgPick, rfl⟩
    · exact ⟨.bgPick, rfl⟩
  · rcases max_choice (cfg.menus.style.w * cfg.menus.style.h) (cfg.menus.theme.w * cfg.menus.theme.h) with h | h <;> rw [h]
    · exact ⟨.style, rfl⟩
    · exact ⟨.theme, rfl⟩

/-- An access of a byte store that is no byte of it has no element. -/
theorem memRead_outside_bytes (hw : sp.width = 1) (h : ¬(n = 1 ∧ a < sp.size s.cfg)) : memRead s sp a n = .error (.noSuchAddress sp a) :=
  memRead_outside fun hh => by
    obtain ⟨hn, -, ha⟩ := has_iff.mp hh
    exact h ⟨hn.trans hw, ha⟩

/-- An access of a word store that is no aligned word of it has no element. -/
theorem memRead_outside_words (hw : sp.width = 4) (h : ¬(n = 4 ∧ a % 4 = 0 ∧ a < sp.size s.cfg)) :
    memRead s sp a n = .error (.noSuchAddress sp a) :=
  memRead_outside fun hh => by
    obtain ⟨hn, hal, ha⟩ := has_iff.mp hh
    exact h ⟨hn.trans hw, hw ▸ hal, ha⟩

theorem memRead_outside_snap (h : n ≠ 1 ∨ ∀ m, 3 * ((s.cfg.menu m).w * (s.cfg.menu m).h) ≤ a) :
    memRead s .snap a n = .error (.noSuchAddress .snap a) := by
  refine memRead_outside_bytes rfl fun ⟨hn, ha⟩ => ?_
  obtain ⟨m, hm⟩ := snapCells_eq_area s.cfg
  have hlt : a < 3 * snapCells s.cfg := ha
  rcases h with hne | hall
  · exact hne hn
  · have hle := hall m
    omega

/-- Settles O59, store by store: each element by its address, then the addresses and widths of no element. -/
theorem memReadElements : Obligations.MemReadElements := by
  unfold Obligations.MemReadElements
  intro s _
  refine ⟨fun r c h => memRead_chr h, fun p r w hp hr hw => memRead_pl hp hr hw, fun ch gr => memRead_font ch,
    fun cn fn k => memRead_lut cn fn, fun m j hj => ?_,
    fun a n h => ⟨memRead_outside_bytes rfl h, memRead_outside_bytes rfl h⟩,
    fun a n h => ⟨memRead_outside_words rfl h, memRead_outside_words rfl h⟩,
    fun a n h => memRead_outside_bytes rfl h, fun a n h => memRead_outside_words rfl h, fun a n => memRead_outside_snap⟩
  rw [Nat.mul_comm j 3]
  exact ⟨memRead_snap hj (i := 0) (by decide), ⟨_, memRead_snap hj (i := 1) (by decide), rfl⟩,
    ⟨_, memRead_snap hj (i := 2) (by decide), rfl⟩⟩

end Sys2Proof.Machine
end

section
/-! PROOFS. Encoding (30_encoding.md): the class of each kind of byte (O1, O2, O5), and decode and encode undo each other (O3, O4). -/

namespace Sys2Proof.Machine

variable {s : State} {cfg : Config} {m : Mode} {k : MenuKind} {i : Instr} {b : Byte} {d : BitVec 4}

/-! The bytes of the digits, and the bytes that R7 keeps apart. -/

theorem isDigit_iff : isDigit b = true ↔ 0x30 ≤ b.toNat ∧ b.toNat ≤ 0x39 := by
  simp only [isDigit, decide_eq_true_eq]

theorem isEarly_of_isDigit (h : isDigit b = true) : isEarly b = false := by
  rw [isDigit_iff] at h
  refine isEarly_eq_false_iff.mpr ⟨?_, ?_, ?_⟩ <;> rintro rfl <;> revert h <;> decide

theorem digitByte_toNat (d : BitVec 4) : (digitByte d).toNat = 48 + d.toNat := by
  have hd := d.isLt
  rw [digitByte, BitVec.toNat_append, ← Nat.shiftLeft_add_eq_or_of_lt hd]
  simp

theorem isDigit_digitByte (h : digitOk d = true) : isDigit (digitByte d) = true := by
  simp only [digitOk, decide_eq_true_eq] at h
  rw [isDigit_iff, digitByte_toNat]
  omega

@[simp] theorem digitOf_digitByte (d : BitVec 4) : digitOf (digitByte d) = d := by
  have hd := d.isLt
  apply BitVec.eq_of_toNat_eq
  rw [digitOf, BitVec.toNat_setWidth, digitByte_toNat]
  omega

theorem digitByte_digitOf (h : isDigit b = true) : digitByte (digitOf b) = b := by
  rw [isDigit_iff] at h
  apply BitVec.eq_of_toNat_eq
  rw [digitByte_toNat, digitOf, BitVec.toNat_setWidth]
  omega

theorem mem_reservedBytes_iff : b ∈ Config.reservedBytes cfg ↔ isEarly b = true ∨ cfg.isEntry b = true := by
  simp [Config.reservedBytes, isEarly, Config.isEntry, or_assoc]

theorem not_early_not_entry_of_isBs (hc : configWf cfg = true) (h : cfg.isBs b = true) :
    isEarly b = false ∧ cfg.isEntry b = false := by
  have hbs : b ∈ cfg.bsCodes := by simpa [Config.isBs] using h
  have hres : b ∉ Config.reservedBytes cfg := fun hmem => config_reserved_not_bs hc b hmem hbs
  simpa [mem_reservedBytes_iff] using hres

theorem isEarly_of_isEntry (hc : configWf cfg = true) (h : cfg.isEntry b = true) : isEarly b = false := by
  have hne := config_reserved_distinct hc
  simp only [Config.reservedBytes, List.pairwise_cons, List.forall_mem_cons] at hne
  obtain ⟨⟨-, -, hcr⟩, ⟨-, hlf⟩, hesc, -⟩ := hne
  simp only [Config.isEntry, Bool.or_eq_true, beq_iff_eq] at h
  refine isEarly_eq_false_iff.mpr ⟨?_, ?_, ?_⟩ <;> rintro rfl <;> simp_all

/-! What R60 answers, one lemma per kind of byte. -/

theorem decode_cr (hm : m = .normal ∨ m = .esc ∨ m = .csi) : decode cfg m 0x0D = .cr := by
  rcases hm with rfl | rfl | rfl <;> rfl

theorem decode_lf (hm : m = .normal ∨ m = .esc ∨ m = .csi) : decode cfg m 0x0A = .lf := by
  rcases hm with rfl | rfl | rfl <;> rfl

theorem decode_esc (hm : m = .normal ∨ m = .esc ∨ m = .csi) : decode cfg m 0x1B = .escEntry := by
  rcases hm with rfl | rfl | rfl <;> rfl

/-- Steps 1 and 2 of R60 pass on every byte but CR, LF and ESC. -/
theorem earlyFirst_of_not_early (h : isEarly b = false) (i : Instr) :
    (if b = Ascii.cr then .cr else if b = Ascii.lf then .lf else if b = Ascii.esc then .escEntry else i) = i := by
  obtain ⟨hcr, hlf, hesc⟩ := isEarly_eq_false_iff.mp h
  rw [if_neg hcr, if_neg hlf, if_neg hesc]

theorem decode_normal_of_not_early (h : isEarly b = false) : decode cfg .normal b = decodeNormal cfg b :=
  earlyFirst_of_not_early h _

theorem decode_esc_of_not_early (h : isEarly b = false) : decode cfg .esc b = decodeEsc b := earlyFirst_of_not_early h _

theorem decode_csi_of_not_early (h : isEarly b = false) : decode cfg .csi b = decodeCsi b := earlyFirst_of_not_early h _

theorem decode_escAbort (h : aborts b = true) : decode cfg .esc b = .escAbort b := by
  simp only [aborts, Bool.not_eq_true', Bool.or_eq_false_iff, beq_eq_false_iff_ne] at h
  obtain ⟨hbracket, hearly⟩ := h
  rw [decode_esc_of_not_early hearly, decodeEsc, if_neg hbracket]

theorem decode_csiDigit (h : isDigit b = true) : decode cfg .csi b = .csiDigit (digitOf b) := by
  rw [decode_csi_of_not_early (isEarly_of_isDigit h), decodeCsi, if_pos h]

theorem decode_csiUnknown (h : unknownFinal b = true) : decode cfg .csi b = .csiUnknown b := by
  simp only [unknownFinal, Bool.not_eq_true', Bool.or_eq_false_iff, beq_eq_false_iff_ne] at h
  obtain ⟨⟨⟨hdigit, hsep⟩, hearly⟩, hsel⟩ := h
  have hfinal : decodeFinal b = .csiUnknown b := by
    simp only [Ascii.selectors, List.contains_eq_mem, decide_eq_false_iff_not, List.mem_cons, not_or] at hsel
    simp only [decodeFinal, hsel, if_false]
  rw [decode_csi_of_not_early hearly, decodeCsi, if_neg (by simp [hdigit]), if_neg hsep, hfinal]

/-- The four modal entry bytes are distinct, so each opens its own menu. -/
theorem decode_entry (hc : configWf cfg = true) :
    decode cfg .normal cfg.mbFg = .openFg ∧ decode cfg .normal cfg.mbBg = .openBg ∧
    decode cfg .normal cfg.mbStyle = .openStyle ∧ decode cfg .normal cfg.mbTheme = .openTheme := by
  have hnormal : ∀ b, cfg.isEntry b = true → decode cfg .normal b = decodeNormal cfg b := fun _ hb =>
    decode_normal_of_not_early (isEarly_of_isEntry hc hb)
  have hne := config_reserved_distinct hc
  simp only [Config.reservedBytes, List.pairwise_cons, List.forall_mem_cons] at hne
  obtain ⟨-, -, -, ⟨hbg, hstyle, htheme, -⟩, ⟨hstyle', htheme', -⟩, ⟨htheme'', -⟩, -⟩ := hne
  refine ⟨?_, ?_, ?_, ?_⟩ <;> rw [hnormal _ (by simp [Config.isEntry]), decodeNormal]
  · rw [if_pos rfl]
  · rw [if_neg hbg.symm, if_pos rfl]
  · rw [if_neg hstyle.symm, if_neg hstyle'.symm, if_pos rfl]
  · rw [if_neg htheme.symm, if_neg htheme'.symm, if_neg htheme''.symm, if_pos rfl]

/-- Past the entry bytes, NORMAL mode edits or prints. -/
theorem decode_not_entry (hearly : isEarly b = false) (hentry : cfg.isEntry b = false) :
    decode cfg .normal b = if cfg.isBs b then .bs b else .print b := by
  simp only [Config.isEntry, Bool.or_eq_false_iff, beq_eq_false_iff_ne] at hentry
  obtain ⟨⟨⟨hfg, hbg⟩, hstyle⟩, htheme⟩ := hentry
  rw [decode_normal_of_not_early hearly, decodeNormal, if_neg hfg, if_neg hbg, if_neg hstyle, if_neg htheme]

theorem decode_bs (hc : configWf cfg = true) (h : cfg.isBs b = true) : decode cfg .normal b = .bs b := by
  obtain ⟨hearly, hentry⟩ := not_early_not_entry_of_isBs hc h
  rw [decode_not_entry hearly hentry, if_pos h]

theorem decode_print (h : printable cfg b = true) : decode cfg .normal b = .print b := by
  simp only [printable, Bool.not_eq_true', Bool.or_eq_false_iff] at h
  obtain ⟨⟨hearly, hentry⟩, hbs⟩ := h
  rw [decode_not_entry hearly hentry, if_neg (by simp [hbs])]

theorem ne_esc_of_isDigit (h : isDigit b = true) : b ≠ Ascii.esc := by
  obtain ⟨-, -, hesc⟩ := isEarly_eq_false_iff.mp (isEarly_of_isDigit h)
  exact hesc

theorem decode_pickDigit (hk : k = .fgPick ∨ k = .bgPick) (h : isDigit b = true) :
    decode cfg (.menu k) b = .pickDigit (digitOf b) := by
  rw [decode, decodeMenu.eq_def, if_neg (ne_esc_of_isDigit h)]
  rcases hk with rfl | rfl <;> exact if_pos h

theorem decode_styleSelect (h : isDigit b = true) : decode cfg (.menu .style) b = .styleSelect (digitOf b) := by
  rw [decode, decodeMenu.eq_def, if_neg (ne_esc_of_isDigit h)]
  exact if_pos h

theorem decode_themeSelect (h : isDigit b = true) : decode cfg (.menu .theme) b = .themeSelect (digitOf b) := by
  rw [decode, decodeMenu.eq_def, if_neg (ne_esc_of_isDigit h)]
  exact if_pos h

theorem decode_pickBs (hc : configWf cfg = true) (hk : k = .fgPick ∨ k = .bgPick) (hbs : cfg.isBs b = true)
    (hdigit : isDigit b = false) : decode cfg (.menu k) b = .pickBs b := by
  obtain ⟨hearly, -⟩ := not_early_not_entry_of_isBs hc hbs
  obtain ⟨-, -, hesc⟩ := isEarly_eq_false_iff.mp hearly
  rw [decode, decodeMenu.eq_def, if_neg hesc]
  rcases hk with rfl | rfl <;> simp [hdigit, hbs]

theorem decode_modalIgnore (h : ignoredBy cfg k b = true) : decode cfg (.menu k) b = .modalIgnore b := by
  simp only [ignoredBy, Bool.not_eq_true', Bool.or_eq_false_iff, beq_eq_false_iff_ne] at h
  obtain ⟨⟨hesc, hdigit⟩, hbs⟩ := h
  rw [decode, decodeMenu.eq_def, if_neg hesc]
  cases k with
  | fgPick | bgPick =>
    have hbs : cfg.isBs b = false := hbs
    simp [hdigit, hbs]
  | style | theme => simp [hdigit]

/-! Decode undoes encode. -/

/-- An instruction that a mode can read is one byte, and that byte reads as it. -/
theorem exists_byte_of_wfIn (hc : configWf cfg = true) (hw : i.wfIn cfg m = true) :
    ∃ b, encode cfg i = [b] ∧ decode cfg m b = i := by
  cases i with
  | cr | lf | escEntry =>
    have hm : m = .normal ∨ m = .esc ∨ m = .csi := by
      simpa only [Instr.wfIn, Bool.or_eq_true, beq_iff_eq, or_assoc] using hw
    exact ⟨_, rfl, by simp only [decode_cr hm, decode_lf hm, decode_esc hm]⟩
  | escCsi | csiSep | csiCuu | csiCud | csiCuf | csiCub | csiCup | csiEd | csiEl | csiSgr | csiScp | csiRcp =>
    obtain rfl := beq_iff_eq.mp hw
    exact ⟨_, rfl, rfl⟩
  | escAbort x =>
    obtain ⟨rfl, hx⟩ : m = .esc ∧ aborts x = true := by simpa [Instr.wfIn] using hw
    exact ⟨x, rfl, decode_escAbort hx⟩
  | csiDigit d =>
    obtain ⟨rfl, hd⟩ : m = .csi ∧ digitOk d = true := by simpa [Instr.wfIn] using hw
    exact ⟨_, rfl, by rw [decode_csiDigit (isDigit_digitByte hd), digitOf_digitByte]⟩
  | csiUnknown b =>
    obtain ⟨rfl, hb⟩ : m = .csi ∧ unknownFinal b = true := by simpa [Instr.wfIn] using hw
    exact ⟨b, rfl, decode_csiUnknown hb⟩
  | openFg | openBg | openStyle | openTheme =>
    obtain rfl := beq_iff_eq.mp hw
    obtain ⟨hfg, hbg, hstyle, htheme⟩ := decode_entry hc
    exact ⟨_, rfl, by assumption⟩
  | bs b =>
    obtain ⟨rfl, hb⟩ : m = .normal ∧ cfg.isBs b = true := by simpa [Instr.wfIn] using hw
    exact ⟨b, rfl, decode_bs hc hb⟩
  | print b =>
    obtain ⟨rfl, hb⟩ : m = .normal ∧ printable cfg b = true := by simpa [Instr.wfIn] using hw
    exact ⟨b, rfl, decode_print hb⟩
  | modalCancel =>
    cases m with
    | menu k => exact ⟨_, rfl, rfl⟩
    | normal | esc | csi => cases hw
  | pickDigit d =>
    obtain ⟨hm, hd⟩ : (m = .menu .fgPick ∨ m = .menu .bgPick) ∧ digitOk d = true := by simpa [Instr.wfIn] using hw
    have hread : decode cfg m (digitByte d) = .pickDigit (digitOf (digitByte d)) := by
      rcases hm with rfl | rfl
      · exact decode_pickDigit (.inl rfl) (isDigit_digitByte hd)
      · exact decode_pickDigit (.inr rfl) (isDigit_digitByte hd)
    exact ⟨_, rfl, by rw [hread, digitOf_digitByte]⟩
  | pickBs b =>
    obtain ⟨⟨hm, hbs⟩, hdigit⟩ :
        ((m = .menu .fgPick ∨ m = .menu .bgPick) ∧ cfg.isBs b = true) ∧ isDigit b = false := by simpa [Instr.wfIn] using hw
    rcases hm with rfl | rfl
    · exact ⟨b, rfl, decode_pickBs hc (.inl rfl) hbs hdigit⟩
    · exact ⟨b, rfl, decode_pickBs hc (.inr rfl) hbs hdigit⟩
  | styleSelect d =>
    obtain ⟨rfl, hd⟩ : m = .menu .style ∧ digitOk d = true := by simpa [Instr.wfIn] using hw
    exact ⟨_, rfl, by rw [decode_styleSelect (isDigit_digitByte hd), digitOf_digitByte]⟩
  | themeSelect d =>
    obtain ⟨rfl, hd⟩ : m = .menu .theme ∧ digitOk d = true := by simpa [Instr.wfIn] using hw
    exact ⟨_, rfl, by rw [decode_themeSelect (isDigit_digitByte hd), digitOf_digitByte]⟩
  | modalIgnore b =>
    cases m with
    | menu k => exact ⟨b, rfl, decode_modalIgnore hw⟩
    | normal | esc | csi => cases hw
  | tick | line | deferredCopy | forcedCopy | ringPush b | ringPop => cases hw

/-- Settles O3: one byte, which reads as the instruction, and the reader takes just that byte. -/
theorem decodeOfEncode : Obligations.DecodeOfEncode := by
  unfold Obligations.DecodeOfEncode
  intro cfg m i rest hc hw
  obtain ⟨b, henc, hdec⟩ := exists_byte_of_wfIn hc hw
  refine ⟨b, henc, hdec, ?_⟩
  rw [henc, List.singleton_append, decodeBytes, hdec]

/-! Encode undoes decode. -/

theorem encode_decodeNormal (cfg : Config) (b : Byte) : encode cfg (decodeNormal cfg b) = [b] := by
  unfold decodeNormal
  split_ifs <;> simp [encode, *]

theorem encode_decodeEsc (cfg : Config) (b : Byte) : encode cfg (decodeEsc b) = [b] := by
  unfold decodeEsc
  split_ifs <;> simp [encode, *]

theorem encode_decodeFinal (cfg : Config) (b : Byte) : encode cfg (decodeFinal b) = [b] := by
  unfold decodeFinal
  split_ifs <;> simp [encode, *]

theorem encode_decodeCsi (cfg : Config) (b : Byte) : encode cfg (decodeCsi b) = [b] := by
  unfold decodeCsi
  split_ifs with hdigit hsep
  · rw [encode, digitByte_digitOf hdigit]
  · rw [hsep]; rfl
  · exact encode_decodeFinal cfg b

theorem encode_decodeMenu (cfg : Config) (k : MenuKind) (b : Byte) : encode cfg (decodeMenu cfg k b) = [b] := by
  unfold decodeMenu
  by_cases hesc : b = Ascii.esc
  · rw [if_pos hesc, hesc]; rfl
  · rw [if_neg hesc]
    by_cases hdigit : isDigit b = true
    · cases k <;> simp [encode, hdigit, digitByte_digitOf hdigit]
    · cases k with
      | fgPick | bgPick => by_cases hbs : cfg.isBs b = true <;> simp [encode, hdigit, hbs]
      | style | theme => simp [encode, hdigit]

/-- Steps 1 and 2 of R60 keep the byte, and so does whatever comes after them. -/
theorem encode_earlyFirst (hi : encode cfg i = [b]) :
    encode cfg (if b = Ascii.cr then .cr else if b = Ascii.lf then .lf else if b = Ascii.esc then .escEntry else i) = [b] := by
  split_ifs with hcr hlf hesc
  · rw [hcr]; rfl
  · rw [hlf]; rfl
  · rw [hesc]; rfl
  · exact hi

/-- No class loses its byte. -/
theorem encode_decode (cfg : Config) (m : Mode) (b : Byte) : encode cfg (decode cfg m b) = [b] := by
  cases m with
  | normal => exact encode_earlyFirst (encode_decodeNormal cfg b)
  | esc => exact encode_earlyFirst (encode_decodeEsc cfg b)
  | csi => exact encode_earlyFirst (encode_decodeCsi cfg b)
  | menu k => exact encode_decodeMenu cfg k b

/-- Settles O4: a well-formed instruction of the byte is what the byte reads as, so there is no second one. -/
theorem everyByteHasOneClass : Obligations.EveryByteHasOneClass := by
  unfold Obligations.EveryByteHasOneClass
  intro cfg m b hc
  refine ⟨decode_wfIn cfg m b, encode_decode cfg m b, fun i hw henc => ?_⟩
  obtain ⟨b', henc', hdec⟩ := exists_byte_of_wfIn hc hw
  obtain rfl : b' = b := List.singleton_injective (henc'.symm.trans henc)
  exact hdec.symm

/-! The selector table, the opcode table's words, and the menu's routing. -/

/-- Settles O1: the ten selectors by R61's table, all other finals by `decode_csiUnknown`. -/
theorem finalSelectorTable : Obligations.FinalSelectorTable := by
  unfold Obligations.FinalSelectorTable
  intro cfg
  refine ⟨rfl, rfl, rfl, rfl, rfl, rfl, rfl, rfl, rfl, rfl, fun b hdigit hsep hcr hlf hesc hsel => decode_csiUnknown ?_⟩
  have hdigit : isDigit b = false := by rwa [← Bool.not_eq_true, isDigit_iff]
  have hearly : isEarly b = false := isEarly_eq_false_iff.mpr ⟨hcr, hlf, hesc⟩
  have hsep : (b == Ascii.semicolon) = false := beq_eq_false_iff_ne.mpr hsep
  have hsel : Ascii.selectors.contains b = false := by
    rw [List.contains_eq_mem]
    exact decide_eq_false hsel
  rw [unknownFinal, hdigit, hsep, hearly, hsel]
  rfl

/-- Settles O2, each word by running the decoder. -/
theorem specWordsDecode : Obligations.SpecWordsDecode := by
  unfold Obligations.SpecWordsDecode
  decide

theorem mode_of_modal_none (h : s.modal = none) : s.mode = .normal ∨ s.mode = .esc ∨ s.mode = .csi := by
  simp only [mode_eq_normal_iff, mode_eq_esc_iff, mode_eq_csi_iff, h, true_and]
  cases s.escMode <;> cases s.csiMode <;> decide

/-- An open menu of any kind ignores what is no digit, no ESC and no backspace (R105). -/
theorem decode_menu_ignores (k : MenuKind) (hdigit : isDigit b = false) (hesc : b ≠ Ascii.esc) (hbs : b ∉ cfg.bsCodes) :
    decode cfg (.menu k) b = .modalIgnore b := by
  refine decode_modalIgnore ?_
  have hesc : (b == Ascii.esc) = false := beq_eq_false_iff_ne.mpr hesc
  have hbs : cfg.isBs b = false := by simpa [Config.isBs] using hbs
  rw [ignoredBy, hesc, hdigit, hbs, Bool.and_false]
  rfl

/-- Settles O5: the mode is a parser mode exactly when no menu is open. -/
theorem menuRoutingFirst : Obligations.MenuRoutingFirst := by
  unfold Obligations.MenuRoutingFirst
  intro s hc
  refine ⟨fun hnone => ?_, fun k hk => ?_⟩
  · have hm := mode_of_modal_none hnone
    exact ⟨decode_cr hm, decode_lf hm, decode_esc hm⟩
  · rw [mode_eq_menu_iff.mpr hk]
    have hcr := config_reserved_not_bs hc Ascii.cr (by simp [Config.reservedBytes])
    have hlf := config_reserved_not_bs hc Ascii.lf (by simp [Config.reservedBytes])
    refine ⟨rfl, decode_menu_ignores k (by decide) (by decide) hcr, decode_menu_ignores k (by decide) (by decide) hlf,
      fun b hdigit hesc hbs => decode_menu_ignores k ?_ hesc hbs⟩
    rwa [← Bool.not_eq_true, isDigit_iff]

end Sys2Proof.Machine
end

section
/-! PROOFS. Encoding (30_encoding.md): decimal fields typed in CSI mode become the operands of a final byte (O21). -/

namespace Sys2Proof.Machine

variable {s : State} {pb : ParseBuf} {done : List (List (BitVec 4))} {cur : List (BitVec 4)}

/-- The parse buffer after the finished fields `done` and the digits `cur` of the field being typed (R62, R75, R76). -/
structure ParseBuf.Holds (pb : ParseBuf) (done : List (List (BitVec 4))) (cur : List (BitVec 4)) : Prop where
  count : pb.pcount = min 4 done.length
  kept : ∀ i, i < pb.pcount → (pb.params.get i).toNat = min (decimalValue (done.getD i [])) 65535
  acc : pb.acc.toNat = min (decimalValue cur) 65535
  pending : pb.dpend = true ↔ cur ≠ []

theorem sat16_toNat (v : Nat) : (sat16 v).toNat = min v 65535 := by
  rw [sat16, BitVec.toNat_ofNat]
  omega

theorem decimalValue_concat (ds : List (BitVec 4)) (d : BitVec 4) :
    decimalValue (ds ++ [d]) = 10 * decimalValue ds + d.toNat := by
  rw [decimalValue, List.foldl_append, List.foldl_cons, List.foldl_nil, decimalValue]

theorem ParseBuf.holds_empty : ParseBuf.empty.Holds [] [] where
  count := rfl
  kept i hi := absurd hi (Nat.not_lt_zero i)
  acc := rfl
  pending := by simp [ParseBuf.empty]

/-- Saturating after each digit is saturating once (R62). -/
theorem ParseBuf.Holds.digit (h : pb.Holds done cur) (d : BitVec 4) : (pb.digit d).Holds done (cur ++ [d]) where
  count := h.count
  kept := h.kept
  acc := by
    have hacc := h.acc
    rw [ParseBuf.digit, sat16_toNat, decimalValue_concat]
    omega
  pending := by simp [ParseBuf.digit]

/-- A separator ends the field; a fifth is dropped (R76, R77). -/
theorem ParseBuf.Holds.finalize (h : pb.Holds done cur) : pb.finalize.Holds (done ++ [cur]) [] where
  count := by
    have hcount := h.count
    rw [finalize_eq, List.length_append, List.length_singleton]
    split <;> simp only <;> omega
  kept i := by
    have hcount := h.count
    rw [finalize_eq]
    by_cases hlt : pb.pcount < 4
    · simp only [if_pos hlt]
      intro hi
      rw [Params.get_set _ _ (by omega) hlt]
      by_cases hlast : i = pb.pcount
      · obtain rfl : i = done.length := by omega
        rw [if_pos hlast, h.acc, List.getD_append_right _ _ _ _ le_rfl, Nat.sub_self, List.getD_cons_zero]
      · rw [if_neg hlast, h.kept i (by omega), List.getD_append _ _ _ _ (by omega)]
    · simp only [if_neg hlt]
      intro hi
      rw [h.kept i hi, List.getD_append _ _ _ _ (by omega)]
  acc := by rw [finalize_eq]; rfl
  pending := by simp [finalize_eq]

/-! Typing the fields. -/

theorem runnable_with_pb (h : s.runnable = true) (hpb : pb.pcount ≤ 4) : { s with pb := pb }.runnable = true := by
  simp only [State.runnable, State.inRange, Bool.and_eq_true, decide_eq_true_eq] at h ⊢
  tauto

theorem ParseBuf.Holds.pcount_le (h : pb.Holds done cur) : pb.pcount ≤ 4 := h.count ▸ Nat.min_le_left ..

theorem exec_csiDigit_of_runnable (h : s.runnable = true) (d : BitVec 4) :
    exec (.csiDigit d) s = .next { s with pb := s.pb.digit d } := run_eq h

theorem exec_csiSep_of_runnable (h : s.runnable = true) : exec .csiSep s = .next { s with pb := s.pb.finalize } := run_eq h

theorem execAll_append (is js : List Instr) (s : State) :
    execAll (is ++ js) s = andThen (execAll is s) (execAll js) := by
  induction is generalizing s with
  | nil => rfl
  | cons i is ih =>
    rw [List.cons_append, execAll, execAll]
    cases exec i s with
    | next t => exact ih t
    | fault r => rfl
    | refused r => rfl

theorem execAll_digits (ds : List (BitVec 4)) (h : s.runnable = true) (hp : s.pb.Holds done cur) :
    ∃ pb, execAll (ds.map .csiDigit) s = .next { s with pb := pb } ∧ pb.Holds done (cur ++ ds) := by
  induction ds generalizing s cur with
  | nil => exact ⟨s.pb, rfl, by rwa [List.append_nil]⟩
  | cons d ds ih =>
    have hd := hp.digit d
    obtain ⟨pb, hx, hpb⟩ := ih (s := { s with pb := s.pb.digit d }) (runnable_with_pb h hd.pcount_le) hd
    refine ⟨pb, ?_, by simpa using hpb⟩
    rw [List.map_cons, execAll, exec_csiDigit_of_runnable h]
    exact hx

/-- All but the last field are finished; the last is still being typed. -/
theorem execAll_typedFields {fields : List (List (BitVec 4))} (hne : fields ≠ []) (h : s.runnable = true) (hp : s.pb.Holds done []) :
    ∃ pb, execAll (typedFields fields) s = .next { s with pb := pb } ∧
      pb.Holds (done ++ fields.dropLast) (fields.getLast hne) := by
  induction fields generalizing s done with
  | nil => exact absurd rfl hne
  | cons f rest ih =>
    obtain ⟨pb, hx, hpb⟩ := execAll_digits f h hp
    cases rest with
    | nil => exact ⟨pb, hx, by simpa using hpb⟩
    | cons g rest =>
      have hrun := runnable_with_pb h hpb.pcount_le
      have hsep := hpb.finalize
      obtain ⟨pb', hx', hpb'⟩ := ih (s := { s with pb := pb.finalize }) (by simp) (runnable_with_pb h hsep.pcount_le) hsep
      refine ⟨pb', ?_, by simpa using hpb'⟩
      rw [typedFields, execAll_append, hx, andThen, execAll, exec_csiSep_of_runnable hrun]
      · exact hx'
      · simp

/-! What the final byte reads. -/

theorem ParseBuf.Holds.operandCount (h : s.pb.Holds done cur) :
    s.operandCount = min 4 (if cur = [] then done.length else done.length + 1) := by
  have hcount := h.count
  by_cases hcur : cur = [] <;> simp only [State.operandCount, h.pending, hcur, ne_eq, not_true_eq_false, not_false_eq_true,
    false_and, true_and, if_false, if_true]
  · exact hcount
  · split <;> omega

theorem ParseBuf.Holds.operand (h : s.pb.Holds done cur) {i : Nat} (hi : i < s.operandCount) :
    s.operand i = min (decimalValue ((done ++ [cur]).getD i [])) 65535 := by
  have hcount := h.count
  unfold State.operandCount at hi
  unfold State.operand
  by_cases hlast : s.pb.dpend = true ∧ s.pb.pcount < 4 ∧ i = s.pb.pcount
  · rw [if_pos hlast]
    obtain ⟨-, hlt, hi'⟩ := hlast
    obtain rfl : i = done.length := by omega
    rw [h.acc, List.getD_append_right _ _ _ _ le_rfl, Nat.sub_self, List.getD_cons_zero]
  · have hkept : i < s.pb.pcount := by
      by_contra hge
      split at hi
      next hpend => exact hlast ⟨hpend.1, hpend.2, by omega⟩
      next => exact hge hi
    rw [if_neg hlast, h.kept i hkept, List.getD_append _ _ _ _ (by omega)]

/-- Settles O21: the fields before the last are kept, and the last one is a parameter if it has a digit. -/
theorem csiOperandsAssembled : Obligations.CsiOperandsAssembled := by
  unfold Obligations.CsiOperandsAssembled
  intro s fields hrun hpb _
  have hempty : s.pb.Holds [] [] := hpb ▸ ParseBuf.holds_empty
  by_cases hne : fields = []
  · subst hne
    have hcount : s.operandCount = 0 := hempty.operandCount
    exact ⟨s, rfl, rfl, hcount, fun i hi => absurd (hcount ▸ hi) (Nat.not_lt_zero i)⟩
  · obtain ⟨pb, hx, hp⟩ := execAll_typedFields hne hrun hempty
    rw [List.nil_append] at hp
    have hp' : { s with pb := pb }.pb.Holds fields.dropLast (fields.getLast hne) := hp
    have hlength : fields.dropLast.length + 1 = fields.length := by
      have := List.length_pos_iff.mpr hne
      rw [List.length_dropLast]
      omega
    refine ⟨_, hx, rfl, ?_, fun i hi => ?_⟩
    · rw [hp'.operandCount, hlength, List.length_dropLast]
      simp only [List.getLast?_eq_some_getLast hne, Option.some.injEq]
    · rw [hp'.operand hi, List.dropLast_append_getLast]

end Sys2Proof.Machine
end

section
/-! PROOFS. Parser and dispatch (40_parser_dispatch.md): CR, LF and their pairs (O16, O17, O18), the escape modes (O19), and the
digits and separators of a CSI sequence (O20). -/

namespace Sys2Proof.Machine

variable {s : State}

/-! CR and LF. -/

theorem exec_cr_of_runnable (h : s.runnable = true) : exec .cr s = .next (crRule s) := run_eq h

theorem exec_lf_of_runnable (h : s.runnable = true) : exec .lf s = .next (lfRule s) := run_eq h

theorem crRule_of_skip (h : s.skipCr = true) : crRule s = clearSkips s := if_pos h

theorem crRule_of_no_skip (h : s.skipCr = false) : crRule s = expectLf (lineBreak s) := if_neg (Bool.eq_false_iff.1 h)

theorem lfRule_of_skip (h : s.skipLf = true) : lfRule s = clearSkips s := if_pos h

theorem lfRule_of_no_skip (h : s.skipLf = false) : lfRule s = expectCr (lineBreak s) := if_neg (Bool.eq_false_iff.1 h)

/-- Settles O16: the rule's two cases, and the two cases of the line break in the second. -/
theorem carriageReturn : Obligations.CarriageReturn := by
  unfold Obligations.CarriageReturn
  intro s hrun
  rw [exec_cr_of_runnable hrun]
  refine ⟨fun hskip => ?_, fun hskip habove => ?_, fun hskip hlast hback => ?_⟩
  · rw [crRule_of_skip hskip]
    rfl
  · rw [crRule_of_no_skip hskip, lineBreak_above habove]
    rfl
  · obtain ⟨bk, hbreak, hedit⟩ := lineBreak_last hback (runnable_iff.1 hrun).1 hlast
    rw [crRule_of_no_skip hskip, hbreak]
    exact ⟨bk, rfl, hedit⟩

/-- Settles O17: the rule's two cases, and the two cases of the line break in the second. -/
theorem lineFeed : Obligations.LineFeed := by
  unfold Obligations.LineFeed
  intro s hrun
  rw [exec_lf_of_runnable hrun]
  refine ⟨fun hskip => ?_, fun hskip habove => ?_, fun hskip hlast hback => ?_⟩
  · rw [lfRule_of_skip hskip]
    rfl
  · rw [lfRule_of_no_skip hskip, lineBreak_above habove]
    rfl
  · obtain ⟨bk, hbreak, hedit⟩ := lineBreak_last hback (runnable_iff.1 hrun).1 hlast
    rw [lfRule_of_no_skip hskip, hbreak]
    exact ⟨bk, rfl, hedit⟩

/-! Pairs of CR and LF. -/

/-- A state that runs instructions and takes neither CR nor LF for the second half of a pair (R18). -/
structure NoPairOpen (s : State) : Prop where
  runnable : s.runnable = true
  skipCr : s.skipCr = false
  skipLf : s.skipLf = false

theorem lineBreak_curRow (s : State) :
    (lineBreak s).curRow = if s.curRow = s.cfg.rows - 1 then s.curRow else s.curRow + 1 := by
  unfold lineBreak scroll
  split
  · rw [blankSpan_withBack]
    rfl
  · rfl

/-- A line break stays in the grid, whatever B holds (R92). -/
theorem lineBreak_runnable (h : s.runnable = true) : (lineBreak s).runnable = true := by
  obtain ⟨hconfig, hrange⟩ := runnable_iff.1 h
  obtain ⟨hcol, hrow, hrest⟩ := inRange_iff.1 hrange
  have hrow' : (lineBreak s).curRow < s.cfg.rows := by
    rw [lineBreak_curRow]
    split <;> omega
  obtain ⟨bk, w, row, hbreak⟩ := lineBreak_frame s
  rw [hbreak] at hrow' ⊢
  exact runnable_iff.2 ⟨hconfig, inRange_iff.2 ⟨Nat.zero_lt_of_lt hcol, hrow', hrest⟩⟩

theorem expectLf_runnable (s : State) : (expectLf s).runnable = s.runnable := rfl

theorem expectCr_runnable (s : State) : (expectCr s).runnable = s.runnable := rfl

theorem NoPairOpen.after_lineBreak (h : NoPairOpen s) : NoPairOpen (lineBreak s) := by
  have hrun := lineBreak_runnable h.runnable
  obtain ⟨bk, w, row, hbreak⟩ := lineBreak_frame s
  rw [hbreak] at hrun ⊢
  exact ⟨hrun, h.skipCr, h.skipLf⟩

theorem NoPairOpen.after_lineBreaks (h : NoPairOpen s) (k : Nat) : NoPairOpen (loop k (fun _ t => lineBreak t) s) :=
  loop_keeps NoPairOpen k _ s h fun _ _ _ ht => ht.after_lineBreak

/-- With both skip flags clear, clearing them after either half of a pair leaves the state as it was. -/
theorem NoPairOpen.clearSkips_expect (h : NoPairOpen s) :
    clearSkips (expectLf s) = s ∧ clearSkips (expectCr s) = s := by
  obtain ⟨-, hcr, hlf⟩ := h
  cases s
  cases hcr
  cases hlf
  exact ⟨rfl, rfl⟩

/-- CR breaks the line and the LF after it is consumed (R70, R71). -/
theorem NoPairOpen.execAll_cr_lf (h : NoPairOpen s) : execAll [.cr, .lf] s = .next (lineBreak s) := by
  have hrun : (expectLf (lineBreak s)).runnable = true := (expectLf_runnable _).trans h.after_lineBreak.runnable
  rw [execAll, exec_cr_of_runnable h.runnable, crRule_of_no_skip h.skipCr, andThen, execAll, exec_lf_of_runnable hrun,
    lfRule_of_skip rfl, h.after_lineBreak.clearSkips_expect.1]
  rfl

/-- LF breaks the line and the CR after it is consumed (R71, R70). -/
theorem NoPairOpen.execAll_lf_cr (h : NoPairOpen s) : execAll [.lf, .cr] s = .next (lineBreak s) := by
  have hrun : (expectCr (lineBreak s)).runnable = true := (expectCr_runnable _).trans h.after_lineBreak.runnable
  rw [execAll, exec_lf_of_runnable h.runnable, lfRule_of_no_skip h.skipLf, andThen, execAll, exec_cr_of_runnable hrun,
    crRule_of_skip rfl, h.after_lineBreak.clearSkips_expect.2]
  rfl

/-- A sequence that is one line break wherever no pair is open is k line breaks when it is repeated k times. -/
theorem NoPairOpen.execAll_replicate {pair : List Instr}
    (hpair : ∀ t : State, NoPairOpen t → execAll pair t = .next (lineBreak t)) (h : NoPairOpen s) (k : Nat) :
    execAll (List.replicate k pair).flatten s = .next (loop k (fun _ t => lineBreak t) s) := by
  induction k with
  | zero => rfl
  | succ k ih =>
    rw [List.replicate_succ', List.flatten_append, List.flatten_singleton, execAll_append, ih, andThen, loop_succ]
    exact hpair _ (h.after_lineBreaks k)

/-- Settles O18: either pair is one line break and leaves no pair open. -/
theorem lineEndingPairsCountOnce : Obligations.LineEndingPairsCountOnce := by
  unfold Obligations.LineEndingPairsCountOnce
  intro k s hrun hcr hlf
  have h : NoPairOpen s := ⟨hrun, hcr, hlf⟩
  exact ⟨h.execAll_replicate (fun _ ht => ht.execAll_cr_lf) k, h.execAll_replicate (fun _ ht => ht.execAll_lf_cr) k⟩

/-! The escape modes and the CSI parameters. -/

/-- Settles O19: each class runs its rule, and the rule is the update stated. -/
theorem escapeModes : Obligations.EscapeModes := by
  unfold Obligations.EscapeModes
  intro s x hrun
  have hentry : exec .escEntry s = .next (escEntryRule s) := run_eq hrun
  have hcsi : exec .escCsi s = .next (escCsiRule s) := run_eq hrun
  have habort : exec (.escAbort x) s = .next (escAbortRule s) := run_eq hrun
  exact ⟨hentry, hcsi, habort⟩

/-- Settles O20: a digit is one saturating step of the accumulator, and a separator finishes the parameter (R76). -/
theorem csiDigitAndSeparator : Obligations.CsiDigitAndSeparator := by
  unfold Obligations.CsiDigitAndSeparator
  intro s d hrun
  have hsep := exec_csiSep_of_runnable hrun
  rw [ParseBuf.finalize_eq] at hsep
  refine ⟨exec_csiDigit_of_runnable hrun d, _, _, hsep, fun hroom => ⟨if_pos hroom, fun i hi => ?_⟩,
    fun hfull => ⟨if_neg hfull, if_neg hfull⟩⟩
  rw [if_pos hroom, Params.get_set _ _ hi hroom]

end Sys2Proof.Machine
end

section
/-! PROOFS. Parser and dispatch (40_parser_dispatch.md): the BYTE step (O6) and the order of its actions (O7). -/

namespace Sys2Proof.Machine

variable {s t : State}

/-! What runs before and after the class's rule, each condition as the spec words it (R67, R69). -/

theorem skipRule_eq (i : Instr) (s : State) :
    skipRule i s = if i = .cr ∨ i = .lf then s else { s with skipCr := false, skipLf := false } := by
  cases i <;> rfl

theorem liftOverlay_eq (s : State) : liftOverlay s = if s.modal = none ∧ s.drawn = true then overlayRemove s else s := by
  simp [liftOverlay]

theorem redrawOverlay_eq (s : State) :
    redrawOverlay s = if s.modal = none ∧ s.curVisible = true ∧ s.drawn = false then overlayDraw s else s := by
  simp [redrawOverlay, and_assoc]

/-- No legal value that an instruction needs is written before the class's rule. -/
theorem beforeByte_runnable (i : Instr) (s : State) : (beforeByte i s).runnable = s.runnable := by
  rw [beforeByte, liftOverlay_eq, skipRule_eq]
  split_ifs <;> rfl

/-- The rule of a byte's class leaves the handshake registers and the configuration. -/
theorem exec_decoded_keeps {cfg : Config} {m : Mode} {b : Byte} (hx : exec (decode cfg m b) s = .next t) :
    t.hs = s.hs ∧ t.cfg = s.cfg := by
  rw [exec_byte_frame (decode_isByte cfg m b) hx]
  exact ⟨rfl, rfl⟩

/-- A byte runs in every runnable state: its class's rule between the two halves of the BYTE step (R67). -/
theorem runByte_of_runnable (h : s.runnable = true) (b : Byte) :
    ∃ t, exec (decode s.cfg s.mode b) (beforeByte (decode s.cfg s.mode b) s) = .next t ∧ runByte b s = .next (afterByte t) := by
  obtain ⟨t, hx⟩ := (exec_runnable (decode s.cfg s.mode b)).1 ((beforeByte_runnable _ s).trans h)
  exact ⟨t, hx, (runByte_next_iff b).2 ⟨t, hx, rfl⟩⟩

/-! The turn that pops a byte. -/

/-- The byte that the next pop answers (R137). -/
def State.nextByte (s : State) : Byte := s.ring.buf.getD s.ring.tail 0

/-- The state in which that byte runs: after the pop, with `rest` still to come. -/
def State.afterPop (s : State) (rest : List Event) : State :=
  { s with inputs := rest, wrote := false, popped := some s.nextByte, ring := (s.ring.pop s.cfg.ringN).2 }

theorem afterPop_runnable (h : s.runnable = true) (rest : List Event) : (s.afterPop rest).runnable = true :=
  popped_runnable (s := { s with inputs := rest }) h

/-- The logic agent's turn with no tick pending and a byte in the ring is a BYTE step (R140). -/
theorem logicTurn_byte (hruns : logicRuns s = true) (htick : s.pendTick = false) (hcount : 0 < s.ring.count) :
    logicTurn s = byteStep s := by
  rw [logicTurn, if_pos hruns, if_neg (Bool.eq_false_iff.1 htick), if_pos hcount]

/-- The step on which that turn comes runs the byte popped. -/
theorem step_eq_runByte {rest : List Event} (hlegal : s.legal = true) (hinputs : s.inputs = .logic :: rest)
    (hruns : logicRuns s = true) (htick : s.pendTick = false) (hcount : 0 < s.ring.count) :
    step s = runByte s.nextByte (s.afterPop rest) := calc
  step s = logicTurn { s with inputs := rest } := step_react hlegal hinputs
  _ = byteStep { s with inputs := rest } := logicTurn_byte hruns htick hcount
  _ = runByte s.nextByte (s.afterPop rest) := byteStep_eq (s := { s with inputs := rest }) (legal_runnable hlegal) (Nat.ne_of_gt hcount)

/-- Settles O6: the turn runs the byte popped, and the byte's class runs in the state after the pop. -/
theorem stepRunsDecodedByte : Obligations.StepRunsDecodedByte := by
  unfold Obligations.StepRunsDecodedByte
  intro s rest hlegal hinputs hruns htick hcount
  rw [step_eq_runByte hlegal hinputs hruns htick hcount]
  exact ⟨decode_wfIn .., runByte_of_runnable (afterPop_runnable (legal_runnable hlegal) rest) s.nextByte⟩

/-- Settles O7: the same step as O6, with what runs before and after the class's rule written out. -/
theorem byteStepOrder : Obligations.ByteStepOrder := by
  unfold Obligations.ByteStepOrder
  intro s rest hlegal hinputs hruns htick hcount b i u v w
  obtain ⟨-, t, hx, hstep⟩ := stepRunsDecodedByte s rest hlegal hinputs hruns htick hcount
  obtain ⟨hhs, hcfg⟩ := exec_decoded_keeps hx
  obtain ⟨-, hhsBefore, hcfgBefore⟩ := beforeByte_keeps (s := u) i
  obtain ⟨-, hrange, -⟩ := legal_iff.1 hlegal
  have hidle : s.hs = Handshake.idle := inRange_hs hrange
  have hw : beforeByte i u = w := by rw [beforeByte, liftOverlay_eq, skipRule_eq]
  refine ⟨t, hw ▸ hx, ?_⟩
  rw [hstep, afterByte_eq (hhs.trans (hhsBefore.trans hidle)), redrawOverlay_eq, hcfg.trans hcfgBefore]
  rfl

end Sys2Proof.Machine
end

section
/-! PROOFS. CSI commands (41_csi_commands.md): the cursor moves (O22), the saved cursor (O23), SGR (O24), ED (O25), EL (O26) and
the unknown final byte (O27). -/

namespace Sys2Proof.Machine

variable {s : State}

/-- The state in which a final byte's rule runs: the pending digits, if any, are its last operand (R78). -/
def State.finalised (s : State) : State := { s with pb := s.pb.final }

theorem State.finalised_csiDone (s : State) : s.finalised.csiDone = s.csiDone := rfl

/-- A final byte's class runs its rule on the finished operands and ends the sequence (R78). -/
theorem run_csiFinal (h : s.runnable = true) (f : State → State) : run (csiFinal f) s = .next (f s.finalised).csiDone := run_eq h

/-! The cursor. -/

/-- Settles O22: each class runs its rule, and the arguments that the rules read are the operands or their defaults. -/
theorem cursorMoves : Obligations.CursorMoves := by
  unfold Obligations.CursorMoves
  intro s hrun
  rw [← final_arg s (i := 0) (by decide), ← final_arg s (i := 1) (by decide)]
  have hcuu : exec .csiCuu s = _ := run_csiFinal hrun cuuRule
  have hcud : exec .csiCud s = _ := run_csiFinal hrun cudRule
  have hcuf : exec .csiCuf s = _ := run_csiFinal hrun cufRule
  have hcub : exec .csiCub s = _ := run_csiFinal hrun cubRule
  have hcup : exec .csiCup s = _ := run_csiFinal hrun cupRule
  exact ⟨hcuu, hcud, hcuf, hcub, hcup⟩

/-- Settles O23: the save is R87's update, and the restore is R88's two cases. -/
theorem saveAndRestoreCursor : Obligations.SaveAndRestoreCursor := by
  unfold Obligations.SaveAndRestoreCursor
  intro s hrun
  have hscp : exec .csiScp s = _ := run_csiFinal hrun scpRule
  have hrcp : exec .csiRcp s = _ := run_csiFinal hrun rcpRule
  refine ⟨hscp, fun hvalid => ?_, fun hvalid => ?_⟩
  · have hrule : rcpRule s.finalised = s.finalised.setCursor s.savedCol s.savedRow := if_pos hvalid
    rw [hrcp, hrule]
    rfl
  · have hrule : rcpRule s.finalised = s.finalised := if_neg (Bool.eq_false_iff.1 hvalid)
    rw [hrcp, hrule, State.finalised_csiDone]

/-! The current colours. -/

/-- The two current colours replaced. -/
def State.withColours (s : State) (x : Colour × Colour) : State := { s with curFg := x.1, curBg := x.2 }

/-- The 3 bits of the model's palette index lose nothing of an index in the palette. -/
theorem ansiColour_eq_getElem (cfg : Config) {i : Nat} (hi : i < 8) : ansiColour cfg i = cfg.ansiPal[i] := by
  simp [ansiColour, Vector.get_eq_getElem, Nat.mod_eq_of_lt hi]

/-- One SGR parameter acts on the two current colours alone (R86). -/
theorem sgrParam_withColours (v : Nat) (s : State) (x : Colour × Colour) :
    sgrParam v (s.withColours x) = s.withColours (sgrColours s.cfg v x) := by
  unfold sgrParam sgrColours
  split_ifs with hreset hfg hbg
  · rfl
  · rw [ansiColour_eq_getElem _ (by omega)]
    rfl
  · rw [ansiColour_eq_getElem _ (by omega)]
    rfl
  · rfl

/-- SGR parameters in a loop are a fold over the two current colours. -/
theorem loop_sgrParam (v : Nat → Nat) (n : Nat) (s : State) (x : Colour × Colour) :
    loop n (fun i t => sgrParam (v i) t) (s.withColours x) =
      s.withColours ((List.range n).foldl (fun x i => sgrColours s.cfg (v i) x) x) := by
  induction n with
  | zero => rfl
  | succ n ih => rw [loop_succ, ih, sgrParam_withColours, List.range_succ, List.foldl_concat]

/-- The parameters that SGR reads are its operands (R62, R78). -/
theorem sgrRule_finalised (h : s.inRange = true) :
    sgrRule s.finalised = s.finalised.withColours
      ((List.range s.operandCount).foldl (fun x i => sgrColours s.cfg (s.operand i) x) (s.curFg, s.curBg)) := by
  have hle := operandCount_le h
  have hparams : ∀ x : Colour × Colour, ∀ i ∈ List.range s.operandCount,
      sgrColours s.cfg (s.pb.final.params.get i).toNat x = sgrColours s.cfg (s.operand i) x := by
    intro x i hi
    have hlt := List.mem_range.1 hi
    rw [final_get s (by omega)]
  rw [← List.foldl_ext _ _ _ hparams, ← final_pcount s]
  exact loop_sgrParam (fun i => (s.pb.final.params.get i).toNat) s.pb.final.pcount s.finalised (s.curFg, s.curBg)

/-- Settles O24: SGR's loop over the parameters present is the fold over the operands. -/
theorem sgrSelectsColours : Obligations.SgrSelectsColours := by
  unfold Obligations.SgrSelectsColours
  intro s hrun
  have hsgr : exec .csiSgr s = _ := run_csiFinal hrun sgrRule
  rw [hsgr, sgrRule_finalised (runnable_iff.1 hrun).2]
  rfl

/-! Erasing. -/

/-- ED's test of its parameter is a test of its one operand (R84). -/
theorem edParams_iff (s : State) :
    (s.pb.final.pcount = 1 ∧ s.pb.final.params.get 0 = 2) ↔ s.operandCount = 1 ∧ s.operand 0 = 2 := by
  rw [final_pcount, ← final_get s (by decide), ← BitVec.toNat_inj]
  rfl

/-- Settles O25: the test decides between blanking the whole grid and no effect. -/
theorem eraseDisplay : Obligations.EraseDisplay := by
  unfold Obligations.EraseDisplay
  intro s hrun
  have hed : exec .csiEd s = _ := run_csiFinal hrun edRule
  refine ⟨fun hcount hoperand hback => ?_, fun hne => ?_⟩
  · have hrule : edRule s.finalised = (blankGrid s.finalised).setCursor 0 0 := if_pos ((edParams_iff s).2 ⟨hcount, hoperand⟩)
    obtain ⟨bk, hgrid, hedit⟩ := blankGrid_spec (s := s.finalised) hback (runnable_iff.1 hrun).1
    rw [hed, hrule, hgrid]
    exact ⟨bk, rfl, hedit⟩
  · have hrule : edRule s.finalised = s.finalised := if_neg (mt (edParams_iff s).1 hne)
    rw [hed, hrule, State.finalised_csiDone]

/-- From a cursor inside the grid EL blanks at least the cursor's own cell (R85). -/
theorem elRule_spec (hback : Store.wf s.cfg s.back = true) (hconfig : configWf s.cfg = true) (hcursor : inGrid s.cfg s.curRow s.curCol) :
    ∃ bk, elRule s = { s with back := bk, wrote := true } ∧
      StoreEdit s.cfg (fun r c => r = s.curRow ∧ s.curCol ≤ c ∧ c < s.cfg.cols) (fun _ _ => s.blank) s.back bk := by
  obtain ⟨hrow, hcol⟩ := hcursor
  have hend : s.curCol + (s.cfg.cols - s.curCol) = s.cfg.cols := Nat.add_sub_of_le hcol.le
  obtain ⟨bk, hspan, hedit⟩ := blankSpan_spec hback (config_cols8 hconfig) hrow hend.le
  rw [hend] at hedit
  refine ⟨bk, ?_, hedit⟩
  rw [elRule, hspan, decide_eq_true (Nat.sub_pos_of_lt hcol), Bool.or_true]

/-- Settles O26: EL's rule reads the cursor and the colours, which finishing the operands leaves. -/
theorem eraseLine : Obligations.EraseLine := by
  unfold Obligations.EraseLine
  intro s hrun hback
  obtain ⟨hconfig, hrange⟩ := runnable_iff.1 hrun
  have hcursor := inRange_cursor hrange
  have hel : exec .csiEl s = _ := run_csiFinal hrun elRule
  obtain ⟨bk, hrule, hedit⟩ := elRule_spec (s := s.finalised) hback hconfig hcursor
  rw [hel, hrule]
  exact ⟨bk, rfl, hedit⟩

/-- Settles O27: the rule is empty, so only the end of the sequence is left (R78, R89). -/
theorem unknownFinalDiscarded : Obligations.UnknownFinalDiscarded := by
  unfold Obligations.UnknownFinalDiscarded
  intro s b hrun
  have hunknown : exec (.csiUnknown b) s = _ := run_csiFinal hrun unknownRule
  rw [hunknown]
  rfl

end Sys2Proof.Machine
end

section
/-! PROOFS. Text editing (42_text_editing.md): PRINT (O28), BS (O29), and a row filled by PRINT (O30). -/

namespace Sys2Proof.Machine

variable {s : State}

/-! PRINT and BS. -/

theorem exec_print_of_runnable (h : s.runnable = true) (b : Byte) : exec (.print b) s = .next (printRule b s) := run_eq h

theorem exec_bs_of_runnable (h : s.runnable = true) (b : Byte) : exec (.bs b) s = .next (bsRule s) := run_eq h

/-- The cursor's cell written with `b` in the current colours, the first half of R90. -/
def cursorCellSet (b : Byte) (s : State) : State := setCell s.curRow s.curCol b s.curFg s.curBg s

/-- Before the last column PRINT writes its cell and advances (R90). -/
theorem printRule_before_end (h : s.curCol + 1 < s.cfg.cols) (b : Byte) :
    printRule b s = { cursorCellSet b s with curCol := s.curCol + 1 } :=
  if_neg (by omega)

/-- In the last column PRINT writes its cell and breaks the line at once (R90). -/
theorem printRule_at_end (h : s.curCol + 1 = s.cfg.cols) (b : Byte) :
    printRule b s = { lineBreak (cursorCellSet b s) with skipCr := s.skipCr || s.cfg.wrapSkipCr } := by
  have hskip : (if s.cfg.wrapSkipCr then true else s.skipCr) = (s.skipCr || s.cfg.wrapSkipCr) := by
    cases s.cfg.wrapSkipCr <;> simp
  rw [← hskip]
  exact if_pos (by omega)

/-- A cell of the grid written in a runnable state is an edit of that cell alone (R38). -/
theorem setCell_edit {r c : Nat} (hrun : s.runnable = true) (hback : Store.wf s.cfg s.back = true) (hi : inGrid s.cfg r c)
    (ch : Byte) (fg bg : Colour) :
    StoreEdit s.cfg (fun r' c' => r' = r ∧ c' = c) (fun _ _ => ⟨ch, fg, bg⟩) s.back (setCell r c ch fg bg s).back :=
  StoreEdit.setCell hback (config_cols8 (runnable_iff.1 hrun).1) hi rfl

/-- Settles O28: the cell is written in each of the rule's cases, and at the last column the line break has two. -/
theorem printWritesCell : Obligations.PrintWritesCell := by
  unfold Obligations.PrintWritesCell
  intro s b hrun hback
  obtain ⟨hconfig, hrange⟩ := runnable_iff.1 hrun
  have hcell : StoreEdit s.cfg _ _ s.back (cursorCellSet b s).back :=
    setCell_edit hrun hback (inRange_cursor hrange) b s.curFg s.curBg
  rw [exec_print_of_runnable hrun]
  refine ⟨_, hcell, fun hbefore => ?_, fun hend habove => ?_, fun hend hlast => ?_⟩
  · rw [printRule_before_end hbefore]
    rfl
  · rw [printRule_at_end hend, lineBreak_above (s := cursorCellSet b s) habove]
    rfl
  · obtain ⟨bk, hbreak, hscroll⟩ := lineBreak_last (s := cursorCellSet b s) hcell.canonical hconfig hlast
    rw [printRule_at_end hend, hbreak]
    exact ⟨bk, rfl, hscroll⟩

/-- The model's subtraction on naturals is R91's `max(s.cur_col - 1, 0)`. -/
theorem toNat_max_sub_one (n : Nat) : (max ((n : Int) - 1) 0).toNat = n - 1 := by omega

/-- Settles O29: the rule moves the cursor within its row, and blanks the cell it comes to. -/
theorem backspaceBlanks : Obligations.BackspaceBlanks := by
  unfold Obligations.BackspaceBlanks
  intro s b hrun hback
  obtain ⟨hrow, hcol⟩ := inRange_cursor (runnable_iff.1 hrun).2
  have hleft : inGrid s.cfg s.curRow (s.curCol - 1) := ⟨hrow, by omega⟩
  rw [exec_bs_of_runnable hrun, toNat_max_sub_one]
  exact ⟨_, rfl, setCell_edit hrun hback hleft s.cfg.blankChar s.curFg s.curBg⟩

/-! A row filled by PRINT. -/

/-- The cells of row `row` from column `col` to the row's end. -/
def rowFrom (cfg : Config) (row col r c : Nat) : Prop := r = row ∧ col ≤ c ∧ c < cfg.cols

/-- What the cells of a row hold after `bs` is typed into it from column `col` on. -/
def typedFrom (bs : List Byte) (fg bg : Colour) (col _r c : Nat) : GridCell := ⟨bs.getD (c - col) 0, fg, bg⟩

theorem typedFrom_cons_first (b : Byte) (bs : List Byte) (fg bg : Colour) (col r : Nat) :
    typedFrom (b :: bs) fg bg col r col = ⟨b, fg, bg⟩ := by
  simp [typedFrom]

theorem typedFrom_cons_rest (b : Byte) (bs : List Byte) (fg bg : Colour) {col c : Nat} (r : Nat) (h : col + 1 ≤ c) :
    typedFrom (b :: bs) fg bg col r c = typedFrom bs fg bg (col + 1) r c := by
  have hindex : c - col = c - (col + 1) + 1 := by omega
  rw [typedFrom, hindex, List.getD_cons_succ, typedFrom]

/-- A typed cell is the first of a row typed from it on. -/
theorem StoreEdit.typed_first {cfg : Config} {st st' : Store} {row col : Nat} {b : Byte} {fg bg : Colour}
    (h : StoreEdit cfg (fun r c => r = row ∧ c = col) (fun _ _ => ⟨b, fg, bg⟩) st st') (bs : List Byte) :
    StoreEdit cfg (fun r c => r = row ∧ c = col) (typedFrom (b :: bs) fg bg col) st st' := by
  refine h.congr (fun _ _ => Iff.rfl) fun r c hcell => ?_
  rw [hcell.2, typedFrom_cons_first]

/-- A cell typed, and then the rest of its row, is the row typed from that cell on. -/
theorem StoreEdit.typed_cons {cfg : Config} {st st' st'' : Store} {row col : Nat} {b : Byte} {bs : List Byte} {fg bg : Colour}
    (hfirst : StoreEdit cfg (fun r c => r = row ∧ c = col) (fun _ _ => ⟨b, fg, bg⟩) st st')
    (hrest : StoreEdit cfg (rowFrom cfg row (col + 1)) (typedFrom bs fg bg (col + 1)) st' st'') (hi : inGrid cfg row col) :
    StoreEdit cfg (rowFrom cfg row col) (typedFrom (b :: bs) fg bg col) st st'' := by
  have hrest' := hrest.congr (fun _ _ => Iff.rfl) fun r c hcell => (typedFrom_cons_rest b bs fg bg r hcell.2.1).symm
  refine ((hfirst.typed_first bs).trans hrest' fun r c hcell => ?_).congr (fun r c => ?_) fun _ _ _ => rfl
  · obtain ⟨rfl, rfl⟩ := hcell
    exact hi
  · obtain ⟨-, hcol⟩ := hi
    unfold rowFrom
    omega

/-- The cursor moved within its row leaves a runnable state runnable, whatever B holds. -/
theorem runnable_of_column {bk : Store} {w : Bool} {col : Nat} (h : s.runnable = true) (hcol : col < s.cfg.cols) :
    ({ s with back := bk, wrote := w, curCol := col } : State).runnable = true := by
  obtain ⟨hconfig, hrange⟩ := runnable_iff.1 h
  obtain ⟨-, hrest⟩ := inRange_iff.1 hrange
  exact runnable_iff.2 ⟨hconfig, inRange_iff.2 ⟨hcol, hrest⟩⟩

/-- As many bytes as the cursor's row still has room for fill it from the cursor on, and the last of them breaks the line
(R90, R92). -/
theorem execAll_print_to_end (bs : List Byte) (hrun : s.runnable = true) (hback : Store.wf s.cfg s.back = true)
    (habove : s.curRow + 1 < s.cfg.rows) (hlen : s.curCol + bs.length = s.cfg.cols) :
    ∃ bk, execAll (bs.map .print) s = .next { s with
        back := bk, wrote := true, curCol := 0, curRow := s.curRow + 1, skipCr := s.skipCr || s.cfg.wrapSkipCr } ∧
      StoreEdit s.cfg (rowFrom s.cfg s.curRow s.curCol) (typedFrom bs s.curFg s.curBg s.curCol) s.back bk := by
  have hcursor := inRange_cursor (runnable_iff.1 hrun).2
  induction bs generalizing s with
  | nil => exact absurd hlen hcursor.2.ne
  | cons b bs ih =>
    obtain ⟨bk, hcell, hadvance, hwrap, -⟩ := printWritesCell s b hrun hback
    rw [List.length_cons] at hlen
    rw [List.map_cons, execAll]
    by_cases hbefore : s.curCol + 1 < s.cfg.cols
    · obtain ⟨bk', hexec, hrest⟩ := ih (s := { s with back := bk, wrote := true, curCol := s.curCol + 1 })
        (runnable_of_column hrun hbefore) hcell.canonical habove (by dsimp only; omega) ⟨hcursor.1, hbefore⟩
      rw [hadvance hbefore, andThen, hexec]
      exact ⟨bk', rfl, hcell.typed_cons hrest hcursor⟩
    · obtain rfl : bs = [] := List.eq_nil_of_length_eq_zero (by omega)
      rw [hwrap (by omega) (by omega)]
      refine ⟨bk, rfl, (hcell.typed_first []).congr (fun r c => ?_) fun _ _ _ => rfl⟩
      unfold rowFrom
      omega

/-- Settles O30: at column 0 the row has room for COLS bytes. -/
theorem printedRowWraps : Obligations.PrintedRowWraps := by
  unfold Obligations.PrintedRowWraps
  intro s bs hrun hback hcol habove hlen
  obtain ⟨bk, hexec, hedit⟩ := execAll_print_to_end bs hrun hback habove (by omega)
  refine ⟨bk, hexec, hedit.congr (fun r c => ?_) fun r c _ => ?_⟩
  · simp [rowFrom, hcol]
  · simp [typedFrom, hcol]

end Sys2Proof.Machine
end

section
/-! PROOFS. Modal overlays (43_modal_overlays.md): opening a menu (O31), leaving it (O32, O33), the bytes inside one (O34 to O37),
and what a step with a menu open leaves of the terminal (O38). -/

namespace Sys2Proof.Machine

variable {s t : State} {k : MenuKind}

/-! Opening and leaving a menu. -/

theorem canonical_stores (hcanon : s.canonical = true) :
    Store.wf s.cfg s.back = true ∧ Memory.wf (unlisted s.cfg .snap) (Space.size s.cfg .snap) s.snap = true := by
  rw [canonical_iff] at hcanon
  exact ⟨Store.wf_iff.2 ⟨hcanon .backChr, hcanon .backPl⟩, hcanon .snap⟩

/-- Each OPEN byte opens its own menu (R96 to R99). -/
theorem exec_open (hrun : s.runnable = true) {i : Instr}
    (hi : (i, k) ∈ [(Instr.openFg, MenuKind.fgPick), (.openBg, .bgPick), (.openStyle, .style), (.openTheme, .theme)]) :
    exec i s = .next (openModal k s) := by
  simp only [List.mem_cons, Prod.mk.injEq, List.not_mem_nil, or_false] at hi
  obtain ⟨rfl, rfl⟩ | ⟨rfl, rfl⟩ | ⟨rfl, rfl⟩ | ⟨rfl, rfl⟩ := hi <;> exact run_eq hrun

/-- A cell of a menu's rectangle has its own cell in the menu's image (R7), so what stands for a missing one does not matter. -/
theorem imageCell_of_inMenu {cfg : Config} (hconfig : configWf cfg = true) {r c : Nat} (hin : inMenu (cfg.menu k) r c) (x : GridCell) :
    imageCell cfg (cfg.menu k) (menuIndex (cfg.menu k) r c) = (cfg.menu k).image.getD (menuIndex (cfg.menu k) r c) x := by
  obtain ⟨-, -, hlength⟩ := config_menu hconfig k
  obtain ⟨htop, hbottom, hleft, hright⟩ := hin
  have hindex : menuIndex (cfg.menu k) r c < (cfg.menu k).image.length := by
    rw [hlength, Nat.mul_comm]
    exact mul_add_lt (by omega) (by omega)
  rw [imageCell, List.getD_eq_getElem _ _ hindex, List.getD_eq_getElem _ _ hindex]

/-- Settles O31: the byte opens its menu, and every cell drawn is one of the menu's image. -/
theorem menuOpens : Obligations.MenuOpens := by
  unfold Obligations.MenuOpens
  intro s i k hrun hcanon hi
  obtain ⟨hconfig, -⟩ := runnable_iff.1 hrun
  obtain ⟨hback, hsnap⟩ := canonical_stores hcanon
  obtain ⟨bk, sn, hopen, -, hsaved, hrest, hdrawn⟩ := openModal_spec k hback hconfig hsnap
  refine ⟨bk, sn, (exec_open hrun hi).trans (congrArg _ hopen), hsaved, hrest, hdrawn.congr (fun _ _ => Iff.rfl) fun r c hin => ?_⟩
  exact imageCell_of_inMenu hconfig hin _

/-- Leaving a menu with the colours and the style that its byte chose: the menu and its digit go, and its rectangle takes back
the cells saved (R95). -/
theorem exitModal_chosen (hrun : s.runnable = true) (hcanon : s.canonical = true) (hmenu : s.modal = some k) (fg bg : Colour)
    (st : CursorStyle) :
    ∃ bk, exitModal { s with curFg := fg, curBg := bg, style := st } = { s with
        curFg := fg, curBg := bg, style := st, modal := none, mdigN := false, mdigV := 0, back := bk
        wrote := s.wrote || decide (0 < (s.cfg.menu k).w ∧ 0 < (s.cfg.menu k).h) } ∧
      StoreEdit s.cfg (inMenu (s.cfg.menu k)) (fun r c => snapAt s.cfg s.snap (menuIndex (s.cfg.menu k) r c)) s.back bk := by
  obtain ⟨hconfig, -⟩ := runnable_iff.1 hrun
  obtain ⟨hback, -⟩ := canonical_stores hcanon
  exact exitModal_spec (s := { s with curFg := fg, curBg := bg, style := st }) hmenu hback hconfig

theorem exec_modalCancel (hrun : s.runnable = true) : exec .modalCancel s = .next (exitModal s) := run_eq hrun

/-- Settles O32: ESC runs ExitModal (R95). -/
theorem menuCancels : Obligations.MenuCancels := by
  unfold Obligations.MenuCancels
  intro s k hrun hcanon hmenu
  obtain ⟨bk, hexit, hedit⟩ := exitModal_chosen hrun hcanon hmenu s.curFg s.curBg s.style
  exact ⟨bk, (exec_modalCancel hrun).trans (congrArg _ hexit), hedit⟩

/-! The bytes inside a menu. -/

/-- Settles O35: both rules are read off their definitions (R102, R105). -/
theorem pickBackspaceAndIgnore : Obligations.PickBackspaceAndIgnore := by
  unfold Obligations.PickBackspaceAndIgnore
  intro s b hrun
  have hbs : exec (.pickBs b) s = .next (pickBsRule s) := run_eq hrun
  have hignore : exec (.modalIgnore b) s = .next (ignoreRule s) := run_eq hrun
  refine ⟨fun hheld => ?_, fun hnone => ?_, hignore⟩
  · rw [hbs, pickBsRule, if_pos hheld]
  · rw [hbs, pickBsRule, if_neg (Bool.eq_false_iff.1 hnone)]

/-- Ignored bytes before others leave the state in which the others run (R105). -/
theorem execAll_ignored_append (hrun : s.runnable = true) (bs : List Byte) (rest : List Instr) :
    execAll (bs.map .modalIgnore ++ rest) s = execAll rest s := by
  induction bs with
  | nil => rfl
  | cons b bs ih =>
    obtain ⟨-, -, hignore⟩ := pickBackspaceAndIgnore s b hrun
    rw [List.map_cons, List.cons_append, execAll, hignore]
    exact ih

/-- An edit undone by an edit of the same cells to what they held before leaves the store as the same data. -/
theorem StoreEdit.undone {cfg : Config} {P : Nat → Nat → Prop} {val val' : Nat → Nat → GridCell} {st st' st'' : Store}
    (h8 : cfg.cols % 8 = 0) (hw : Store.wf cfg st = true) (hdo : StoreEdit cfg P val st st') (hundo : StoreEdit cfg P val' st' st'')
    (hval : ∀ r c, P r c → val' r c = Store.cell cfg st r c) : st'' = st := by
  refine Store.ext_cells h8 hundo.canonical hw fun r c hi => ?_
  by_cases hP : P r c
  · rw [hundo.written r c hP, hval r c hP]
  · rw [hundo.kept r c hi hP, hdo.kept r c hi hP]

/-- Opening a menu leaves a runnable state runnable: no digit is held. -/
theorem runnable_of_opened {m : Option MenuKind} {sn : Memory} {bk : Store} {w : Bool} (hrun : s.runnable = true) :
    ({ s with modal := m, mdigN := false, mdigV := 0, snap := sn, back := bk, wrote := w } : State).runnable = true := by
  obtain ⟨hconfig, hrange⟩ := runnable_iff.1 hrun
  obtain ⟨hcol, hrow, hmode, hscol, hsrow, hparams, hblink, hocol, horow, -, hrest⟩ := inRange_iff.1 hrange
  exact runnable_iff.2 ⟨hconfig, inRange_iff.2 ⟨hcol, hrow, hmode, hscol, hsrow, hparams, hblink, hocol, horow, Nat.zero_le 9, hrest⟩⟩

/-- Settles O33: the cells drawn over are the cells saved, so ExitModal undoes the edit of B that opened the menu. -/
theorem openThenCancelRestores : Obligations.OpenThenCancelRestores := by
  unfold Obligations.OpenThenCancelRestores
  intro s i bs hrun hcanon hnone hi
  obtain ⟨k, hik⟩ : ∃ k, (i, k) ∈ [(Instr.openFg, MenuKind.fgPick), (.openBg, .bgPick), (.openStyle, .style), (.openTheme, .theme)] := by
    simp only [List.mem_cons, List.not_mem_nil, or_false] at hi
    obtain rfl | rfl | rfl | rfl := hi <;> simp
  obtain ⟨hconfig, -⟩ := runnable_iff.1 hrun
  obtain ⟨hback, -⟩ := canonical_stores hcanon
  obtain ⟨bk, sn, hopen, hsaved, -, hdrawn⟩ := menuOpens s i k hrun hcanon hik
  generalize (s.wrote || decide (0 < (s.cfg.menu k).w ∧ 0 < (s.cfg.menu k).h)) = w at hopen
  have hrun' := runnable_of_opened (m := some k) (sn := sn) (bk := bk) (w := w) hrun
  obtain ⟨bk', hexit, hrestored⟩ := exitModal_spec (s := { s with
    modal := some k, mdigN := false, mdigV := 0, snap := sn, back := bk, wrote := w }) rfl hdrawn.canonical hconfig
  obtain rfl : bk' = s.back := hdrawn.undone (config_cols8 hconfig) hback hrestored hsaved
  rw [List.cons_append, execAll, hopen, andThen, execAll_ignored_append hrun', execAll, exec_modalCancel hrun', hexit]
  refine ⟨_, rfl, rfl, ?_⟩
  rw [hnone]

/-- The digit completes a code of FG_PICK as the foreground and of BG_PICK as the background (R101). -/
theorem pickColour_eq (hmenu : s.modal = some k) (v : Colour) :
    pickColour v s = { s with curFg := if k = .fgPick then v else s.curFg, curBg := if k = .fgPick then s.curBg else v } := by
  unfold pickColour
  rw [hmenu]
  by_cases hfg : k = .fgPick
  · simp only [hfg, if_true]
  · simp only [Option.some.injEq, hfg, if_false]

/-- Settles O34: R101's three cases, the last of which sets the colour and runs ExitModal. -/
theorem pickDigitPicks : Obligations.PickDigitPicks := by
  unfold Obligations.PickDigitPicks
  intro s k d hrun hcanon hmenu hpick
  have hdigit : exec (.pickDigit d) s = .next (pickDigitRule d s) := run_eq hrun
  rw [hdigit, pickDigitRule]
  refine ⟨fun hnone => ?_, fun hheld hbig => ?_, fun hheld hcode => ?_⟩
  · rw [if_neg (Bool.eq_false_iff.1 hnone)]
  · rw [if_pos hheld, if_neg (by omega)]
  · rw [if_pos hheld, if_pos hcode, pickColour_eq hmenu]
    obtain ⟨bk, hexit, hedit⟩ := exitModal_chosen hrun hcanon hmenu _ _ s.style
    exact ⟨bk, congrArg _ hexit, hedit⟩

/-- The style of a digit is that of its number in R21's order. -/
theorem ofDigit_eq_getElem (d : BitVec 4) :
    CursorStyle.ofDigit d = [CursorStyle.block, .underline, .bar, .custom, .shaded, .arrow][d.toNat]? := by
  revert d
  decide

/-- Settles O36: the digits below 6 are those that select a style, and then ExitModal runs. -/
theorem styleSelected : Obligations.StyleSelected := by
  unfold Obligations.StyleSelected
  intro s d hrun hcanon hmenu m styles
  have hselect : exec (.styleSelect d) s = .next (styleRule d s) := run_eq hrun
  rw [hselect, styleRule, ofDigit_eq_getElem]
  refine ⟨fun st hst => ?_, fun hbig => ?_⟩
  · obtain ⟨bk, hexit, hedit⟩ := exitModal_chosen hrun hcanon hmenu s.curFg s.curBg st
    rw [hst]
    exact ⟨bk, congrArg _ hexit, hedit⟩
  · rw [List.getElem?_eq_none hbig]

/-- Settles O37: the digits below NUM_THEMES are those that select a theme, and then ExitModal runs. -/
theorem themeSelected : Obligations.ThemeSelected := by
  unfold Obligations.ThemeSelected
  intro s d hrun hcanon hmenu m
  have hselect : exec (.themeSelect d) s = .next (themeRule d s) := run_eq hrun
  rw [hselect, themeRule, themeOf]
  refine ⟨fun fg bg hth => ?_, fun hbig => ?_⟩
  · obtain ⟨bk, hexit, hedit⟩ := exitModal_chosen hrun hcanon hmenu fg bg s.style
    rw [hth]
    exact ⟨bk, congrArg _ hexit, hedit⟩
  · rw [List.getElem?_eq_none hbig]

/-! A step with a menu open. -/

/-- What a byte of the open menu `k` does by its own rule: it leaves the menu open with some digit, or closes it with a style
chosen, in the style menu, or colours, in the others (R100 to R105). -/
def MenuByteEffect (k : MenuKind) (s t : State) : Prop :=
  (∃ held digit, t = { s with mdigN := held, mdigV := digit }) ∨
  ∃ fg bg st, t = exitModal { s with curFg := fg, curBg := bg, style := st } ∧ (st ≠ s.style → k = .style) ∧
    (fg ≠ s.curFg ∨ bg ≠ s.curBg → k ≠ .style)

theorem MenuByteEffect.refl : MenuByteEffect k s s := .inl ⟨s.mdigN, s.mdigV, rfl⟩

theorem MenuByteEffect.exit : MenuByteEffect k s (exitModal s) := .inr ⟨s.curFg, s.curBg, s.style, rfl, absurd rfl, by simp⟩

theorem MenuByteEffect.exit_style (hk : k = .style) (st : CursorStyle) : MenuByteEffect k s (exitModal { s with style := st }) :=
  .inr ⟨s.curFg, s.curBg, st, rfl, fun _ => hk, by simp⟩

theorem MenuByteEffect.exit_colours (hk : k ≠ .style) (fg bg : Colour) :
    MenuByteEffect k s (exitModal { s with curFg := fg, curBg := bg }) :=
  .inr ⟨fg, bg, s.style, rfl, absurd rfl, fun _ => hk⟩

/-- Every class that the open menu admits does no more than that. -/
theorem exec_menuByteEffect {cfg : Config} {i : Instr} (hmenu : s.modal = some k) (hw : i.wfIn cfg (.menu k) = true)
    (hx : exec i s = .next t) : MenuByteEffect k s t := by
  cases i with
  | modalCancel => exact run_keeps (P := MenuByteEffect k s) hx .exit
  | pickDigit d =>
    have hk : k ≠ .style := by rintro rfl; cases hw
    refine run_keeps (P := MenuByteEffect k s) hx ?_
    unfold pickDigitRule
    split_ifs
    · rw [pickColour_eq hmenu]
      exact .exit_colours hk _ _
    · exact .refl
    · exact .inl ⟨true, d, rfl⟩
  | pickBs b =>
    refine run_keeps (P := MenuByteEffect k s) hx ?_
    unfold pickBsRule
    split_ifs
    · exact .inl ⟨false, 0, rfl⟩
    · exact .refl
  | styleSelect d =>
    have hk : k = .style := by
      cases k with
      | style => rfl
      | fgPick | bgPick | theme => cases hw
    refine run_keeps (P := MenuByteEffect k s) hx ?_
    unfold styleRule
    split
    · exact .exit_style hk _
    · exact .refl
  | themeSelect d =>
    have hk : k ≠ .style := by rintro rfl; cases hw
    refine run_keeps (P := MenuByteEffect k s) hx ?_
    unfold themeRule
    split
    · exact .exit_colours hk _ _
    · exact .refl
  | modalIgnore b => exact run_keeps (P := MenuByteEffect k s) hx .refl
  | _ => simp [Instr.wfIn] at hw

/-- From `st` to `st'` no cell of the grid outside `P` changes. -/
def KeepsCells (cfg : Config) (P : Nat → Nat → Prop) (st st' : Store) : Prop :=
  ∀ r c, inGrid cfg r c → ¬P r c → Store.cell cfg st' r c = Store.cell cfg st r c

/-- The menu and its digit gone, with B and the step-local flag as given. -/
def State.menuClosed (s : State) (bk : Store) (w : Bool) : State :=
  { s with modal := none, mdigN := false, mdigV := 0, back := bk, wrote := w }

/-- ExitModal, whatever B holds: the menu's registers, B and the step-local flag change, and a canonical B in the menu's
rectangle alone (R95). -/
theorem exitModal_frame (hmenu : s.modal = some k) (hconfig : configWf s.cfg = true) :
    ∃ bk w, exitModal s = s.menuClosed bk w ∧
      (Store.wf s.cfg s.back = true → Store.wf s.cfg bk = true ∧ KeepsCells s.cfg (inMenu (s.cfg.menu k)) s.back bk) := by
  refine ⟨(exitModal s).back, (exitModal s).wrote, ?_, fun hback => ?_⟩
  · unfold exitModal restoreSnap
    rw [hmenu]
    dsimp only
    rw [overRect_withBack _ _ _ fun _ _ _ _ => rfl]
    rfl
  · obtain ⟨bk, hexit, hedit⟩ := exitModal_spec hmenu hback hconfig
    rw [hexit]
    exact ⟨hedit.canonical, hedit.kept⟩

/-- The redrawing that ends a BYTE step, whatever B holds: the overlay's registers, B and the step-local flag change, and a
canonical B in the cursor's cell alone (R67, R117). -/
theorem redrawOverlay_frame (hconfig : configWf s.cfg = true) (hcursor : inGrid s.cfg s.curRow s.curCol) :
    ∃ bk w ch fg row col d, redrawOverlay s = { s with
        back := bk, wrote := w, ovChar := ch, ovFg := fg, ovRow := row, ovCol := col, drawn := d } ∧
      (Store.wf s.cfg s.back = true → KeepsCells s.cfg (fun r c => r = s.curRow ∧ c = s.curCol) s.back bk) := by
  unfold redrawOverlay
  split_ifs
  · refine ⟨(overlayDraw s).back, _, _, _, _, _, _, rfl, fun hback => ?_⟩
    obtain ⟨bk, hdraw, hedit⟩ := overlayDraw_spec hback hconfig hcursor
    rw [hdraw]
    exact hedit.kept
  · exact ⟨s.back, s.wrote, s.ovChar, s.ovFg, s.ovRow, s.ovCol, s.drawn, rfl, fun _ _ _ _ _ => rfl⟩

/-- Past the redrawing a BYTE step writes no register of the terminal and no B (R67, R109). -/
theorem afterByte_frame (hidle : s.hs = Handshake.idle) :
    ∃ fr q, afterByte s = { redrawOverlay s with front := fr, swapReq := q, wrote := false, popped := none } := by
  obtain ⟨fr, q, hswap, -⟩ := swapAfterEdit_frame (redrawOverlay s).cfg.swapOnByte (redrawOverlay_hs.trans hidle)
  refine ⟨fr, q, ?_⟩
  unfold afterByte
  dsimp only
  rw [hswap]
  rfl

/-- Before the rule of a menu's byte nothing but the skip flags changes, since no overlay is lifted (R67, R69). -/
theorem beforeByte_menu (hmenu : s.modal = some k) (i : Instr) :
    ∃ cr lf, beforeByte i s = { s with skipCr := cr, skipLf := lf } ∧ (cr = true → s.skipCr = true) ∧ (lf = true → s.skipLf = true) := by
  have hnolift : ∀ u : State, u.modal = some k → liftOverlay u = u := fun u hu => by simp [liftOverlay_eq, hu]
  rw [beforeByte, skipRule_eq]
  split_ifs
  · exact ⟨s.skipCr, s.skipLf, hnolift s hmenu, id, id⟩
  · exact ⟨false, false, hnolift _ hmenu, nofun, nofun⟩

/-- What a step out of reset leaves of the state `s` in which the menu `k` is open (R94, R95, R105, R121, R165). -/
structure MenuHeld (k : MenuKind) (s t : State) : Prop where
  cursor : t.curCol = s.curCol ∧ t.curRow = s.curRow
  saved : t.savedCol = s.savedCol ∧ t.savedRow = s.savedRow ∧ t.savedValid = s.savedValid
  parser : t.escMode = s.escMode ∧ t.csiMode = s.csiMode ∧ t.pb = s.pb
  blink : t.curVisible = s.curVisible ∧ t.blinkCnt = s.blinkCnt
  menu : t.modal = some k ∧ t.drawn = false ∨ t.modal = none
  skips : (t.skipCr = true → s.skipCr = true) ∧ (t.skipLf = true → s.skipLf = true)
  style : t.style ≠ s.style → k = .style ∧ t.modal = none
  colours : t.curFg ≠ s.curFg ∨ t.curBg ≠ s.curBg → k ≠ .style ∧ t.modal = none
  cells : Store.wf s.cfg s.back = true →
    KeepsCells s.cfg (fun r c => inMenu (s.cfg.menu k) r c ∨ t.modal = none ∧ r = s.curRow ∧ c = s.curCol) s.back t.back

theorem MenuHeld.refl (hmenu : s.modal = some k) (hdrawn : s.drawn = false) : MenuHeld k s s :=
  ⟨⟨rfl, rfl⟩, ⟨rfl, rfl, rfl⟩, ⟨rfl, rfl, rfl⟩, ⟨rfl, rfl⟩, .inl ⟨hmenu, hdrawn⟩, ⟨id, id⟩, absurd rfl, by simp,
    fun _ _ _ _ _ => rfl⟩

/-- The end of a BYTE step that left the menu open. -/
theorem afterByte_menu_open (hmenu : s.modal = some k) (hdrawn : s.drawn = false) (hidle : s.hs = Handshake.idle) :
    MenuHeld k s (afterByte s) := by
  obtain ⟨fr, q, hafter⟩ := afterByte_frame hidle
  have hredraw : redrawOverlay s = s := by simp [redrawOverlay_eq, hmenu]
  rw [hafter, hredraw]
  exact { MenuHeld.refl hmenu hdrawn with }

/-- The end of a BYTE step that closed the menu, with a style or colours chosen. -/
theorem afterByte_menu_closed (hrun : s.runnable = true) (hmenu : s.modal = some k) {fg bg : Colour} {st : CursorStyle}
    (hstyle : st ≠ s.style → k = .style) (hcolours : fg ≠ s.curFg ∨ bg ≠ s.curBg → k ≠ .style) :
    MenuHeld k s (afterByte (exitModal { s with curFg := fg, curBg := bg, style := st })) := by
  obtain ⟨hconfig, hrange⟩ := runnable_iff.1 hrun
  have hcursor := inRange_cursor hrange
  have hidle := inRange_hs hrange
  obtain ⟨bk, w, hexit, hrestored⟩ := exitModal_frame (s := { s with curFg := fg, curBg := bg, style := st }) hmenu hconfig
  obtain ⟨bk', w', ch, ofg, row, col, d, hredraw, hdrawn⟩ := redrawOverlay_frame
    (s := State.menuClosed { s with curFg := fg, curBg := bg, style := st } bk w) hconfig hcursor
  obtain ⟨fr, q, hafter⟩ := afterByte_frame (s := State.menuClosed { s with curFg := fg, curBg := bg, style := st } bk w) hidle
  rw [hexit, hafter, hredraw]
  refine ⟨⟨rfl, rfl⟩, ⟨rfl, rfl, rfl⟩, ⟨rfl, rfl, rfl⟩, ⟨rfl, rfl⟩, .inr rfl, ⟨id, id⟩, fun h => ⟨hstyle h, rfl⟩,
    fun h => ⟨hcolours h, rfl⟩, fun hback r c hi hout => ?_⟩
  obtain ⟨hcanon, hmenuCells⟩ := hrestored hback
  rw [not_or] at hout
  exact (hdrawn hcanon r c hi fun hcell => hout.2 ⟨rfl, hcell⟩).trans (hmenuCells r c hi hout.1)

/-- The BYTE step with a menu open (R67). -/
theorem runByte_menuHeld (hrun : s.runnable = true) (hmenu : s.modal = some k) (hdrawn : s.drawn = false) {b : Byte}
    (hx : runByte b s = .next t) : MenuHeld k s t := by
  have hidle := inRange_hs (runnable_iff.1 hrun).2
  obtain ⟨u, hu, rfl⟩ := (runByte_next_iff b).1 hx
  have hw := decode_wfIn s.cfg s.mode b
  rw [mode_eq_menu_iff.2 hmenu] at hw hu
  obtain ⟨cr, lf, hbefore, hcr, hlf⟩ := beforeByte_menu hmenu (decode s.cfg (.menu k) b)
  rw [hbefore] at hu
  have hheld : MenuHeld k { s with skipCr := cr, skipLf := lf } (afterByte u) := by
    rcases exec_menuByteEffect (s := { s with skipCr := cr, skipLf := lf }) hmenu hw hu with
      ⟨held, digit, rfl⟩ | ⟨fg, bg, st, rfl, hstyle, hcolours⟩
    · have hopen := afterByte_menu_open (s := { s with skipCr := cr, skipLf := lf, mdigN := held, mdigV := digit }) hmenu hdrawn hidle
      exact { hopen with }
    · exact afterByte_menu_closed (s := { s with skipCr := cr, skipLf := lf }) hrun hmenu hstyle hcolours
  obtain ⟨hcr', hlf'⟩ := hheld.skips
  exact { hheld with skips := ⟨fun h => hcr (hcr' h), fun h => hlf (hlf' h)⟩ }

/-- The logic agent's turn with a menu open: a TICK only clears the pending flag (R121). -/
theorem logicTurn_menuHeld (hrun : s.runnable = true) (hmenu : s.modal = some k) (hdrawn : s.drawn = false)
    (hx : logicTurn s = .next t) : MenuHeld k s t := by
  rcases logicTurn_cases hx hrun with rfl | ⟨-, rfl⟩ | ⟨-, -, hbyte⟩
  · exact .refl hmenu hdrawn
  · have htick : tickRule s = clearLocal { s with pendTick := false } := by simp [tickRule, hmenu]
    rw [htick]
    exact { MenuHeld.refl hmenu hdrawn with }
  · exact { runByte_menuHeld (popped_runnable hrun) hmenu hdrawn hbyte with }

/-- Out of reset no event but the rise of rst does more with a menu open. -/
theorem react_menuHeld {e : Event} (hrun : s.runnable = true) (hmenu : s.modal = some k) (hdrawn : s.drawn = false)
    (hrst : s.rsu.rst = false) (he : e ≠ .rst true) (hx : react e s = .next t) : MenuHeld k s t := by
  have hsame := MenuHeld.refl hmenu hdrawn
  rcases react_cases hrun hx with ⟨rfl | ⟨b, rfl⟩, -, -⟩ | ⟨-, hrender⟩ | ⟨v, rfl, rfl⟩ | ⟨ht, -⟩
  · exact logicTurn_menuHeld hrun hmenu hdrawn hx
  · obtain ⟨u, hturn, hpush⟩ := andThen_next_iff.1 hx
    rw [pushPort_frame hpush]
    exact { logicTurn_menuHeld hrun hmenu hdrawn hturn with }
  · rcases renderTurn_cases hrun hrender with rfl | ⟨rest, bufs, rfl⟩
    · exact hsame
    · exact { hsame with }
  · rcases resetPin_cases (s := s) v with ⟨rfl, -⟩ | ⟨-, hheld, -⟩ | ⟨unit, hunit, -⟩
    · exact absurd rfl he
    · simp [hrst] at hheld
    · rw [hunit]
      exact { hsame with }
  · rw [ht]
    exact { hsame with }

/-- Settles O38: the step idles or takes its first event, and the cursor is not drawn behind a menu (R32). -/
theorem menuHoldsTheTerminal : Obligations.MenuHoldsTheTerminal := by
  unfold Obligations.MenuHoldsTheTerminal
  intro s t hopen hrst hhead hx
  obtain ⟨k, hmenu⟩ := Option.ne_none_iff_exists'.1 hopen
  obtain ⟨hlegal, hstep⟩ := step_next_iff.1 hx
  obtain ⟨-, -, hinvariants⟩ := legal_iff.1 hlegal
  obtain ⟨-, -, -, -, hmodes, -⟩ := invariants_iff.1 hinvariants
  obtain ⟨-, -, hdrawn⟩ := hmodes hopen
  have hheld : MenuHeld k s t := by
    rcases hstep with ⟨-, rfl⟩ | ⟨e, rest, hinputs, hevent⟩
    · exact .refl hmenu hdrawn
    · have he : e ≠ .rst true := fun h => hhead (by rw [hinputs, h]; rfl)
      exact { react_menuHeld (s := { s with inputs := rest }) (legal_runnable hlegal) hmenu hdrawn hrst he hevent with }
  obtain ⟨⟨hcol, hrow⟩, ⟨hscol, hsrow, hsvalid⟩, ⟨hesc, hcsi, hpb⟩, ⟨hvisible, hcount⟩, hmenu', ⟨hcr, hlf⟩,
    hstyle, hcolours, hcells⟩ := hheld
  rw [hmenu]
  refine ⟨hcol, hrow, hscol, hsrow, hsvalid, hesc, hcsi, hpb, hvisible, hcount, hmenu', hcr, hlf, fun h => ?_, fun h => ?_,
    fun k' r c hk' hback hi hout hcursor => ?_⟩
  · obtain ⟨hk, hclosed⟩ := hstyle h
    exact ⟨congrArg some hk, hclosed⟩
  · obtain ⟨hk, hclosed⟩ := hcolours h
    exact ⟨fun h => hk (Option.some.inj h), hclosed⟩
  · obtain rfl : k = k' := Option.some.inj hk'
    exact hcells hback r c hi (not_or.2 ⟨hout, hcursor⟩)

end Sys2Proof.Machine
end

section
/-! PROOFS. The frame-store swap (44_frame_store_swap.md): the two swap copies (O39), and the swap action that ends every logic
turn that changed B (O41). -/

namespace Sys2Proof.Machine

variable {s t u : State}

/-! B is written with its flag set (R29). -/

/-- From `s` to `t` the step-local flag records the writes to B: it is set, or neither B nor the flag has changed. -/
def WritesFlagged (s t : State) : Prop := t.wrote = true ∨ t.back = s.back ∧ t.wrote = s.wrote

theorem WritesFlagged.refl : WritesFlagged s s := .inr ⟨rfl, rfl⟩

theorem WritesFlagged.trans (h : WritesFlagged s t) (h' : WritesFlagged t u) : WritesFlagged s u := by
  rcases h' with hu | ⟨hback, hwrote⟩
  · exact .inl hu
  · rw [WritesFlagged, hback, hwrote]
    exact h

/-- A flag still clear after it was clear says that B is as it was. -/
theorem WritesFlagged.back_eq (h : WritesFlagged s t) (hclear : ¬t.wrote = true) : t.back = s.back :=
  (h.resolve_left hclear).1

theorem loop_writesFlagged (n : Nat) {f : Nat → State → State} (h : ∀ k u, WritesFlagged u (f k u)) : WritesFlagged s (loop n f s) :=
  loop_keeps (WritesFlagged s) n f s .refl fun k u _ hu => hu.trans (h k u)

theorem overRect_writesFlagged (w h : Nat) {f : Nat → Nat → Nat → State → State} (hf : ∀ i k j u, WritesFlagged u (f i k j u)) :
    WritesFlagged s (overRect w h f s) :=
  loop_writesFlagged h fun i _ => loop_writesFlagged w fun k u => hf i k (i * w + k) u

theorem blankSpan_writesFlagged (r c0 n : Nat) : WritesFlagged s (blankSpan r c0 n s) :=
  loop_writesFlagged n fun _ _ => .inl rfl

theorem lineBreak_writesFlagged : WritesFlagged s (lineBreak s) := by
  unfold lineBreak
  split_ifs
  · exact .inl rfl
  · exact .inr ⟨rfl, rfl⟩

theorem openModal_writesFlagged (k : MenuKind) : WritesFlagged s (openModal k s) :=
  overRect_writesFlagged (s := takeSnap (s.cfg.menu k) { s with modal := some k, mdigN := false, mdigV := 0 })
    (s.cfg.menu k).w (s.cfg.menu k).h fun _ _ _ _ => .inl rfl

theorem exitModal_writesFlagged : WritesFlagged s (exitModal s) := by
  unfold exitModal
  split
  · next k hk => exact overRect_writesFlagged (s.cfg.menu k).w (s.cfg.menu k).h fun _ _ _ _ => .inl rfl
  · exact .inr ⟨rfl, rfl⟩

/-! The rules of the byte classes that can write B. -/

theorem crRule_writesFlagged : WritesFlagged s (crRule s) := by
  unfold crRule
  split_ifs
  · exact .inr ⟨rfl, rfl⟩
  · exact lineBreak_writesFlagged

theorem lfRule_writesFlagged : WritesFlagged s (lfRule s) := by
  unfold lfRule
  split_ifs
  · exact .inr ⟨rfl, rfl⟩
  · exact lineBreak_writesFlagged

theorem printRule_writesFlagged (b : Byte) : WritesFlagged s (printRule b s) := by
  have hcell : WritesFlagged s (cursorCellSet b s) := .inl rfl
  unfold printRule
  dsimp only
  split
  · exact hcell.trans lineBreak_writesFlagged
  · exact hcell

/-- The frame of a final byte writes neither B nor the flag, so its selector's rule decides (R78). -/
theorem csiFinal_writesFlagged {f : State → State} (hf : ∀ u, WritesFlagged u (f u)) : WritesFlagged s (csiFinal f s) :=
  hf { s with pb := s.pb.final }

theorem edRule_writesFlagged : WritesFlagged s (edRule s) := by
  unfold edRule
  split_ifs
  · exact loop_writesFlagged s.cfg.rows fun r u => blankSpan_writesFlagged r 0 s.cfg.cols
  · exact .refl

theorem sgrRule_writesFlagged : WritesFlagged s (sgrRule s) :=
  loop_writesFlagged s.pb.pcount fun i u => by
    unfold sgrParam
    split_ifs <;> exact .inr ⟨rfl, rfl⟩

theorem rcpRule_writesFlagged : WritesFlagged s (rcpRule s) := by
  unfold rcpRule
  split_ifs <;> exact .inr ⟨rfl, rfl⟩

theorem pickColour_writesFlagged (v : Colour) : WritesFlagged s (pickColour v s) := by
  unfold pickColour
  split_ifs <;> exact .inr ⟨rfl, rfl⟩

theorem pickDigitRule_writesFlagged (d : BitVec 4) : WritesFlagged s (pickDigitRule d s) := by
  unfold pickDigitRule
  split_ifs
  · exact (pickColour_writesFlagged _).trans exitModal_writesFlagged
  · exact .refl
  · exact .inr ⟨rfl, rfl⟩

theorem pickBsRule_writesFlagged : WritesFlagged s (pickBsRule s) := by
  unfold pickBsRule
  split_ifs <;> exact .inr ⟨rfl, rfl⟩

theorem styleRule_writesFlagged (d : BitVec 4) : WritesFlagged s (styleRule d s) := by
  unfold styleRule
  split
  · next st _ => exact exitModal_writesFlagged (s := { s with style := st })
  · exact .refl

theorem themeRule_writesFlagged (d : BitVec 4) : WritesFlagged s (themeRule d s) := by
  unfold themeRule
  split
  · next th _ => exact exitModal_writesFlagged (s := { s with curFg := th.1, curBg := th.2 })
  · exact .refl

/-- Every byte class sets the flag when it writes B. -/
theorem exec_writesFlagged {i : Instr} (hi : isByteClass i = true) (hx : exec i s = .next t) : WritesFlagged s t := by
  cases i with
  | cr => exact run_keeps hx crRule_writesFlagged
  | lf => exact run_keeps hx lfRule_writesFlagged
  | escEntry | escCsi | escAbort x | csiDigit d | csiSep => exact run_keeps hx (.inr ⟨rfl, rfl⟩)
  | csiCuu | csiCud | csiCuf | csiCub | csiCup | csiScp | csiUnknown b =>
    exact run_keeps hx (csiFinal_writesFlagged fun _ => .inr ⟨rfl, rfl⟩)
  | csiEd => exact run_keeps hx (csiFinal_writesFlagged fun _ => edRule_writesFlagged)
  | csiEl => exact run_keeps hx (csiFinal_writesFlagged fun _ => blankSpan_writesFlagged _ _ _)
  | csiSgr => exact run_keeps hx (csiFinal_writesFlagged fun _ => sgrRule_writesFlagged)
  | csiRcp => exact run_keeps hx (csiFinal_writesFlagged fun _ => rcpRule_writesFlagged)
  | openFg | openBg | openStyle | openTheme => exact run_keeps hx (openModal_writesFlagged _)
  | bs b => exact run_keeps hx (.inl rfl)
  | print b => exact run_keeps hx (printRule_writesFlagged b)
  | modalCancel => exact run_keeps hx exitModal_writesFlagged
  | pickDigit d => exact run_keeps hx (pickDigitRule_writesFlagged d)
  | pickBs b => exact run_keeps hx pickBsRule_writesFlagged
  | styleSelect d => exact run_keeps hx (styleRule_writesFlagged d)
  | themeSelect d => exact run_keeps hx (themeRule_writesFlagged d)
  | modalIgnore b => exact run_keeps hx .refl
  | tick | line | deferredCopy | forcedCopy | ringPush b | ringPop => cases hi

/-! The overlay's actions around a byte's rule, and in a TICK. -/

theorem beforeByte_writesFlagged (i : Instr) : WritesFlagged s (beforeByte i s) := by
  rw [beforeByte, liftOverlay_eq, skipRule_eq]
  split_ifs
  · exact .inl rfl
  · exact .refl
  · exact .inl rfl
  · exact .inr ⟨rfl, rfl⟩

theorem redrawOverlay_writesFlagged : WritesFlagged s (redrawOverlay s) := by
  unfold redrawOverlay
  split_ifs
  · exact .inl rfl
  · exact .refl

theorem blinkStep_writesFlagged : WritesFlagged s (blinkStep s) := by
  unfold blinkStep toggleOverlay
  split_ifs
  · exact .inr ⟨rfl, rfl⟩
  · exact .inl rfl
  · exact .inl rfl
  · exact .inr ⟨rfl, rfl⟩
  · exact .inr ⟨rfl, rfl⟩

/-! The swap action that ends a logic step. -/

/-- If B changed from `s` to `t`, the policy `p` has been carried out: a request pends over the old F, or F is the new B and no
request is left (R109, R110). -/
def EditPublished (p : SwapPolicy) (s t : State) : Prop :=
  t.back ≠ s.back →
    (p = .deferred → t.swapReq = true ∧ t.front = s.front) ∧ (p = .forced → t.swapReq = false ∧ t.front = t.back)

/-- The swap action publishes what was written since `s`: B changed with the flag set, and the action's guard is that flag. -/
theorem swapAfterEdit_editPublished (p : SwapPolicy) (hidle : u.hs = Handshake.idle) (hfront : u.front = s.front)
    (hflagged : WritesFlagged s u) : EditPublished p s (clearLocal (swapAfterEdit p u)) := by
  rw [swapAfterEdit_eq p hidle]
  split_ifs with hwrote
  · cases p with
    | deferred => exact fun _ => ⟨fun _ => ⟨rfl, hfront⟩, nofun⟩
    | forced => exact fun _ => ⟨nofun, fun _ => ⟨rfl, rfl⟩⟩
  · exact fun hne => absurd (hflagged.back_eq hwrote) hne

theorem tickRule_editPublished (hidle : s.hs = Handshake.idle) : EditPublished s.cfg.swapOnBlink s (tickRule s) := by
  obtain ⟨-, hfront, -, hhs⟩ := blinkStep_frame (s := clearLocal { s with pendTick := false })
  unfold tickRule
  dsimp only
  split_ifs
  · exact absurd rfl
  · exact swapAfterEdit_editPublished (s := clearLocal { s with pendTick := false }) _ (hhs.trans hidle) hfront
      blinkStep_writesFlagged

/-- The BYTE step writes B before its class's rule, in it, and after it; its swap action comes last (R67). -/
theorem runByte_editPublished {b : Byte} (hidle : s.hs = Handshake.idle) (hx : runByte b s = .next t) :
    EditPublished s.cfg.swapOnByte s t := by
  obtain ⟨u, hu, rfl⟩ := (runByte_next_iff b).1 hx
  have hbyte := decode_isByte s.cfg s.mode b
  obtain ⟨hfrontBefore, hhsBefore, hcfgBefore⟩ := beforeByte_keeps (s := s) (decode s.cfg s.mode b)
  obtain ⟨hfrontAfter, hcfgAfter⟩ := redrawOverlay_keeps (s := u)
  obtain ⟨hhsRule, hcfgRule⟩ := exec_decoded_keeps hu
  have hfrontRule : u.front = s.front := by rw [exec_byte_frame hbyte hu]; exact hfrontBefore
  have hcfg : (redrawOverlay u).cfg = s.cfg := hcfgAfter.trans (hcfgRule.trans hcfgBefore)
  rw [← hcfg]
  exact swapAfterEdit_editPublished _ (redrawOverlay_hs.trans (hhsRule.trans (hhsBefore.trans hidle)))
    (hfrontAfter.trans hfrontRule)
    (((beforeByte_writesFlagged _).trans (exec_writesFlagged hbyte hu)).trans redrawOverlay_writesFlagged)

/-- The policy of the kind of step that the logic agent's turn takes: TICK before BYTE (R108, R140). -/
theorem logicTurn_editPublished (hrun : s.runnable = true) (hx : logicTurn s = .next t) :
    EditPublished (if s.pendTick then s.cfg.swapOnBlink else s.cfg.swapOnByte) s t := by
  have hidle := inRange_hs (runnable_iff.1 hrun).2
  rcases logicTurn_cases hx hrun with rfl | ⟨htick, rfl⟩ | ⟨htick, -, hbyte⟩
  · exact absurd rfl
  · rw [if_pos htick]
    exact tickRule_editPublished hidle
  · rw [if_neg (Bool.eq_false_iff.1 htick)]
    have hpublished := runByte_editPublished (by exact hidle) hbyte
    exact hpublished

/-- Settles O41: the step takes the logic agent's turn, in which every write to B sets the flag that guards the swap action. -/
theorem editsArePublished : Obligations.EditsArePublished := by
  unfold Obligations.EditsArePublished
  intro s t rest hinputs hx
  obtain ⟨hlegal, -⟩ := step_next_iff.1 hx
  rw [step_react hlegal hinputs] at hx
  exact logicTurn_editPublished (s := { s with inputs := rest }) (legal_runnable hlegal) hx

/-! The swap copies. -/

theorem exec_forcedCopy_of_runnable (h : s.runnable = true) : exec .forcedCopy s = .next (forcedSwap s) := run_eq h

theorem exec_deferredCopy_of_runnable (h : s.runnable = true) : exec .deferredCopy s = .next (deferredSwap s) := run_eq h

theorem forcedSwap_runnable (s : State) : (forcedSwap s).runnable = s.runnable := rfl

theorem forcedSwap_idempotent (s : State) : forcedSwap (forcedSwap s) = forcedSwap s := rfl

theorem deferredSwap_of_request (h : s.swapReq = true) : deferredSwap s = forcedSwap s := if_pos h

theorem deferredSwap_of_no_request (h : s.swapReq = false) : deferredSwap s = s := if_neg (Bool.eq_false_iff.1 h)

/-- Settles O39: DEFERRED_COPY is FORCED_COPY under a pending request, and FORCED_COPY is idempotent. -/
theorem swapCopies : Obligations.SwapCopies := by
  unfold Obligations.SwapCopies
  intro s hrun
  have hforced := exec_forcedCopy_of_runnable hrun
  have hagain : exec .forcedCopy (forcedSwap s) = .next (forcedSwap s) := by
    rw [exec_forcedCopy_of_runnable ((forcedSwap_runnable s).trans hrun), forcedSwap_idempotent]
  refine ⟨hforced, fun hreq => ?_, fun hreq => ?_, ?_, fun heq => ⟨forcedSwap s, hforced, heq.symm⟩⟩
  · rw [exec_deferredCopy_of_runnable hrun, deferredSwap_of_request hreq]
    rfl
  · rw [exec_deferredCopy_of_runnable hrun, deferredSwap_of_no_request hreq]
  · simp only [execAll, hforced, hagain, andThen]

end Sys2Proof.Machine
end

section
/-! PROOFS. Cursor overlay (45_cursor_overlay.md): drawing and removing the cursor (O43), the TICK step (O44), and the blink's
period (O45). -/

namespace Sys2Proof.Machine

variable {s t u : State} {n : Nat}

/-! Drawing the cursor, then removing it. -/

/-- Settles O43: what is written back is the cell captured, over the background that the drawing left (R117 to R119). -/
theorem overlayNonDestructive : Obligations.OverlayNonDestructive := by
  unfold Obligations.OverlayNonDestructive
  intro s hrun hback
  obtain ⟨hconfig, hrange⟩ := runnable_iff.1 hrun
  have hcursor := inRange_cursor hrange
  obtain ⟨bk, hdraw, hdrawn⟩ := overlayDraw_spec hback hconfig hcursor
  obtain ⟨bk', hremove, hremoved⟩ := overlayRemove_spec (s := overlayDraw s) (by rw [hdraw]; exact hdrawn.canonical) hconfig
    hcursor
  rw [hdraw] at hremove hremoved
  obtain rfl : bk' = s.back := hdrawn.undone (config_cols8 hconfig) hback hremoved fun r c hcell => by
    have hbg := congrArg GridCell.bg (hdrawn.written r c hcell)
    obtain ⟨rfl, rfl⟩ := hcell
    exact congrArg (GridCell.mk _ _) hbg
  rw [hdraw, hremove]

/-! The iteration of the blink counter (R120). -/

theorem blinkStep_below (hlt : s.blinkCnt + 1 < s.cfg.blinkTicks) : blinkStep s = { s with blinkCnt := s.blinkCnt + 1 } :=
  if_neg (Nat.not_le.2 hlt)

theorem blinkStep_at (hge : s.cfg.blinkTicks ≤ s.blinkCnt + 1) :
    blinkStep s = toggleOverlay { s with blinkCnt := 0, curVisible := !s.curVisible } :=
  if_pos hge

theorem blinkStep_draws (hge : s.cfg.blinkTicks ≤ s.blinkCnt + 1) (hhidden : s.curVisible = false) (hundrawn : s.drawn = false) :
    blinkStep s = overlayDraw { s with blinkCnt := 0, curVisible := true } := by
  rw [blinkStep_at hge, hhidden, toggleOverlay, if_pos (by rfl), if_neg (Bool.eq_false_iff.1 hundrawn)]
  rfl

theorem blinkStep_removes (hge : s.cfg.blinkTicks ≤ s.blinkCnt + 1) (hvisible : s.curVisible = true) (hdrawn : s.drawn = true) :
    blinkStep s = overlayRemove { s with blinkCnt := 0, curVisible := false } := by
  rw [blinkStep_at hge, hvisible, toggleOverlay, if_neg (by nofun), if_pos hdrawn]
  rfl

/-- A cursor that toggles into what B shows already is neither drawn nor removed. -/
theorem blinkStep_matching (hge : s.cfg.blinkTicks ≤ s.blinkCnt + 1) (hne : s.curVisible ≠ s.drawn) :
    blinkStep s = { s with blinkCnt := 0, curVisible := !s.curVisible } := by
  have hdrawn : s.drawn = !s.curVisible := Bool.eq_not.2 hne.symm
  rw [blinkStep_at hge, toggleOverlay]
  dsimp only
  rw [hdrawn]
  split_ifs <;> rfl

/-! The TICK step around that iteration. -/

/-- The state in which the blink counter is iterated: the tick taken, the step-local values clear (R29, R141). -/
def State.tickTaken (s : State) : State := clearLocal { s with pendTick := false }

theorem exec_tick_of_runnable (h : s.runnable = true) : exec .tick s = .next (tickRule s) := run_eq h

theorem tickRule_of_menu (hmenu : s.modal ≠ none) : tickRule s = s.tickTaken := if_pos (Option.isSome_iff_ne_none.2 hmenu)

theorem tickRule_of_no_menu (hnone : s.modal = none) :
    tickRule s = clearLocal (swapAfterEdit s.cfg.swapOnBlink (blinkStep s.tickTaken)) :=
  if_neg (by rw [hnone]; nofun)

theorem blinkStep_tickTaken_idle (hidle : s.hs = Handshake.idle) : (blinkStep s.tickTaken).hs = Handshake.idle := by
  obtain ⟨-, -, -, hhs⟩ := blinkStep_frame (s := s.tickTaken)
  exact hhs.trans hidle

theorem clearLocal_published (p : SwapPolicy) (s : State) : clearLocal (s.published p) = (clearLocal s).published p := by
  cases p <;> rfl

/-- With no menu open the blink's change to B, if there is one, is published by SWAP_ON_BLINK (R109, R120). -/
theorem tickRule_published (hnone : s.modal = none) (hidle : s.hs = Handshake.idle) : tickRule s =
    if (blinkStep s.tickTaken).wrote then (clearLocal (blinkStep s.tickTaken)).published s.cfg.swapOnBlink
    else clearLocal (blinkStep s.tickTaken) := by
  rw [tickRule_of_no_menu hnone, swapAfterEdit_published _ (blinkStep_tickTaken_idle hidle), apply_ite clearLocal, clearLocal_published]

/-- Settles O44: the clauses are the branches of TICK and of the blink's iteration, with what drawing and removing the overlay
write (R117, R118, R120). -/
theorem tickStep : Obligations.TickStep := by
  unfold Obligations.TickStep
  intro s hrun u
  obtain ⟨hconfig, hrange⟩ := runnable_iff.1 hrun
  have hidle := inRange_hs hrange
  have hcursor := inRange_cursor hrange
  have hoverlay := inRange_overlay hrange
  rw [exec_tick_of_runnable hrun]
  refine ⟨fun hmenu => ?_, fun hnone hlt => ?_, fun hnone hge => ⟨fun hv hd hback => ?_, fun hv hd hback => ?_, fun hne => ?_⟩⟩
  · rw [tickRule_of_menu hmenu]
    rfl
  · rw [tickRule_published hnone hidle, blinkStep_below (s := s.tickTaken) hlt]
    rfl
  · obtain ⟨bk, hdraw, hedit⟩ := overlayDraw_spec (s := { s.tickTaken with blinkCnt := 0, curVisible := true }) hback hconfig hcursor
    refine ⟨bk, ?_, hedit⟩
    rw [tickRule_published hnone hidle, blinkStep_draws (s := s.tickTaken) hge hv hd, hdraw]
    rfl
  · obtain ⟨bk, hremove, hedit⟩ := overlayRemove_spec (s := { s.tickTaken with blinkCnt := 0, curVisible := false }) hback hconfig
      hoverlay
    refine ⟨bk, ?_, hedit⟩
    rw [tickRule_published hnone hidle, blinkStep_removes (s := s.tickTaken) hge hv hd, hremove]
    rfl
  · rw [tickRule_published hnone hidle, blinkStep_matching (s := s.tickTaken) hge hne]
    rfl

/-! Any number of TICK steps. -/

theorem overlayRemove_runnable (s : State) : (overlayRemove s).runnable = s.runnable := rfl

/-- Drawing puts the overlay's place at the cursor, which is in the grid (R117). -/
theorem overlayDraw_runnable (h : s.runnable = true) : (overlayDraw s).runnable = true := by
  obtain ⟨hconfig, hrange⟩ := runnable_iff.1 h
  obtain ⟨hcol, hrow, hmode, hscol, hsrow, hparams, hblink, -, -, hrest⟩ := inRange_iff.1 hrange
  exact runnable_iff.2 ⟨hconfig, inRange_iff.2 ⟨hcol, hrow, hmode, hscol, hsrow, hparams, hblink, hcol, hrow, hrest⟩⟩

theorem toggleOverlay_runnable (h : s.runnable = true) : (toggleOverlay s).runnable = true := by
  unfold toggleOverlay
  split_ifs
  · exact h
  · exact overlayDraw_runnable h
  · exact (overlayRemove_runnable s).trans h
  · exact h

/-- A blink counter below BLINK_TICKS is a legal value. -/
theorem runnable_of_blink (h : s.runnable = true) {c : Nat} (hc : c < s.cfg.blinkTicks) (v : Bool) :
    ({ s with blinkCnt := c, curVisible := v } : State).runnable = true := by
  obtain ⟨hconfig, hrange⟩ := runnable_iff.1 h
  obtain ⟨hcol, hrow, hmode, hscol, hsrow, hparams, -, hrest⟩ := inRange_iff.1 hrange
  exact runnable_iff.2 ⟨hconfig, inRange_iff.2 ⟨hcol, hrow, hmode, hscol, hsrow, hparams, hc, hrest⟩⟩

theorem blinkStep_runnable (h : s.runnable = true) : (blinkStep s).runnable = true := by
  obtain ⟨hconfig, -⟩ := runnable_iff.1 h
  obtain ⟨-, -, -, -, hticks, -⟩ := config_pos hconfig
  rcases Nat.lt_or_ge (s.blinkCnt + 1) s.cfg.blinkTicks with hlt | hge
  · rw [blinkStep_below hlt]
    exact runnable_of_blink h hlt s.curVisible
  · rw [blinkStep_at hge]
    exact toggleOverlay_runnable (runnable_of_blink h hticks (!s.curVisible))

/-- What TICK leaves of the terminal: the cursor, the colours, the style and the parser, with no menu opened or closed. -/
structure TerminalKept (s t : State) : Prop where
  config : t.cfg = s.cfg
  cursor : t.curCol = s.curCol ∧ t.curRow = s.curRow
  colours : t.curFg = s.curFg ∧ t.curBg = s.curBg
  style : t.style = s.style
  parser : t.pb = s.pb
  menu : t.modal = s.modal

theorem TerminalKept.refl : TerminalKept s s := ⟨rfl, ⟨rfl, rfl⟩, ⟨rfl, rfl⟩, rfl, rfl, rfl⟩

theorem TerminalKept.trans (h : TerminalKept s t) (h' : TerminalKept t u) : TerminalKept s u where
  config := h'.config.trans h.config
  cursor := ⟨h'.cursor.1.trans h.cursor.1, h'.cursor.2.trans h.cursor.2⟩
  colours := ⟨h'.colours.1.trans h.colours.1, h'.colours.2.trans h.colours.2⟩
  style := h'.style.trans h.style
  parser := h'.parser.trans h.parser
  menu := h'.menu.trans h.menu

/-- The overlay's toggling writes no register of the terminal or of the blink. -/
theorem toggleOverlay_keeps : TerminalKept s (toggleOverlay s) ∧ (toggleOverlay s).blinkCnt = s.blinkCnt ∧
    (toggleOverlay s).curVisible = s.curVisible := by
  unfold toggleOverlay
  split_ifs <;> exact ⟨⟨rfl, ⟨rfl, rfl⟩, ⟨rfl, rfl⟩, rfl, rfl, rfl⟩, rfl, rfl⟩

/-- From `s` to `t` the blink has counted `n` ticks: modulo BLINK_TICKS, with one toggle each time round (R120). -/
structure Blinked (n : Nat) (s t : State) : Prop where
  kept : TerminalKept s t
  runs : t.runnable = true
  count : t.blinkCnt = (s.blinkCnt + n) % s.cfg.blinkTicks
  visible : t.curVisible = (s.curVisible ^^ decide ((s.blinkCnt + n) / s.cfg.blinkTicks % 2 = 1))

theorem Blinked.zero (h : s.runnable = true) : Blinked 0 s s := by
  obtain ⟨-, hrange⟩ := runnable_iff.1 h
  obtain ⟨-, -, -, -, -, -, hblink, -⟩ := inRange_iff.1 hrange
  refine ⟨.refl, h, ?_, ?_⟩
  · rw [Nat.add_zero, Nat.mod_eq_of_lt hblink]
  · simp [Nat.div_eq_of_lt hblink]

/-- Counting one past a number whose remainder is not the last: the quotient stays. -/
theorem succ_div_mod_of_lt {m k : Nat} (hlt : m % k + 1 < k) : (m + 1) / k = m / k ∧ (m + 1) % k = m % k + 1 :=
  (Nat.div_mod_unique (by omega)).2 ⟨by have := Nat.mod_add_div m k; omega, hlt⟩

/-- Counting one past a number whose remainder is the last: the quotient steps and the remainder restarts. -/
theorem succ_div_mod_of_ge {m k : Nat} (hpos : 0 < k) (hge : k ≤ m % k + 1) : (m + 1) / k = m / k + 1 ∧ (m + 1) % k = 0 := by
  have hlt := Nat.mod_lt m hpos
  refine (Nat.div_mod_unique hpos).2 ⟨?_, hpos⟩
  have := Nat.mod_add_div m k
  rw [Nat.mul_succ]
  omega

theorem decide_odd_succ (q : Nat) : decide ((q + 1) % 2 = 1) = !decide (q % 2 = 1) := by
  rcases Nat.mod_two_eq_zero_or_one q with h | h <;> simp [Nat.add_mod, h]

/-- One more tick counts below BLINK_TICKS, and restarts and toggles at it. -/
theorem Blinked.iterate (h : Blinked n s t) : Blinked (n + 1) s (blinkStep t) := by
  obtain ⟨hkept, hruns, hcount, hvisible⟩ := h
  have hruns' := blinkStep_runnable hruns
  obtain ⟨hconfig, -⟩ := runnable_iff.1 hruns
  obtain ⟨-, -, -, -, hticks, -⟩ := config_pos hconfig
  rcases Nat.lt_or_ge (t.blinkCnt + 1) t.cfg.blinkTicks with hlt | hge
  · rw [blinkStep_below hlt] at hruns' ⊢
    rw [hcount, hkept.config] at hlt
    obtain ⟨hdiv, hmod⟩ := succ_div_mod_of_lt hlt
    refine ⟨{ hkept with }, hruns', ?_, ?_⟩
    · rw [← Nat.add_assoc, hmod, ← hcount]
    · rw [← Nat.add_assoc, hdiv, ← hvisible]
  · rw [blinkStep_at hge] at hruns' ⊢
    rw [hkept.config] at hticks
    rw [hcount, hkept.config] at hge
    obtain ⟨hdiv, hmod⟩ := succ_div_mod_of_ge hticks hge
    obtain ⟨hkept', hcount', hvisible'⟩ := toggleOverlay_keeps (s := { t with blinkCnt := 0, curVisible := !t.curVisible })
    refine ⟨.trans (t := { t with blinkCnt := 0, curVisible := !t.curVisible }) { hkept with } hkept', hruns', ?_, ?_⟩
    · rw [hcount', ← Nat.add_assoc, hmod]
    · rw [hvisible', hvisible, ← Nat.add_assoc, hdiv, decide_odd_succ, Bool.xor_not]

/-- TICK with no menu open counts what its iteration counts: taking the tick and the swap action write no blink register. -/
theorem Blinked.tick (h : Blinked n s t) (hnone : s.modal = none) : Blinked (n + 1) s (tickRule t) := by
  have hidle := inRange_hs (runnable_iff.1 h.runs).2
  have htaken : Blinked n s t.tickTaken := { h with kept := { h.kept with } }
  obtain ⟨hkept, hruns, hcount, hvisible⟩ := htaken.iterate
  obtain ⟨fr, q, hswap, -⟩ := swapAfterEdit_frame t.cfg.swapOnBlink (s := blinkStep t.tickTaken) (blinkStep_tickTaken_idle hidle)
  rw [tickRule_of_no_menu (h.kept.menu.trans hnone), hswap]
  exact ⟨{ hkept with }, hruns, hcount, hvisible⟩

theorem execAll_ticks (hrun : s.runnable = true) (hnone : s.modal = none) (n : Nat) :
    ∃ t, execAll (List.replicate n .tick) s = .next t ∧ Blinked n s t := by
  induction n with
  | zero => exact ⟨s, rfl, .zero hrun⟩
  | succ n ih =>
    obtain ⟨t, hx, ht⟩ := ih
    refine ⟨tickRule t, ?_, ht.tick hnone⟩
    rw [List.replicate_succ', execAll_append, hx, andThen, execAll, exec_tick_of_runnable ht.runs]
    rfl

/-- Settles O45, by induction on the number of TICK steps. -/
theorem blinkPeriod : Obligations.BlinkPeriod := by
  unfold Obligations.BlinkPeriod
  intro n s hrun hnone
  obtain ⟨t, hx, ⟨-, ⟨hcol, hrow⟩, ⟨hfg, hbg⟩, hstyle, hpb, hmenu⟩, -, hcount, hvisible⟩ := execAll_ticks hrun hnone n
  exact ⟨t, hx, hcount, hvisible, hcol, hrow, hfg, hbg, hstyle, hpb, hmenu.trans hnone⟩

end Sys2Proof.Machine
end

section
/-! PROOFS. The scanline encoder (46_scanline_encoder.md): the glyph row after the overrides, the lanes of a sink buffer and the
pixels in its words, and the LINE step (O46 to O49). -/

namespace Sys2Proof.Machine

variable {s : State} {cfg : Config} {f : Store} {p row gr c j k : Nat} {phase : Bool}

/-! The glyph row (R127). -/

/-- The blink override, applied second, clears what the underline may have set. -/
theorem glyphPattern_blinked (ch : Byte) (ul : Bool) : glyphPattern cfg ch gr ul true false = 0x00 := rfl

/-- Out of the blink's off phase the underline alone decides. -/
theorem glyphPattern_unblinked {ul bk : Bool} (ch : Byte) (h : ¬(bk = true ∧ phase = false)) :
    glyphPattern cfg ch gr ul bk phase = if ul = true ∧ gr = cfg.glyphH - 1 then 0xFF else fontAt cfg ch gr := by
  have hoff : (bk && !phase) = false := by simpa using h
  simp only [glyphPattern, hoff, Bool.false_eq_true, if_false, Bool.and_eq_true, decide_eq_true_eq]

/-- Settles O49: the off phase of the blink first, then the underline on the last glyph row. -/
theorem glyphOverride : Obligations.GlyphOverride := by
  unfold Obligations.GlyphOverride
  intro cfg ch gr ul bk phase
  refine ⟨fun hbk hoff => ?_, fun hshown hul hlast => ?_, fun hshown hplain => ?_⟩
  · rw [hbk, hoff, glyphPattern_blinked]
  · rw [glyphPattern_unblinked ch hshown, if_pos ⟨hul, hlast⟩]
  · rw [glyphPattern_unblinked ch hshown, if_neg hplain]

/-! The lanes (R132). -/

/-- Lane p of a scanline is plane p's words: the lanes before it fill the words up to its offset. -/
theorem encodeLine_lane (h8 : cfg.cols % 8 = 0) (hp : p < 3) (hj : j < 4 * cfg.cols) :
    (encodeLine cfg f row gr phase)[p * 4 * cfg.cols + j]? = (encodePlane cfg f p row gr phase)[j]? := by
  have hlen (q : Nat) : (encodePlane cfg f q row gr phase).length = 4 * cfg.cols := (encodePlane_spec h8).1
  unfold encodeLine
  interval_cases p
  · rw [List.append_assoc, List.getElem?_append_left (by rw [hlen]; omega), Nat.zero_mul, Nat.zero_add]
  · rw [List.append_assoc, List.getElem?_append_right (by rw [hlen]; omega), hlen, Nat.one_mul, Nat.add_sub_cancel_left,
      List.getElem?_append_left (by rw [hlen]; omega)]
  · rw [List.getElem?_append_right (by rw [List.length_append, hlen, hlen]; omega), List.length_append, hlen, hlen]
    congr 1
    omega

/-- Settles O47: three planes of 4*COLS words, each behind the ones before it. -/
theorem scanlineLayout : Obligations.ScanlineLayout := by
  unfold Obligations.ScanlineLayout
  intro cfg f row gr phase hconfig
  have h8 := config_cols8 hconfig
  exact ⟨encodeLine_length h8 f row gr phase, fun p j hp hj => ⟨(encodePlane_spec h8).1, encodeLine_lane h8 hp hj⟩⟩

/-! The pixels (R122 to R125, R128). -/

/-- A pixel's level on channel p is its cell's foreground or background level of that channel (R36, R37, R123). -/
theorem lvl_nib (hp : p < 3) (x : Bool) :
    lvl (Store.nib cfg f p row c) x = if x then chan (Store.fgOf cfg f row c) p else chan (Store.bgOf cfg f row c) p := by
  rw [lvl, Store.nib_of_colours hp, colourNib_fg, colourNib_bg]

/-- Two lookups in each of the two font nibbles give the glyph row's four pixel pairs in order (R122, R125, R128). -/
theorem cellWords_getElem? (cn : Nibble) (fb : Byte) (hk : k < 4) :
    (cellWords cfg cn fb)[k]? = some (outWord cfg (lvl cn (fb.getLsbD (2 * k))) (lvl cn (fb.getLsbD (2 * k + 1)))) := by
  interval_cases k <;> simp [cellWords, lutWord]

/-- Settles O48: word j of a lane is word j % 4 of the plane's cell j / 4, the pair of the cell's pixels 2(j % 4) and
2(j % 4) + 1. -/
theorem encodedPixels : Obligations.EncodedPixels := by
  unfold Obligations.EncodedPixels
  intro cfg f row gr phase p j hconfig hp hj c pat level
  have h8 := config_cols8 hconfig
  have hcell : (encodePlane cfg f p row gr phase)[j]? = (cellWords cfg (Store.nib cfg f p row c) pat)[j % 4]? :=
    (encodePlane_spec h8).2 j hj
  rw [encodeLine_lane h8 hp hj, hcell, cellWords_getElem? _ _ (Nat.mod_lt j (by decide)), lvl_nib hp, lvl_nib hp]
  rfl

/-! The LINE step (R133). -/

/-- A LINE step with a free buffer keeps no buffer: the one it took is submitted, and it owned none before. -/
theorem lineRule_submits {id : Nat} {rest : List Nat} (hr : s.inRange = true) (hf : s.skFree = id :: rest) : lineRule s = { s with
    skFree := rest, front := s.lineFront, blinkPhase := s.linePhase, swapReq := s.swapReq && decide (s.line ≠ 0)
    submitted := ⟨id, s.lineWords⟩ :: s.submitted, line := (s.line + 1) % s.cfg.frameLines } := by
  obtain ⟨-, -, -, -, -, -, -, -, -, -, -, hidle, -, howned⟩ := inRange_iff.1 hr
  rw [lineRule_free hidle hf, ← howned]

/-- Settles O46: it waits for a buffer, and with one runs the whole of `lineRule`. -/
theorem lineStep : Obligations.LineStep := by
  unfold Obligations.LineStep
  intro s hrun
  obtain ⟨-, hrange⟩ := runnable_iff.1 hrun
  have hexec : exec .line s = .next (lineRule s) := run_eq hrun
  refine ⟨fun hfree => ?_, fun id rest hfree => ?_⟩
  · rw [hexec, lineRule_wait hfree]
  · rw [hexec, lineRule_submits hrange hfree]
    rfl

end Sys2Proof.Machine
end

section
/-! PROOFS. Interfaces (47_interfaces.md): the input ring (O51 to O53), the logic agent's turn (O8), the host's ports (O55, O56), and
a push in the cycle of a turn (O54). -/

namespace Sys2Proof.Machine

variable {s t u : State} {n : Nat} {q : Ring} {b : Byte}

/-! The ring (R136, R137, R139). -/

theorem Ring.push_full (h : q.count = n) : q.push n b = { q with overflow := true } := if_pos h

theorem Ring.push_room (h : q.count ≠ n) :
    q.push n b = { q with buf := q.buf.set q.head b, head := (q.head + 1) % n, count := q.count + 1 } := if_neg h

theorem Ring.pop_empty (h : q.count = 0) : q.pop n = (none, q) := if_pos h

theorem exec_ringPush_of_runnable (h : s.runnable = true) (b : Byte) :
    exec (.ringPush b) s = .next { s with ring := s.ring.push s.cfg.ringN b } := run_eq h

/-- Settles O51: the two branches of Push. -/
theorem ringPush : Obligations.RingPush := by
  unfold Obligations.RingPush
  intro s b hrun
  rw [exec_ringPush_of_runnable hrun]
  exact ⟨fun hfull => by rw [Ring.push_full hfull], fun hroom => by rw [Ring.push_room hroom]⟩

/-- Settles O52: the two branches of Pop. -/
theorem ringPop : Obligations.RingPop := by
  unfold Obligations.RingPop
  intro s hrun
  rw [execRingPop_eq hrun]
  exact ⟨fun hempty => by rw [Ring.pop_empty hempty], fun hsome => by rw [Ring.pop_some hsome]⟩

/-- A push appends its byte unless the ring is full (R136). -/
theorem Ring.contents_push (h : q.inRange n = true) (hl : q.linked n = true) (b : Byte) :
    (q.push n b).contents n = if (q.contents n).length < n then q.contents n ++ [b] else q.contents n := by
  obtain ⟨-, -, -, hle⟩ := Ring.inRange_iff.1 h
  rw [Ring.contents_length]
  by_cases hfull : q.count = n
  · rw [if_neg (by omega), Ring.contents_push_full hfull]
  · rw [if_pos (by omega), Ring.contents_push_room h hl hfull]

/-- A pop answers the oldest byte, if there is one, and leaves the others (R137). -/
theorem Ring.pop_contents (h : q.inRange n = true) :
    (q.pop n).1 = (q.contents n).head? ∧ (q.pop n).2.contents n = (q.contents n).tail := by
  by_cases hempty : q.count = 0
  · have hnil : q.contents n = [] := List.length_eq_zero_iff.1 (Ring.contents_length.trans hempty)
    rw [Ring.pop_empty hempty]
    exact ⟨by rw [hnil]; rfl, by rw [hnil]; rfl⟩
  · exact Ring.contents_pop h hempty

theorem runnable_ring (h : s.runnable = true) : s.ring.inRange s.cfg.ringN = true := by
  obtain ⟨-, hrange⟩ := runnable_iff.1 h
  obtain ⟨-, -, -, -, -, -, -, -, -, -, -, -, hring, -⟩ := inRange_iff.1 hrange
  exact hring

/-- Settles O53: each operation on the ring is the queue's on its contents. -/
theorem ringIsQueue : Obligations.RingIsQueue := by
  unfold Obligations.RingIsQueue
  intro s b hrun hlinked
  have hrange := runnable_ring hrun
  obtain ⟨-, hpushed⟩ := Ring.push_ok (b := b) hrange hlinked
  obtain ⟨-, hpopped⟩ := Ring.pop_ok hrange hlinked
  exact ⟨⟨_, exec_ringPush_of_runnable hrun b, hpushed, Ring.contents_push hrange hlinked b⟩,
    ⟨_, execRingPop_eq hrun, hpopped, Ring.pop_contents hrange⟩⟩

/-! The logic agent's turn (R140). -/

theorem logicTurn_tick (hruns : logicRuns s = true) (htick : s.pendTick = true) : logicTurn s = exec .tick s := by
  rw [logicTurn, if_pos hruns, if_pos htick]

theorem logicTurn_idle (hruns : logicRuns s = true) (htick : s.pendTick = false) (hempty : s.ring.count = 0) :
    logicTurn s = .next s := by
  rw [logicTurn, if_pos hruns, if_neg (Bool.eq_false_iff.1 htick), if_neg (by omega)]

theorem logicTurn_waits (hruns : logicRuns s = false) : logicTurn s = .next s := if_neg (Bool.eq_false_iff.1 hruns)

/-- RING_POP from a ring that is not empty, between the clearing of the step-local values and the byte's run (R29, R137). -/
theorem exec_ringPop_afterPop (h : s.runnable = true) (rest : List Event) (hcount : 0 < s.ring.count) :
    exec .ringPop { s with inputs := rest, wrote := false, popped := none } = .next (s.afterPop rest) := by
  rw [execRingPop_eq (s := { s with inputs := rest, wrote := false, popped := none }) h, State.afterPop,
    Ring.pop_some (Nat.ne_of_gt hcount)]
  rfl

/-- Settles O8: the three branches of the turn, the BYTE step being the pop and the popped byte's run. -/
theorem logicAgentTurn : Obligations.LogicAgentTurn := by
  unfold Obligations.LogicAgentTurn
  intro s rest hlegal hinputs hruns
  have hrun := legal_runnable hlegal
  have hstep : step s = logicTurn { s with inputs := rest } := step_react hlegal hinputs
  refine ⟨fun htick => ?_, fun htick hcount => ?_, fun htick hempty => ?_⟩
  · rw [hstep, logicTurn_tick (s := { s with inputs := rest }) hruns htick]
    exact ⟨_, exec_tick_of_runnable hrun, exec_tick_of_runnable hrun⟩
  · obtain ⟨v, -, hbyte⟩ := runByte_of_runnable (afterPop_runnable hrun rest) s.nextByte
    exact ⟨s.afterPop rest, afterByte v, exec_ringPop_afterPop hrun rest hcount, rfl, hbyte,
      (step_eq_runByte hlegal hinputs hruns htick hcount).trans hbyte⟩
  · rw [hstep, logicTurn_idle (s := { s with inputs := rest }) hruns htick hempty]

/-! The host's ports (R134, R136, R141, R142, R144). -/

theorem pushPort_runs (h : portsRun s = true) (b : Byte) : pushPort b s = exec (.ringPush b) s := if_pos h

theorem pushPort_lost (h : portsRun s = false) (b : Byte) : pushPort b s = .next s := if_neg (Bool.eq_false_iff.1 h)

theorem renderTurn_runs (h : renderRuns s = true) : renderTurn s = exec .line s := if_pos h

theorem renderTurn_waits (h : renderRuns s = false) : renderTurn s = .next s := if_neg (Bool.eq_false_iff.1 h)

theorem tickPort_sets (h : portsRun s = true) : tickPort s = { s with pendTick := true } := if_pos h

theorem tickPort_lost (h : portsRun s = false) : tickPort s = s := if_neg (Bool.eq_false_iff.1 h)

theorem sinkOffer_fits {id : Nat} (h : id < 2 ^ s.cfg.skw) : sinkOffer id s = .next { s with skFree := s.skFree ++ [id] } := if_pos h

theorem sinkOffer_wide {id : Nat} (h : 2 ^ s.cfg.skw ≤ id) : sinkOffer id s = .refused .handleTooWide := if_neg (Nat.not_lt.2 h)

theorem step_idle (hlegal : s.legal = true) (hinputs : s.inputs = []) : step s = .next s :=
  step_next_iff.2 ⟨hlegal, .inl ⟨hinputs, rfl⟩⟩

/-- Settles O56: each port is read off the event's branch. -/
theorem hostPorts : Obligations.HostPorts := by
  unfold Obligations.HostPorts
  intro s rest hlegal
  have hrun : ({ s with inputs := rest } : State).runnable = true := legal_runnable hlegal
  refine ⟨fun b hports hinputs => ?_, fun id hinputs hfits => ?_, fun id hinputs hwide => ?_, fun hruns hinputs => ?_,
    step_idle hlegal⟩
  · obtain ⟨t, hx⟩ := (exec_runnable (.ringPush b)).1 hrun
    refine ⟨t, hx, (step_react hlegal hinputs).trans ?_⟩
    exact (pushPort_runs (s := { s with inputs := rest }) hports b).trans hx
  · exact (step_react hlegal hinputs).trans (sinkOffer_fits hfits)
  · exact (step_react hlegal hinputs).trans (sinkOffer_wide hwide)
  · obtain ⟨t, hx⟩ := (exec_runnable .line).1 hrun
    refine ⟨t, hx, (step_react hlegal hinputs).trans ?_⟩
    exact (renderTurn_runs (s := { s with inputs := rest }) hruns).trans hx

/-- A run's first step, taken. -/
theorem run_succ (hx : step s = .next u) (n : Nat) :
    Host.Core.run Sys2Proof.core (n + 1) s = Host.Core.run Sys2Proof.core n u := by
  have hcore : Sys2Proof.core.step s = .next u := hx
  simp only [Host.Core.run, hcore]

theorem step_tickPulse {rest : List Event} (hlegal : s.legal = true) (hports : portsRun s = true)
    (hinputs : s.inputs = .tickPulse :: rest) : step s = .next { s with pendTick := true, inputs := rest } :=
  (step_react hlegal hinputs).trans (congrArg Host.Outcome.next (tickPort_sets (s := { s with inputs := rest }) hports))

theorem blinkStep_pendTick (s : State) : (blinkStep s).pendTick = s.pendTick := by
  unfold blinkStep toggleOverlay
  split_ifs <;> rfl

theorem published_pendTick (p : SwapPolicy) (s : State) : (s.published p).pendTick = s.pendTick := by cases p <;> rfl

/-- TICK takes the pending tick, in a menu too (R121, R141). -/
theorem tickRule_pendTick (hidle : s.hs = Handshake.idle) : (tickRule s).pendTick = false := by
  by_cases hnone : s.modal = none
  · have htaken : (blinkStep s.tickTaken).pendTick = false := blinkStep_pendTick _
    rw [tickRule_published hnone hidle]
    split
    · exact (published_pendTick _ _).trans htaken
    · exact htaken
  · rw [tickRule_of_menu hnone]
    rfl

/-- Settles O55: a pulse sets the flag that another finds set, and TICK clears it. -/
theorem ticksMerge : Obligations.TicksMerge := by
  unfold Obligations.TicksMerge
  refine ⟨fun s rest hlegal hports hinputs => step_tickPulse hlegal hports hinputs, fun s rest hlegal hports hinputs => ?_,
    fun s hrun => ⟨_, exec_tick_of_runnable hrun, tickRule_pendTick (inRange_hs (runnable_iff.1 hrun).2)⟩, fun _ => rfl⟩
  have hsecond : step { s with pendTick := true, inputs := .tickPulse :: rest } = .next { s with pendTick := true, inputs := rest } :=
    step_tickPulse (s := { s with pendTick := true, inputs := .tickPulse :: rest }) hlegal hports rfl
  rw [run_succ (step_tickPulse hlegal hports hinputs), run_succ hsecond]
  rfl

/-! A push in the cycle of a turn (R139). -/

/-- The logic agent's turn completes in every runnable state (R145). -/
theorem logicTurn_completes (h : s.runnable = true) : ∃ t, logicTurn s = .next t := by
  cases hruns : logicRuns s with
  | false => exact ⟨s, logicTurn_waits hruns⟩
  | true =>
    cases htick : s.pendTick with
    | true => exact ⟨_, (logicTurn_tick hruns htick).trans (exec_tick_of_runnable h)⟩
    | false =>
      rcases Nat.eq_zero_or_pos s.ring.count with hempty | hcount
      · exact ⟨s, logicTurn_idle hruns htick hempty⟩
      · rw [logicTurn_byte hruns htick hcount, byteStep_eq h (Nat.ne_of_gt hcount)]
        obtain ⟨v, -, hbyte⟩ := runByte_of_runnable (afterPop_runnable h s.inputs) s.nextByte
        exact ⟨_, hbyte⟩

theorem logicTurn_portsRun (h : s.runnable = true) (hx : logicTurn s = .next t) : portsRun t = portsRun s := by
  rw [logicTurn_withLogic hx h]
  rfl

/-- Only its pop changes the ring in a BYTE step (R67). -/
theorem runByte_ring (hidle : s.hs = Handshake.idle) (hx : runByte b s = .next t) : t.ring = s.ring := by
  obtain ⟨v, hv, rfl⟩ := (runByte_next_iff b).1 hx
  have hbefore : (beforeByte (decode s.cfg s.mode b) s).ring = s.ring := by
    rw [beforeByte, liftOverlay_eq, skipRule_eq]
    split_ifs <;> rfl
  have hclass : v.ring = (beforeByte (decode s.cfg s.mode b) s).ring := by
    rw [exec_byte_frame (decode_isByte _ _ _) hv]
    rfl
  have hredraw : (redrawOverlay v).ring = v.ring := by
    rw [redrawOverlay_eq]
    split_ifs <;> rfl
  have hafter : (afterByte v).ring = (redrawOverlay v).ring := by
    obtain ⟨hhs, -⟩ := exec_decoded_keeps hv
    obtain ⟨-, hhsBefore, -⟩ := beforeByte_keeps (s := s) (decode s.cfg s.mode b)
    rw [afterByte_eq (hhs.trans (hhsBefore.trans hidle))]
    split_ifs
    · cases v.cfg.swapOnByte <;> rfl
    · rfl
  exact hafter.trans (hredraw.trans (hclass.trans hbefore))

/-- The ring after a turn that runs a byte is the ring after its pop. -/
theorem logicTurn_byte_ring (h : s.runnable = true) (hruns : logicRuns s = true) (htick : s.pendTick = false)
    (hcount : 0 < s.ring.count) (hx : logicTurn s = .next t) : t.ring = (s.ring.pop s.cfg.ringN).2 := by
  rw [logicTurn_byte hruns htick hcount, byteStep_eq h (Nat.ne_of_gt hcount)] at hx
  have hidle : s.hs = Handshake.idle := inRange_hs (runnable_iff.1 h).2
  exact runByte_ring (s := s.afterPop s.inputs) hidle hx

theorem logicRuns_portsRun (h : logicRuns s = true) : portsRun s = true := by
  simp only [logicRuns, portsRun, Bool.and_eq_true] at h ⊢
  exact h.1

/-- A full ring with its oldest byte popped has room for one more (R139). -/
theorem Ring.contents_pop_push (h : q.inRange n = true) (hl : q.linked n = true) (hpos : 0 < n) (hfull : q.count = n) (b : Byte) :
    ((q.pop n).2.push n b).contents n = (q.contents n).tail ++ [b] := by
  obtain ⟨hrange, hlinked⟩ := Ring.pop_ok h hl
  obtain ⟨-, hpop⟩ := Ring.pop_contents h
  have hroom : ((q.pop n).2.contents n).length < n := by
    rw [hpop, List.length_tail, Ring.contents_length]
    omega
  rw [Ring.contents_push hrange hlinked, if_pos hroom, hpop]

theorem inv_inputs (h : s.inv = true) (rest : List Event) : ({ s with inputs := rest } : State).inv = true := by
  obtain ⟨-, -, hreset, -⟩ := inv_iff.1 h
  exact inv_host h s.skFree rest hreset.ordered rfl fun _ => rfl

theorem inv_legal (h : s.inv = true) : s.legal = true := by
  simp only [State.inv, Bool.and_eq_true] at h
  tauto

/-- What a push leaves of a full ring after a turn that runs a byte (R139). -/
theorem push_after_full_turn (hinv : s.inv = true) (hruns : logicRuns s = true) (htick : s.pendTick = false)
    (hfull : s.ring.count = s.cfg.ringN) (hx : logicTurn s = .next t) (b : Byte) :
    (t.ring.push t.cfg.ringN b).contents s.cfg.ringN = (s.ring.contents s.cfg.ringN).tail ++ [b] := by
  have hrun := inv_runnable hinv
  obtain ⟨hlogic, -⟩ := inv_iff.1 hinv
  obtain ⟨-, -, -, -, -, hpos⟩ := config_pos hlogic.terminal.config
  rw [logicTurn_cfg hrun hx, logicTurn_byte_ring hrun hruns htick (by omega) hx]
  exact Ring.contents_pop_push hlogic.range hlogic.linked hpos hfull b

/-- Settles O54: the event is the turn and then the push port, which is open or closed after the turn as before it. -/
theorem sameCyclePopThenPush : Obligations.SameCyclePopThenPush := by
  unfold Obligations.SameCyclePopThenPush
  intro s b rest hinv hinputs
  have hinv' := inv_inputs hinv rest
  have hlegal := inv_legal hinv
  obtain ⟨hconfig, -⟩ := legal_iff.1 hlegal
  obtain ⟨-, -, -, -, -, hpos⟩ := config_pos hconfig
  obtain ⟨u, hturn⟩ := logicTurn_completes (inv_runnable hinv')
  have hports : portsRun u = portsRun s := logicTurn_portsRun (s := { s with inputs := rest }) (inv_runnable hinv') hturn
  have hpush := exec_ringPush_of_runnable (inv_runnable (logicTurn_inv hinv' hturn)) b
  have hstep : step s = pushPort b u := by
    rw [step_react hlegal hinputs, react, hturn, andThen]
  have hpushed : portsRun s = true → step s = .next { u with ring := u.ring.push u.cfg.ringN b } := fun hp => by
    rw [hstep, pushPort_runs (hports.trans hp), hpush]
  refine ⟨⟨u, ?_, fun hp => ⟨_, hpush, hpushed hp⟩, fun hp => ?_⟩, fun hruns htick hfull => ?_⟩
  · exact (step_react (s := { s with inputs := .logic :: rest }) hlegal rfl).trans hturn
  · rw [hstep, pushPort_lost (hports.trans hp)]
  · have hcontents := push_after_full_turn (s := { s with inputs := rest }) hinv' hruns htick hfull hturn b
    refine ⟨_, hpushed (logicRuns_portsRun hruns), hcontents, ?_⟩
    have hlength := congrArg List.length hcontents
    simp only [Ring.contents_length, List.length_append, List.length_tail, List.length_singleton] at hlength
    dsimp only
    omega

end Sys2Proof.Machine
end

section
/-! PROOFS. Exceptions (60_exceptions.md): every class and every event completes, and nothing faults (O9). A push in the cycle of
a turn runs in the state after the turn, so the byte classes and the turn are first shown to leave runnable states, whatever the
stores hold. -/

namespace Sys2Proof.Machine

variable {s t : State} {b : Byte}

/-! The legal values a byte class may write. -/

theorem runnable_of_withBack (h : s.runnable = true) (ht : t = s.withBack t) : t.runnable = true := by
  rw [ht]
  exact h

theorem setCursor_runnable (h : s.runnable = true) {col row : Nat} (hi : inGrid s.cfg row col) : (s.setCursor col row).runnable = true := by
  obtain ⟨hconfig, hrange⟩ := runnable_iff.1 h
  obtain ⟨-, -, hrest⟩ := inRange_iff.1 hrange
  exact runnable_iff.2 ⟨hconfig, inRange_iff.2 ⟨hi.2, hi.1, hrest⟩⟩

theorem setModes_runnable (h : s.runnable = true) {esc csi : Bool} (hone : (esc && csi) = false) :
    (setModes esc csi s).runnable = true := by
  obtain ⟨hconfig, hrange⟩ := runnable_iff.1 h
  obtain ⟨hcol, hrow, -, hrest⟩ := inRange_iff.1 hrange
  exact runnable_iff.2 ⟨hconfig, inRange_iff.2 ⟨hcol, hrow, hone, hrest⟩⟩

theorem pbReset_runnable (h : s.runnable = true) : (pbReset s).runnable = true := runnable_with_pb h (Nat.zero_le 4)

/-- A finished parameter is one of at most four (R76). -/
theorem ParseBuf.finalize_pcount_le {pb : ParseBuf} (h : pb.pcount ≤ 4) : pb.finalize.pcount ≤ 4 := by
  rw [ParseBuf.finalize_eq]
  dsimp only
  split <;> omega

/-! CSI commands. -/

/-- Every final byte leaves a runnable state if its own rule does: R78's frame empties the buffer and leaves CSI mode. -/
theorem csiFinal_runnable (h : s.runnable = true) {f : State → State} (hf : ∀ u : State, u.runnable = true → (f u).runnable = true) :
    (csiFinal f s).runnable = true := by
  have hcount := inRange_pcount (runnable_iff.1 h).2
  have hfinal : s.pb.final.pcount ≤ 4 := by
    unfold ParseBuf.final
    split
    · exact ParseBuf.finalize_pcount_le hcount
    · exact hcount
  have hrule := hf _ (runnable_with_pb h hfinal)
  exact setModes_runnable (pbReset_runnable hrule) (Bool.and_false _)

theorem cuuRule_runnable (h : s.runnable = true) : (cuuRule s).runnable = true := by
  obtain ⟨hrow, hcol⟩ := inRange_cursor (runnable_iff.1 h).2
  exact setCursor_runnable h ⟨by omega, hcol⟩

theorem cudRule_runnable (h : s.runnable = true) : (cudRule s).runnable = true := by
  obtain ⟨hrow, hcol⟩ := inRange_cursor (runnable_iff.1 h).2
  exact setCursor_runnable h ⟨by omega, hcol⟩

theorem cufRule_runnable (h : s.runnable = true) : (cufRule s).runnable = true := by
  obtain ⟨hrow, hcol⟩ := inRange_cursor (runnable_iff.1 h).2
  exact setCursor_runnable h ⟨hrow, by omega⟩

theorem cubRule_runnable (h : s.runnable = true) : (cubRule s).runnable = true := by
  obtain ⟨hrow, hcol⟩ := inRange_cursor (runnable_iff.1 h).2
  exact setCursor_runnable h ⟨hrow, by omega⟩

theorem cupRule_runnable (h : s.runnable = true) : (cupRule s).runnable = true := by
  obtain ⟨hcols, hrows, -⟩ := config_pos (runnable_iff.1 h).1
  exact setCursor_runnable h ⟨clamp_lt hrows, clamp_lt (by omega)⟩

theorem edRule_runnable (h : s.runnable = true) : (edRule s).runnable = true := by
  have hblank := runnable_of_withBack h blankGrid_withBack
  obtain ⟨hcols, hrows, -⟩ := config_pos (runnable_iff.1 hblank).1
  unfold edRule
  split
  · exact setCursor_runnable hblank ⟨hrows, by omega⟩
  · exact h

theorem sgrRule_runnable (h : s.runnable = true) : (sgrRule s).runnable = true :=
  loop_keeps (fun u => u.runnable = true) _ _ s h fun _ u _ hu => by
    unfold sgrParam
    split_ifs <;> exact hu

theorem scpRule_runnable (h : s.runnable = true) : (scpRule s).runnable = true := by
  obtain ⟨hconfig, hrange⟩ := runnable_iff.1 h
  obtain ⟨hcol, hrow, hmode, -, -, hrest⟩ := inRange_iff.1 hrange
  exact runnable_iff.2 ⟨hconfig, inRange_iff.2 ⟨hcol, hrow, hmode, hcol, hrow, hrest⟩⟩

theorem rcpRule_runnable (h : s.runnable = true) : (rcpRule s).runnable = true := by
  obtain ⟨-, -, -, hcol, hrow, -⟩ := inRange_iff.1 (runnable_iff.1 h).2
  unfold rcpRule
  split
  · exact setCursor_runnable h ⟨hrow, hcol⟩
  · exact h

/-! Text editing. -/

theorem crRule_runnable (h : s.runnable = true) : (crRule s).runnable = true := by
  unfold crRule
  split
  · exact h
  · exact lineBreak_runnable h

theorem lfRule_runnable (h : s.runnable = true) : (lfRule s).runnable = true := by
  unfold lfRule
  split
  · exact h
  · exact lineBreak_runnable h

theorem bsRule_runnable (h : s.runnable = true) : (bsRule s).runnable = true := by
  obtain ⟨hrow, hcol⟩ := inRange_cursor (runnable_iff.1 h).2
  exact setCursor_runnable (col := s.curCol - 1) h ⟨hrow, by omega⟩

theorem printRule_runnable (h : s.runnable = true) (b : Byte) : (printRule b s).runnable = true := by
  obtain ⟨-, hcol⟩ := inRange_cursor (runnable_iff.1 h).2
  unfold printRule
  dsimp only
  split
  · exact lineBreak_runnable (s := setCell s.curRow s.curCol b s.curFg s.curBg s) h
  · exact runnable_of_column (s := s) h (by omega)

/-! Menus. -/

theorem openModal_runnable (h : s.runnable = true) (k : MenuKind) : (openModal k s).runnable = true := by
  unfold openModal drawImage
  refine runnable_of_withBack (s := takeSnap (s.cfg.menu k) { s with modal := some k, mdigN := false, mdigV := 0 })
    (runnable_of_opened (s := s) h) (overRect_withBack _ _ _ fun _ _ _ _ => rfl)

theorem exitModal_runnable (h : s.runnable = true) : (exitModal s).runnable = true := by
  unfold exitModal restoreSnap
  split
  · exact runnable_of_opened (runnable_of_withBack h (overRect_withBack _ _ _ fun _ _ _ _ => rfl))
  · exact runnable_of_opened h

/-- The digit of a colour code is decimal (R101). -/
theorem runnable_of_digit (h : s.runnable = true) {d : BitVec 4} (hd : d.toNat ≤ 9) (held : Bool) :
    ({ s with mdigV := d, mdigN := held } : State).runnable = true := by
  obtain ⟨hconfig, hrange⟩ := runnable_iff.1 h
  obtain ⟨hcol, hrow, hmode, hscol, hsrow, hparams, hblink, hocol, horow, -, hrest⟩ := inRange_iff.1 hrange
  exact runnable_iff.2 ⟨hconfig, inRange_iff.2 ⟨hcol, hrow, hmode, hscol, hsrow, hparams, hblink, hocol, horow, hd, hrest⟩⟩

theorem pickDigitRule_runnable (h : s.runnable = true) {d : BitVec 4} (hd : d.toNat ≤ 9) : (pickDigitRule d s).runnable = true := by
  have hcolour : ∀ v, (pickColour v s).runnable = true := fun v => by
    unfold pickColour
    split <;> exact h
  unfold pickDigitRule
  split_ifs
  · exact exitModal_runnable (hcolour _)
  · exact h
  · exact runnable_of_digit h hd true

theorem pickBsRule_runnable (h : s.runnable = true) : (pickBsRule s).runnable = true := by
  unfold pickBsRule
  split
  · exact runnable_of_digit (d := 0) h (Nat.zero_le 9) false
  · exact h

theorem styleRule_runnable (h : s.runnable = true) (d : BitVec 4) : (styleRule d s).runnable = true := by
  unfold styleRule
  split
  · exact exitModal_runnable h
  · exact h

theorem themeRule_runnable (h : s.runnable = true) (d : BitVec 4) : (themeRule d s).runnable = true := by
  unfold themeRule
  split
  · exact exitModal_runnable h
  · exact h

/-! Byte classes, and the logic agent's turn. -/

/-- A byte class that a mode admits leaves a runnable state. -/
theorem exec_byte_runnable {cfg : Config} {m : Mode} {i : Instr} (h : s.runnable = true) (hw : i.wfIn cfg m = true)
    (hx : exec i s = .next t) : t.runnable = true := by
  have keeps : ∀ {f : State → State}, run f s = .next t → (f s).runnable = true → t.runnable = true :=
    fun hf => run_keeps (P := fun u => u.runnable = true) hf
  cases i with
  | cr => exact keeps hx (crRule_runnable h)
  | lf => exact keeps hx (lfRule_runnable h)
  | escEntry => exact keeps hx (pbReset_runnable (setModes_runnable h rfl))
  | escCsi => exact keeps hx (pbReset_runnable (setModes_runnable h rfl))
  | escAbort x => exact keeps hx (setModes_runnable h (Bool.false_and _))
  | csiDigit d => exact keeps hx (runnable_with_pb h (inRange_pcount (runnable_iff.1 h).2))
  | csiSep => exact keeps hx (runnable_with_pb h (ParseBuf.finalize_pcount_le (inRange_pcount (runnable_iff.1 h).2)))
  | csiCuu => exact keeps hx (csiFinal_runnable h fun _ => cuuRule_runnable)
  | csiCud => exact keeps hx (csiFinal_runnable h fun _ => cudRule_runnable)
  | csiCuf => exact keeps hx (csiFinal_runnable h fun _ => cufRule_runnable)
  | csiCub => exact keeps hx (csiFinal_runnable h fun _ => cubRule_runnable)
  | csiCup => exact keeps hx (csiFinal_runnable h fun _ => cupRule_runnable)
  | csiEd => exact keeps hx (csiFinal_runnable h fun _ => edRule_runnable)
  | csiEl => exact keeps hx (csiFinal_runnable h fun _ hu => runnable_of_withBack hu (blankSpan_withBack _ _ _))
  | csiSgr => exact keeps hx (csiFinal_runnable h fun _ => sgrRule_runnable)
  | csiScp => exact keeps hx (csiFinal_runnable h fun _ => scpRule_runnable)
  | csiRcp => exact keeps hx (csiFinal_runnable h fun _ => rcpRule_runnable)
  | csiUnknown b => exact keeps hx (csiFinal_runnable h fun _ hu => hu)
  | openFg | openBg | openStyle | openTheme => exact keeps hx (openModal_runnable h _)
  | bs b => exact keeps hx (bsRule_runnable h)
  | print b => exact keeps hx (printRule_runnable h b)
  | modalCancel => exact keeps hx (exitModal_runnable h)
  | pickDigit d =>
    simp only [Instr.wfIn, digitOk, Bool.and_eq_true, decide_eq_true_eq] at hw
    exact keeps hx (pickDigitRule_runnable h hw.2)
  | pickBs b => exact keeps hx (pickBsRule_runnable h)
  | styleSelect d => exact keeps hx (styleRule_runnable h d)
  | themeSelect d => exact keeps hx (themeRule_runnable h d)
  | modalIgnore b => exact keeps hx h
  | tick | line | deferredCopy | forcedCopy | ringPush b | ringPop => cases hw

theorem redrawOverlay_runnable (h : s.runnable = true) : (redrawOverlay s).runnable = true := by
  unfold redrawOverlay
  split
  · exact overlayDraw_runnable h
  · exact h

/-- The swap action and the clearing of the step-local values write no legal value that an instruction needs. -/
theorem swapAfterEdit_runnable (h : s.runnable = true) (p : SwapPolicy) : (clearLocal (swapAfterEdit p s)).runnable = true := by
  obtain ⟨fr, q, heq, -⟩ := swapAfterEdit_frame p (inRange_hs (runnable_iff.1 h).2)
  rw [heq]
  exact h

theorem runByte_runnable (h : s.runnable = true) (hx : runByte b s = .next t) : t.runnable = true := by
  obtain ⟨v, hv, rfl⟩ := (runByte_next_iff b).1 hx
  have hclass := exec_byte_runnable ((beforeByte_runnable _ s).trans h) (decode_wfIn s.cfg s.mode b) hv
  exact swapAfterEdit_runnable (redrawOverlay_runnable hclass) _

theorem tickRule_runnable (h : s.runnable = true) : (tickRule s).runnable = true := by
  by_cases hnone : s.modal = none
  · rw [tickRule_of_no_menu hnone]
    exact swapAfterEdit_runnable (blinkStep_runnable (s := s.tickTaken) h) _
  · rw [tickRule_of_menu hnone]
    exact h

theorem logicTurn_runnable (h : s.runnable = true) (hx : logicTurn s = .next t) : t.runnable = true := by
  rcases logicTurn_cases hx h with rfl | ⟨-, rfl⟩ | ⟨-, -, hbyte⟩
  · exact h
  · exact tickRule_runnable h
  · exact runByte_runnable (afterPop_runnable h s.inputs) hbyte

/-! The events. -/

theorem pushPort_completes (h : s.runnable = true) (b : Byte) : ∃ t, pushPort b s = .next t := by
  cases hports : portsRun s with
  | false => exact ⟨s, pushPort_lost hports b⟩
  | true => exact ⟨_, (pushPort_runs hports b).trans (exec_ringPush_of_runnable h b)⟩

theorem renderTurn_completes (h : s.runnable = true) : ∃ t, renderTurn s = .next t := by
  cases hruns : renderRuns s with
  | false => exact ⟨s, renderTurn_waits hruns⟩
  | true => exact ⟨lineRule s, (renderTurn_runs hruns).trans (run_eq h)⟩

/-- Every event completes in a runnable state, but for a handle wider than its port (R134, log 13). -/
theorem react_completes {e : Event} (h : s.runnable = true) (hfits : ∀ id, e = .sinkFree id → id < 2 ^ s.cfg.skw) :
    ∃ t, react e s = .next t := by
  cases e with
  | push b => exact pushPort_completes h b
  | tickPulse => exact ⟨_, rfl⟩
  | logic => exact logicTurn_completes h
  | logicPush b =>
    obtain ⟨u, hturn⟩ := logicTurn_completes h
    obtain ⟨t, hpush⟩ := pushPort_completes (logicTurn_runnable h hturn) b
    exact ⟨t, andThen_next_iff.2 ⟨u, hturn, hpush⟩⟩
  | render => exact renderTurn_completes h
  | sinkFree id => exact ⟨_, sinkOffer_fits (hfits id rfl)⟩
  | rst v => exact ⟨_, rfl⟩
  | clkL => exact ⟨_, rfl⟩
  | clkR => exact ⟨_, rfl⟩

theorem step_completes (hlegal : s.legal = true) (hfits : ∀ id rest, s.inputs = .sinkFree id :: rest → id < 2 ^ s.cfg.skw) :
    ∃ t, step s = .next t := by
  cases hinputs : s.inputs with
  | nil => exact ⟨s, step_idle hlegal hinputs⟩
  | cons e rest =>
    rw [step_react hlegal hinputs]
    exact react_completes (s := { s with inputs := rest }) (legal_runnable hlegal) fun id he => hfits id rest (by rw [hinputs, he])

/-- A step that does not complete was refused: a broken configuration, an illegal state, or a handle too wide. -/
theorem step_next_or_refused (s : State) : (∃ t, step s = .next t) ∨ ∃ r, step s = .refused r := by
  by_cases hconfig : configWf s.cfg = true
  · cases hlegal : s.legal with
    | false => exact .inr ⟨_, step_illegal hconfig hlegal⟩
    | true =>
      by_cases hfits : ∀ id rest, s.inputs = .sinkFree id :: rest → id < 2 ^ s.cfg.skw
      · exact .inl (step_completes hlegal hfits)
      · push Not at hfits
        obtain ⟨id, rest, hinputs, hwide⟩ := hfits
        exact .inr ⟨_, (step_react hlegal hinputs).trans (sinkOffer_wide hwide)⟩
  · exact .inr ⟨_, step_illFormed hconfig⟩

theorem exec_ne_fault (i : Instr) (s : State) (f : Fault) : exec i s ≠ .fault f := by
  obtain ⟨rule, hrule⟩ := exec_eq_run i
  rw [hrule]
  rcases run_cases (f := rule) (s := s) with ⟨h, -⟩ | h | h <;> rw [h] <;> nofun

/-- Settles O9: instructions run under the guard `run`, and each event's branch completes or is refused. -/
theorem everythingCompletes : Obligations.EverythingCompletes := by
  unfold Obligations.EverythingCompletes
  refine ⟨fun i s hrun => ?_, fun s => step_completes, exec_ne_fault, fun s f => ?_⟩
  · obtain ⟨t, hx⟩ := (exec_runnable i).1 hrun
    exact ⟨t, hx, exec_cfg hx⟩
  · rcases step_next_or_refused s with ⟨t, h⟩ | ⟨r, h⟩ <;> rw [h] <;> nofun

end Sys2Proof.Machine
end

section
/-! PROOFS. Reset (70_reset_and_hazards.md): the reset values (O57) and the reset sequencing (O58). -/

namespace Sys2Proof.Machine

variable {s t : State} {cfg : Config} {p r c w j : Nat}

/-! The blank screen of an empty store (R44). -/

/-- An unlisted byte of a plane word holds the default colours' nibble of its plane twice. -/
theorem unlisted_backPl (hr : r < cfg.rows) (hw : w < cfg.wpr) (hj : j < 4) :
    unlisted cfg .backPl (plAddr cfg p r w + j) =
      colourNib cfg.defaultFg cfg.defaultBg p ++ colourNib cfg.defaultFg cfg.defaultBg p := by
  have hslot : r * cfg.wpr + w < cfg.rows * cfg.wpr := mul_add_lt hr hw
  have hsize : 4 * cfg.rows * cfg.wpr = 4 * (cfg.rows * cfg.wpr) := Nat.mul_assoc ..
  have haddr : plAddr cfg p r w + j = (4 * (r * cfg.wpr + w) + j) + p * (4 * cfg.rows * cfg.wpr) := by
    unfold plAddr
    ring
  have hplane : (plAddr cfg p r w + j) / (4 * cfg.rows * cfg.wpr) = p := by
    rw [haddr, Nat.add_mul_div_right _ _ (by omega), Nat.div_eq_of_lt (by omega), Nat.zero_add]
  simp only [unlisted, hplane]

/-- Each of the eight nibbles of a word whose bytes are a nibble twice is that nibble (R36). -/
theorem nibble_of_repeated (n : Nibble) {k : Nat} (hk : k < 8) :
    ((n ++ n) ++ (n ++ n) ++ (n ++ n) ++ (n ++ n) : BitVec (8 + 8 + 8 + 8)).extractLsb' (4 * k) 4 = n := by
  apply BitVec.eq_of_getLsbD_eq
  intro i hi
  interval_cases k <;> simp only [BitVec.getLsbD_extractLsb', BitVec.getLsbD_append] <;> grind

theorem nib_empty (h8 : cfg.cols % 8 = 0) (hi : inGrid cfg r c) :
    Store.nib cfg ⟨[], []⟩ p r c = colourNib cfg.defaultFg cfg.defaultBg p := by
  have hbyte : ∀ j, j < 4 → Memory.get (unlisted cfg .backPl) [] (plAddr cfg p r (c / 8) + j) = _ :=
    fun j hj => unlisted_backPl hi.1 (slot_lt h8 hi.2) hj
  unfold Store.nib Store.plAt Memory.getWord
  rw [hbyte 3 (by decide), hbyte 2 (by decide), hbyte 1 (by decide),
    show Memory.get (unlisted cfg .backPl) [] (plAddr cfg p r (c / 8)) = _ from hbyte 0 (by decide)]
  exact nibble_of_repeated _ (Nat.mod_lt c (by decide))

/-- An empty store is the blank screen in the default colours (R44). -/
theorem cell_empty (h8 : cfg.cols % 8 = 0) (hi : inGrid cfg r c) :
    Store.cell cfg ⟨[], []⟩ r c = { ch := cfg.blankChar, fg := cfg.defaultFg, bg := cfg.defaultBg } := by
  have hfg : Store.fgOf cfg ⟨[], []⟩ r c = cfg.defaultFg := Store.fgOf_of_nib fun p _ => by rw [nib_empty h8 hi, colourNib_fg]
  have hbg : Store.bgOf cfg ⟨[], []⟩ r c = cfg.defaultBg := Store.bgOf_of_nib fun p _ => by rw [nib_empty h8 hi, colourNib_bg]
  rw [Store.cell, hfg, hbg]
  rfl

/-! The reset values (R157). -/

/-- R157's values do not speak of the host's side, the reset unit or the draws of free values. -/
theorem resetOf_values (hconfig : configWf cfg = true) (fs : List Nat) (es : List Event) (u : ResetUnit) (n : Nat) :
    ResetValues cfg { State.resetOf cfg with skFree := fs, inputs := es, rsu := u, freeDraws := n } where
  config := rfl
  cursor := ⟨rfl, rfl⟩
  colours := ⟨rfl, rfl⟩
  modes := ⟨rfl, rfl⟩
  skips := ⟨rfl, rfl⟩
  saved := ⟨rfl, rfl, rfl⟩
  params := ⟨fun i => by simp only [State.resetOf, ParseBuf.empty, Params.get]; split <;> rfl, rfl, rfl, rfl⟩
  blink := ⟨rfl, rfl, rfl⟩
  overlay := ⟨rfl, rfl, rfl, rfl, rfl⟩
  menu := ⟨rfl, rfl, rfl⟩
  swap := ⟨rfl, rfl⟩
  render := ⟨rfl, rfl, rfl⟩
  ring := ⟨rfl, rfl, rfl, rfl, rfl⟩
  screen := fun _ _ hi => cell_empty (config_cols8 hconfig) hi
  front := rfl

theorem resetPin_rises (h : s.rsu.rst = false) : resetPin true s = assertReset s := by
  rw [resetPin, if_pos rfl, if_neg (Bool.eq_false_iff.1 h)]

/-- Settles O57: all three states are the reset values under some reset unit and some host's side. -/
theorem resetValuesHold : Obligations.ResetValuesHold := by
  unfold Obligations.ResetValuesHold
  refine ⟨fun cfg hconfig => resetOf_values hconfig [] [] ResetUnit.released 0, fun s rest hlegal hrst hinputs => ?_,
    fun s hinv hrst => ?_⟩
  · have hpin := resetPin_rises (s := { s with inputs := rest }) hrst
    refine ⟨_, (step_react hlegal hinputs).trans (congrArg Host.Outcome.next hpin), rfl, ?_⟩
    exact resetOf_values (legal_iff.1 hlegal).1 s.skFree rest ResetUnit.asserted s.freeDraws
  · obtain ⟨hlogic, -, hreset, -⟩ := inv_iff.1 hinv
    obtain ⟨-, hregs⟩ := heldInReset_iff.1 hreset.held hrst
    have hvalues := resetOf_values hlogic.terminal.config s.skFree s.inputs s.rsu s.freeDraws
    rwa [← hregs] at hvalues

/-! While rst is 1 (R157, R158). -/

theorem portsRun_of_rst (h : s.rsu.rst = true) : portsRun s = false := by simp [portsRun, h]

theorem logicRuns_of_rst (h : s.rsu.rst = true) : logicRuns s = false := by simp [logicRuns, h]

theorem renderRuns_of_rst (h : s.rsu.rst = true) : renderRuns s = false := by simp [renderRuns, h]

/-- In reset an event other than the fall of rst changes the sink's free buffers and the reset unit at most. -/
theorem react_in_reset {e : Event} (hrst : s.rsu.rst = true) (hfall : e ≠ .rst false) (hx : react e s = .next t) :
    t = { s with skFree := t.skFree, rsu := t.rsu } ∧ t.rsu.rst = true := by
  have hturn : logicTurn s = .next s := logicTurn_waits (logicRuns_of_rst hrst)
  have hpush : ∀ b, pushPort b s = .next s := pushPort_lost (portsRun_of_rst hrst)
  cases e with
  | push b =>
    rw [react, hpush] at hx
    cases hx
    exact ⟨rfl, hrst⟩
  | tickPulse =>
    rw [react, tickPort_lost (portsRun_of_rst hrst)] at hx
    cases hx
    exact ⟨rfl, hrst⟩
  | logic =>
    rw [react, hturn] at hx
    cases hx
    exact ⟨rfl, hrst⟩
  | logicPush b =>
    rw [react, hturn, andThen, hpush] at hx
    cases hx
    exact ⟨rfl, hrst⟩
  | render =>
    rw [react, renderTurn_waits (renderRuns_of_rst hrst)] at hx
    cases hx
    exact ⟨rfl, hrst⟩
  | sinkFree id =>
    simp only [react, sinkOffer] at hx
    split_ifs at hx
    cases hx
    exact ⟨rfl, hrst⟩
  | rst v =>
    cases v with
    | false => exact absurd rfl hfall
    | true =>
      rw [react, resetPin, if_pos rfl, if_pos hrst] at hx
      cases hx
      exact ⟨rfl, hrst⟩
  | clkL =>
    cases hx
    exact ⟨rfl, by simp only [clockL, if_pos hrst]; exact hrst⟩
  | clkR =>
    cases hx
    exact ⟨rfl, by simp only [clockR, if_pos hrst]; exact hrst⟩

/-! The fall of rst (R157, 93 section 1). -/

theorem resetPin_falls (hrst : s.rsu.rst = true) (hheld : 2 ≤ s.rsu.heldL ∧ 2 ≤ s.rsu.heldR) :
    resetPin false s = { s with rsu := { s.rsu with rst := false, heldL := 0, heldR := 0 } } := by
  rw [resetPin, if_neg (by decide), if_pos hrst, if_pos hheld]

theorem resetPin_falls_too_soon (hrst : s.rsu.rst = true) (hshort : s.rsu.heldL < 2 ∨ s.rsu.heldR < 2) :
    resetPin false s = shortReset (Config.freeState s.freeDraws) s := by
  rw [resetPin, if_neg (by decide), if_pos hrst, if_neg (by omega)]

/-! An agent and its partner (R158). -/

/-- The logic agent steps only with both domains out of reset. -/
theorem logicRuns_partner (ho : s.rsu.ordered = true) (h : logicRuns s = true) :
    s.rsu.rst = false ∧ s.rsu.relL.ff2 = true ∧ s.rsu.relR.ff2 = true := by
  simp only [logicRuns, Bool.and_eq_true, Bool.not_eq_true'] at h
  obtain ⟨⟨hrst, hown⟩, hseen⟩ := h
  obtain ⟨-, -, hpeer, -⟩ := ordered_iff.1 ho
  exact ⟨hrst, hown, hpeer (.inr hseen)⟩

/-- The render agent steps only with both domains out of reset. -/
theorem renderRuns_partner (ho : s.rsu.ordered = true) (h : renderRuns s = true) :
    s.rsu.rst = false ∧ s.rsu.relL.ff2 = true ∧ s.rsu.relR.ff2 = true := by
  simp only [renderRuns, Bool.and_eq_true, Bool.not_eq_true'] at h
  obtain ⟨⟨hrst, hown⟩, hseen⟩ := h
  obtain ⟨-, -, -, hpeer⟩ := ordered_iff.1 ho
  exact ⟨hrst, hpeer (.inr hseen), hown⟩

/-- The turn of an agent while either domain is in reset does nothing. -/
theorem agentTurn_waits {e : Event} (ho : s.rsu.ordered = true) (he : e = .logic ∨ e = .render)
    (hreset : s.rsu.rst = true ∨ s.rsu.relL.ff2 = false ∨ s.rsu.relR.ff2 = false) : react e s = .next s := by
  have hnot : ¬(s.rsu.rst = false ∧ s.rsu.relL.ff2 = true ∧ s.rsu.relR.ff2 = true) := by
    rintro ⟨hrst, hL, hR⟩
    simp [hrst, hL, hR] at hreset
  rcases he with rfl | rfl
  · exact logicTurn_waits (Bool.eq_false_iff.2 fun h => hnot (logicRuns_partner ho h))
  · exact renderTurn_waits (Bool.eq_false_iff.2 fun h => hnot (renderRuns_partner ho h))

/-! The edges after the release (R158, log 12). -/

/-- The reset unit after a clock edge; no other event is one. -/
def ResetUnit.edge (u : ResetUnit) : Event → ResetUnit
  | .clkL => clockL u
  | .clkR => clockR u
  | _ => u

theorem react_edge {e : Event} (he : e = .clkL ∨ e = .clkR) : react e s = .next { s with rsu := s.rsu.edge e } := by
  rcases he with rfl | rfl <;> rfl

/-- A run over clock edges alone changes the reset unit alone. -/
theorem run_edges (es : List Event) (hes : ∀ e ∈ es, e = .clkL ∨ e = .clkR) (rest : List Event) (hlegal : s.legal = true)
    (hinputs : s.inputs = es ++ rest) :
    Host.Core.run Sys2Proof.core es.length s = .next { s with inputs := rest, rsu := es.foldl ResetUnit.edge s.rsu } := by
  induction es generalizing s with
  | nil =>
    obtain rfl : s.inputs = rest := hinputs
    rfl
  | cons e es ih =>
    obtain ⟨he, hes⟩ := List.forall_mem_cons.1 hes
    have hstep : step s = .next { s with inputs := es ++ rest, rsu := s.rsu.edge e } :=
      (step_react hlegal hinputs).trans (react_edge (s := { s with inputs := es ++ rest }) he)
    rw [List.length_cons, run_succ hstep]
    exact ih (s := { s with inputs := es ++ rest, rsu := s.rsu.edge e }) hes hlegal rfl

/-- Four edges of each clock, by turns: two release each domain, and two more show each to the other. -/
def releaseEdges : List Event := [.clkL, .clkR, .clkL, .clkR, .clkL, .clkR, .clkL, .clkR]

theorem releaseEdges_release {u : ResetUnit} (h : u.rst = false) : releaseEdges.foldl ResetUnit.edge u =
    { u with relL := ⟨true, true⟩, relR := ⟨true, true⟩, peerL := ⟨true, true⟩, peerR := ⟨true, true⟩ } := by
  obtain ⟨rst, relL, relR, peerL, peerR, heldL, heldR, short⟩ := u
  obtain rfl : rst = false := h
  rfl

/-- Settles O58: what each event can do in reset and as rst falls, the order of the reset flops, and the run over the edges. -/
theorem resetSequencing : Obligations.ResetSequencing := by
  unfold Obligations.ResetSequencing
  refine ⟨fun s t e rest hrst hinputs hfall hx => ?_, fun s rest hlegal hrst hinputs => ⟨fun hL hR => ?_, fun hshort => ?_⟩,
    fun x s hconfig => ⟨shortReset_inv hconfig x, rfl, rfl, rfl, rfl⟩, fun x s hinv hcfg hrst => shortReset_of_inv hinv hcfg hrst,
    fun s hinv => ?_, fun s e rest hinv hinputs he hreset => ?_, fun s rest hlegal hrst hinputs => ?_⟩
  · obtain ⟨hlegal, -⟩ := step_next_iff.1 hx
    rw [step_react hlegal hinputs] at hx
    exact react_in_reset (s := { s with inputs := rest }) hrst hfall hx
  · exact (step_react hlegal hinputs).trans (congrArg Host.Outcome.next (resetPin_falls (s := { s with inputs := rest }) hrst ⟨hL, hR⟩))
  · exact (step_react hlegal hinputs).trans (congrArg Host.Outcome.next (resetPin_falls_too_soon (s := { s with inputs := rest }) hrst hshort))
  · obtain ⟨-, -, hunit, -⟩ := inv_iff.1 hinv
    refine ⟨fun hruns => ?_, fun hruns => ?_⟩
    · obtain ⟨-, -, hR⟩ := logicRuns_partner hunit.ordered hruns
      exact hR
    · obtain ⟨-, hL, -⟩ := renderRuns_partner hunit.ordered hruns
      exact hL
  · obtain ⟨-, -, hunit, -⟩ := inv_iff.1 hinv
    exact (step_react (inv_legal hinv) hinputs).trans (agentTurn_waits (s := { s with inputs := rest }) hunit.ordered he hreset)
  · have hrun := run_edges releaseEdges (by simp [releaseEdges]) rest hlegal hinputs
    rw [releaseEdges_release hrst] at hrun
    exact ⟨_, hrun, by simp [logicRuns, hrst], by simp [renderRuns, hrst], rfl⟩

end Sys2Proof.Machine
end
